-- ==== Sys2Proof/Word.lean ====
section
/-! DEFINITION. The word types of the NBE: registers and command words are 32 bits (`XLEN_REG`, R8),
data memory holds bytes (R60), a statistics sum is a 64-bit number read as two registers (R33). -/

namespace Sys2Proof

/-- A register or a command word (`00_scope.md` R8, `XLEN_REG` = 32). -/
abbrev Word := BitVec 32

/-- One byte of data memory, a `u8` (`00_scope.md` R10, `20_memory.md` R60). -/
abbrev Byte := BitVec 8

/-- A statistics sum, 64-bit two's complement (`10_state.md` R33, `ACC_W` = 64 in R8). -/
abbrev Sum := BitVec 64

end Sys2Proof
end

