-- ==== Sys2Proof/Config.lean ====
section
/-! DEFINITION. What a platform or an implementation fixes and the spec leaves open (`NLANES`, `REG_BASE`),
and the model's free values. Every constant here is opaque: nothing can evaluate it or prove a value of it. -/

namespace Sys2Proof.Config

/-- `NLANES` less one, so that the number of lanes is any integer at least 1 (`00_scope.md` R8, OPEN). -/
opaque extraLanes : Nat

/-- `NLANES`, OPEN, read by no rule and by no definition of the model (R8, R260; log 10). -/
def nLanes : Nat := extraLanes + 1

/-- `REG_BASE`, where the platform maps the register file: OPEN, read by no rule, since registers are named by
offset only (R8, R20, R68; log 10). -/
opaque regBase : Nat

/-- FREE VALUE. The content of data-memory address `a` that nothing has written since power-up: any `u8`
(`93_implementation_defined.md` U7, "any value"; log 5). -/
opaque powerUpByte : Nat → Byte

/-- FREE VALUE. The unit the engine would take at its `n`-th free choice of a parallel command, when the state's
own list of choices has run out (`44_dispatch.md` R207, U10; log 4). -/
opaque pickUnit : Nat → Nat

end Sys2Proof.Config
end

