-- ==== Sys2Proof/Syntax.lean ====
section
/-! DEFINITION. The seven commands of the opcode table (`30_encoding.md` R97) with their operands, and the
names that fields of a command resolve to. -/

namespace Sys2Proof

/-- The `PAR` field: sequential or parallel execution (`30_encoding.md` R93). -/
inductive Mode where
  /-- `PAR = 0`: units in ascending index order. -/
  | seq
  /-- `PAR = 1`: units in any order. -/
  | par
deriving DecidableEq, Repr

/-- A command: one constructor per row of the opcode table (R97). `nbits` and `ordtok` are the raw 8-bit fields
as plain numbers (R94, R95): values that are no width or no order token are legal encodings (R100). -/
inductive Instr where
  /-- `UNPACK.D nbits, ord, par` (R144). -/
  | unpackD (nbits ordtok : Nat) (mode : Mode)
  /-- `UNPACK.L nbits, ord, par` (R184). -/
  | unpackL (nbits ordtok : Nat) (mode : Mode)
  /-- `UNPACKB.D nbits, ord, par` (R145). -/
  | unpackbD (nbits ordtok : Nat) (mode : Mode)
  /-- `UNPACKB.L nbits, ord, par` (R185). -/
  | unpackbL (nbits ordtok : Nat) (mode : Mode)
  /-- `PACK nbits, ord, par` (R164). -/
  | pack (nbits ordtok : Nat) (mode : Mode)
  /-- `PACKB nbits, ord, par` (R165). -/
  | packb (nbits ordtok : Nat) (mode : Mode)
  /-- `REQUANT` (R220). -/
  | requant
deriving DecidableEq, Repr

/-- Why a word is no command: the four cases of `30_encoding.md` R98. -/
inductive DecodeError where
  /-- R98 (a): `OP` is 0 or 6..15. -/
  | badOperation
  /-- R98 (b): `RSV0` or `RSV1` is not 0. -/
  | reservedBits
  /-- R98 (c): `PACK` or `PACKB` with `IMPL = 1`. -/
  | lookupPack
  /-- R98 (d): `REQUANT` with another field set. -/
  | requantFields
deriving DecidableEq, Repr

/-- A row of the opcode map (R97). -/
structure OpcodeRow where
  mnemonic : String
  mask : Word
  pattern : Word
deriving DecidableEq, Repr

/-- A legal bit width (`40_catalog.md` R121). -/
inductive Width where
  | w1 | w2 | w4
deriving DecidableEq, Repr

/-- A bit order (`40_catalog.md` R123). -/
inductive Order where
  | little | big
deriving DecidableEq, Repr

/-- What the catalog resolves a width and an order token to (`40_catalog.md` R126). -/
structure Codec where
  width : Width
  order : Order
deriving DecidableEq, Repr

end Sys2Proof
end

