-- ==== Sys2Proof/WellFormed.lean ====
section
/-! DEFINITION. Well-formed instructions: the operands fit the fields of the command word
(`30_encoding.md` R94, R95: each immediate is an unsigned 8-bit field). -/

namespace Sys2Proof

/-- A value of the `NBITS` field (R94). -/
def nbitsFits (nbits : Nat) : Bool := decide (nbits < 256)

/-- A value of the `ORDTOK` field (R95). -/
def ordtokFits (ordtok : Nat) : Bool := decide (ordtok < 256)

/-- Every immediate of the instruction fits its field. -/
def Instr.wellFormed : Instr → Bool
  | .unpackD n o _ => nbitsFits n && ordtokFits o
  | .unpackL n o _ => nbitsFits n && ordtokFits o
  | .unpackbD n o _ => nbitsFits n && ordtokFits o
  | .unpackbL n o _ => nbitsFits n && ordtokFits o
  | .pack n o _ => nbitsFits n && ordtokFits o
  | .packb n o _ => nbitsFits n && ordtokFits o
  | .requant => true

/-- The instruction is well formed. -/
abbrev Instr.WellFormed (i : Instr) : Prop := i.wellFormed = true

end Sys2Proof
end

