-- ==== Sys2Proof/Decode.lean ====
section
/-! DEFINITION. The decoder, total on all 32-bit words and rejecting by name (`30_encoding.md` R90 to R99), then
the encoder, the opcode map (R97) and `decodeTableWord`, the host's view of the decoder. -/

namespace Sys2Proof

/-- `v[hi:lo]`, that is `(v >> lo) mod 2^(hi-lo+1)` (`00_scope.md` R9). -/
def slice (v hi lo : Nat) : Nat := v / 2 ^ lo % 2 ^ (hi - lo + 1)

/-- The mode a `PAR` bit stands for (R93). -/
def modeOf (par : Nat) : Mode := if par = 0 then .seq else .par

/-- The bit a mode stands for in `PAR` (R93). -/
def Mode.bit : Mode → Nat
  | .seq => 0
  | .par => 1

/-- The command a word spells, or why it spells none (R98, R99). It reads nothing but the word. -/
def decode (w : Word) : Except DecodeError Instr :=
  let op := slice w.toNat 3 0
  let impl := slice w.toNat 4 4
  let par := slice w.toNat 5 5
  let rsv0 := slice w.toNat 7 6
  let nbits := slice w.toNat 15 8
  let ordtok := slice w.toNat 23 16
  let rsv1 := slice w.toNat 31 24
  if rsv0 ≠ 0 ∨ rsv1 ≠ 0 then .error .reservedBits
  else if op = 1 then
    if impl = 0 then .ok (.unpackD nbits ordtok (modeOf par)) else .ok (.unpackL nbits ordtok (modeOf par))
  else if op = 2 then
    if impl = 0 then .ok (.unpackbD nbits ordtok (modeOf par)) else .ok (.unpackbL nbits ordtok (modeOf par))
  else if op = 3 then
    if impl = 0 then .ok (.pack nbits ordtok (modeOf par)) else .error .lookupPack
  else if op = 4 then
    if impl = 0 then .ok (.packb nbits ordtok (modeOf par)) else .error .lookupPack
  else if op = 5 then
    if impl = 0 ∧ par = 0 ∧ nbits = 0 ∧ ordtok = 0 then .ok .requant else .error .requantFields
  else .error .badOperation

/-- `w = OP + IMPL*16 + PAR*32 + NBITS*256 + ORDTOK*65536` (R90). -/
def commandWord (op impl par nbits ordtok : Nat) : Word :=
  BitVec.ofNat 32 (op + impl * 16 + par * 32 + nbits * 256 + ordtok * 65536)

/-- The word of a well-formed instruction: `OP` by R91, `IMPL` by R92, `PAR` by R93. An ill-formed one has no word in the spec
(DESIGN CHOICE, log 23). -/
def encode : Instr → Word
  | .unpackD n o m => commandWord 1 0 m.bit n o
  | .unpackL n o m => commandWord 1 1 m.bit n o
  | .unpackbD n o m => commandWord 2 0 m.bit n o
  | .unpackbL n o m => commandWord 2 1 m.bit n o
  | .pack n o m => commandWord 3 0 m.bit n o
  | .packb n o m => commandWord 4 0 m.bit n o
  | .requant => commandWord 5 0 0 0 0

/-- The row of the opcode map an instruction belongs to (R97). -/
def Instr.row : Instr → OpcodeRow
  | .unpackD _ _ _ => ⟨"UNPACK.D", 0xFF0000DF, 0x00000001⟩
  | .unpackL _ _ _ => ⟨"UNPACK.L", 0xFF0000DF, 0x00000011⟩
  | .unpackbD _ _ _ => ⟨"UNPACKB.D", 0xFF0000DF, 0x00000002⟩
  | .unpackbL _ _ _ => ⟨"UNPACKB.L", 0xFF0000DF, 0x00000012⟩
  | .pack _ _ _ => ⟨"PACK", 0xFF0000DF, 0x00000003⟩
  | .packb _ _ _ => ⟨"PACKB", 0xFF0000DF, 0x00000004⟩
  | .requant => ⟨"REQUANT", 0xFFFFFFFF, 0x00000005⟩

/-- The opcode map, in the order of R97. -/
def opcodeRows : List OpcodeRow :=
  [⟨"UNPACK.D", 0xFF0000DF, 0x00000001⟩, ⟨"UNPACK.L", 0xFF0000DF, 0x00000011⟩,
   ⟨"UNPACKB.D", 0xFF0000DF, 0x00000002⟩, ⟨"UNPACKB.L", 0xFF0000DF, 0x00000012⟩,
   ⟨"PACK", 0xFF0000DF, 0x00000003⟩, ⟨"PACKB", 0xFF0000DF, 0x00000004⟩,
   ⟨"REQUANT", 0xFFFFFFFF, 0x00000005⟩]

/-- A word spells a row's command when `(w & mask) = match` (R97). -/
abbrev OpcodeRow.spells (r : OpcodeRow) (w : Word) : Prop := w &&& r.mask = r.pattern

/-- The instruction the decoder reads from a word of `nbits` bits numbered as the opcode table numbers them. Every
command is one 32-bit word (R90), so a longer row has none. -/
def decodeTableWord (nbits w : Nat) : Option Instr :=
  if nbits ≤ 32 then (decode (BitVec.ofNat 32 (w % 2 ^ nbits))).toOption else none

end Sys2Proof
end

