-- ==== Sys2Proof/Machine/State.lean ====
section
/-! DEFINITION. The state of the NBE as plain data (`10_state.md`), what stands around it (the host's
transactions), the faults and refusals of a step, and the state after reset (`10_state.md` R40). -/

namespace Sys2Proof.Machine

/-- The flags of `STATUS` (R26); bits 31:3 read as 0, so they are not held. -/
structure Status where
  busy : Bool
  done : Bool
  err : Bool
deriving DecidableEq, Repr

/-- The operand registers (R21 to R24). -/
structure OperandRegs where
  srcAddr : Word
  srcLen : Word
  dstAddr : Word
  dstLen : Word
deriving DecidableEq, Repr

/-- The statistics registers (R33); each sum is held once and read as its `_LO` and `_HI` halves. -/
structure StatRegs where
  x : Word
  s1Re : Sum
  s1Im : Sum
  s2Re : Sum
  s2Im : Sum
deriving DecidableEq, Repr

/-- The phases of the sequencer (R30). -/
inductive Phase where
  | idle
  /-- Pack and unpack work units. -/
  | run
  /-- Requantize pass 1. -/
  | stat
  /-- Requantize pass 2. -/
  | quant
deriving DecidableEq, Repr

/-- The engine's position inside a command (R30): `unit` represents the set of performed units in sequential
mode, `done` holds it in parallel mode, rising (log 18). -/
structure Sequencer where
  phase : Phase
  unit : Nat
  done : List Nat
deriving DecidableEq, Repr

/-- The four hidden accumulators, unbounded integers (R31). -/
structure Accumulators where
  s1Re : Int
  s1Im : Int
  s2Re : Int
  s2Im : Int
deriving DecidableEq, Repr

/-- Data memory: the bytes written so far, addresses rising; an unlisted address holds no value
(`20_memory.md` R60, `10_state.md` R40; log 5). -/
abbrev Memory := List Host.Cell

/-- A range of data-memory addresses `[base, base + len)` (`20_memory.md` R60). -/
structure Region where
  base : Nat
  len : Nat
deriving DecidableEq, Repr

/-- The two ranges of a command (`44_dispatch.md` R203). -/
structure Buffers where
  src : Region
  dst : Region
deriving DecidableEq, Repr

/-- A command error (`60_exceptions.md` R250). -/
inductive CmdError where
  | invalidBitWidth | invalidBitOrder | sizeMismatch | invalidLength | addrFault | illegalCommand
deriving DecidableEq, Repr

/-- One event from outside the engine, in the one total order of R72: a host transaction, a turn given to the
engine, or reset (log 2, log 3). -/
inductive Input where
  /-- The host reads `bytes` bytes of register space at byte offset `off`. -/
  | regRead (off bytes : Nat)
  /-- The host writes `v` to `bytes` bytes of register space at byte offset `off`. -/
  | regWrite (off bytes : Nat) (v : Word)
  /-- The host reads `STATUS` until a read returns `DONE = 1` (`30_encoding.md` R108). -/
  | poll
  /-- The host reads a byte of data memory. -/
  | memRead (a : Nat)
  /-- The host writes a byte of data memory. -/
  | memWrite (a : Nat) (b : Byte)
  /-- The engine has the turn. -/
  | engine
  /-- Reset, from outside the NBE (`70_reset_and_hazards.md` R280). -/
  | reset
deriving DecidableEq, Repr

/-- What a host read returned. -/
inductive Reply where
  | reg (v : Word)
  | mem (b : Byte)
deriving DecidableEq, Repr

/-- The model's own record of the host's side; not state of the NBE. -/
structure HostSide where
  /-- The events still to come (log 2). -/
  inputs : List Input
  /-- What the host's reads returned, newest first (log 17). -/
  replies : List Reply
  /-- The buffers handed over at an accept and not yet handed back by a read of `DONE = 1` (R285; log 7). -/
  handed : List Buffers
  /-- The address ranges the platform backs with nothing (R68, U8; log 9). -/
  unbacked : List Region
deriving DecidableEq, Repr

/-- The free choice of the next unit in parallel mode (R207, U10; log 4): the choices listed come first, then
`Config.pickUnit` of the number of choices made. -/
structure Schedule where
  picks : List Nat
  count : Nat
deriving DecidableEq, Repr

/-- The state of the machine. -/
structure State where
  /-- `CMD` (R25). -/
  cmd : Word
  /-- `STATUS` (R26). -/
  status : Status
  /-- `ERRCODE` (R27). -/
  errcode : Word
  /-- `OUT_LEN` (R28). -/
  outLen : Word
  /-- `SRC_ADDR`, `SRC_LEN`, `DST_ADDR`, `DST_LEN` (R21 to R24). -/
  opnd : OperandRegs
  /-- `STAT_X`, `S1_*`, `S2_*` (R33). -/
  stats : StatRegs
  /-- Hidden: `phase`, `unit`, `done` (R30). -/
  seq : Sequencer
  /-- Hidden: `acc_*` (R31). -/
  acc : Accumulators
  /-- Data memory (R38, R60). -/
  mem : Memory
  /-- The model's own: the host's side. -/
  host : HostSide
  /-- The model's own: the free choice of units. -/
  sched : Schedule
deriving DecidableEq, Repr

/-- Why a step ends in a fault. -/
inductive Fault where
  /-- Raised by a host read or write at an address of 2^32 or more, which data memory does not have (R60).
  Safe: the spec gives such an access no meaning (log 12). -/
  | addressOutside
  /-- Raised by an engine step from a state no run from reset reaches: `BUSY = 1` with no command in `CMD`, or
  with a command that does not pass validation, or in the wrong phase. Safe: no run of the NBE gets there
  (R29, R30, R32; log 11). -/
  | strayState
deriving DecidableEq, Repr

/-- Why a step is refused. -/
inductive Refusal where
  /-- Raised only by an arm of the dispatch that has no meaning. Safe. -/
  | notModelled (mnemonic : String)
  /-- Raised by a host write to a handed-over source or destination, or a host read of a handed-over destination:
  a data race with no defined result (R285, U4). Safe (log 7). -/
  | bufferRace
  /-- Raised by a register access that is not a whole, 4-byte-aligned 32-bit access (R20, R66, U6). Safe (log 8). -/
  | registerAccessForm
  /-- Raised at the launch of a command whose ranges the platform does not back, and by a host access to such an
  address (R68, U8). Safe (log 9). -/
  | unbackedAddress
deriving DecidableEq, Repr

/-- The outcome of a meaning or of a step. -/
abbrev Out := Host.Outcome State Fault Refusal

/-- Right after reset (R40): every register 0, the sequencer idle; the accumulators, which R40 leaves unspecified,
at 0 (DESIGN CHOICE, log 6); memory with nothing listed (log 20); no event pending. -/
def State.reset : State where
  cmd := 0
  status := ⟨false, false, false⟩
  errcode := 0
  outLen := 0
  opnd := ⟨0, 0, 0, 0⟩
  stats := ⟨0, 0, 0, 0, 0⟩
  seq := ⟨.idle, 0, []⟩
  acc := ⟨0, 0, 0, 0⟩
  mem := []
  host := ⟨[], [], [], []⟩
  sched := ⟨[], 0⟩

end Sys2Proof.Machine
end

