-- ==== Sys2Proof/Machine/Flags.lean ====
section
/-! DEFINITION. The flags of the NBE, the three bits of `STATUS` (`10_state.md` R26, R32), the code an error
records (`60_exceptions.md` R250), and how each is set: at accept, at failure, at launch and at completion. -/

namespace Sys2Proof.Machine

/-- The word `STATUS` reads as: `BUSY` bit 0, `DONE` bit 1, `ERR` bit 2, bits 31:3 zero (R26). -/
def Status.word (f : Status) : Word :=
  BitVec.ofNat 32 (f.busy.toNat + 2 * f.done.toNat + 4 * f.err.toNat)

/-- The four legal combinations of the flags (R32): idle, running, success, failure. -/
abbrev Status.legal (f : Status) : Prop :=
  f = ⟨false, false, false⟩ ∨ f = ⟨true, false, false⟩ ∨ f = ⟨false, true, false⟩ ∨ f = ⟨false, true, true⟩

/-- Accept clears `DONE` and `ERR` (`44_dispatch.md` R200). -/
def Status.accepted (f : Status) : Status := { f with done := false, err := false }

/-- A command that passed validation is running (R200). -/
def Status.running (f : Status) : Status := { f with busy := true }

/-- Failure completion (`60_exceptions.md` R254). -/
def Status.failed : Status := ⟨false, true, true⟩

/-- Success completion (`44_dispatch.md` R209). -/
def Status.succeeded : Status := ⟨false, true, false⟩

/-- The code of an error in `ERRCODE` (R250); 0 is success and 7 is never produced. -/
def CmdError.code : CmdError → Nat
  | .invalidBitWidth => 1
  | .invalidBitOrder => 2
  | .sizeMismatch => 3
  | .invalidLength => 4
  | .addrFault => 5
  | .illegalCommand => 6

end Sys2Proof.Machine
end

