-- ==== Sys2Proof/Machine/Operands.lean ====
section
/-! DEFINITION. Operand forms: the catalog that resolves width and order (`40_catalog.md`), output lengths
and work-unit counts (`44_dispatch.md` R202, R204), ranges (`20_memory.md` R61) and the validation of a command in
its fixed order (`60_exceptions.md` R252). -/

namespace Sys2Proof

/-- `BW`, the bit width as a number (`40_catalog.md` R122). -/
def Width.bits : Width → Nat
  | .w1 => 1
  | .w2 => 2
  | .w4 => 4

/-- `widthIndex` (`40_catalog.md` R125). -/
def Width.index : Width → Nat
  | .w1 => 0
  | .w2 => 1
  | .w4 => 2

/-- `orderIndex` (`40_catalog.md` R125). -/
def Order.index : Order → Nat
  | .little => 0
  | .big => 1

/-- `BW` of a resolved codec. -/
def Codec.bw (c : Codec) : Nat := c.width.bits

/-- `E = 8 / BW`, the samples of one byte (R122). -/
def Codec.elements (c : Codec) : Nat := 8 / c.bw

/-- `FMASK = 2^BW - 1` (R122). -/
def Codec.fmask (c : Codec) : Nat := 2 ^ c.bw - 1

/-- The field of a packed byte that sample position `p` of a group lives in: `p` under Little, `E-1-p` under Big
(`20_memory.md` R64, `41_unpack.md` R141, `42_pack.md` R160). -/
def Codec.fieldAt (c : Codec) (p : Nat) : Nat :=
  match c.order with
  | .little => p
  | .big => c.elements - 1 - p

/-- The bit position of sample position `p` in its byte (`42_pack.md` R160). -/
def Codec.shift (c : Codec) (p : Nat) : Nat := c.fieldAt p * c.bw

end Sys2Proof

namespace Sys2Proof.Machine

/-- The width check (`40_catalog.md` R121). -/
def resolveWidth (nbits : Nat) : Except CmdError Width :=
  if nbits = 1 then .ok .w1
  else if nbits = 2 then .ok .w2
  else if nbits = 4 then .ok .w4
  else .error .invalidBitWidth

/-- The order check (`40_catalog.md` R123): `b` is Big, `l` is Little, 0x00 is the default Big. -/
def resolveOrder (ordtok : Nat) : Except CmdError Order :=
  if ordtok = 0x62 then .ok .big
  else if ordtok = 0x6C then .ok .little
  else if ordtok = 0x00 then .ok .big
  else .error .invalidBitOrder

/-- The catalog: the width is checked before the order (`40_catalog.md` R126). -/
def resolve (nbits ordtok : Nat) : Except CmdError Codec :=
  match resolveWidth nbits with
  | .error e => .error e
  | .ok w =>
    match resolveOrder ordtok with
    | .error e => .error e
    | .ok o => .ok ⟨w, o⟩

/-- `outlen`, an unbounded integer, for a source of `len` bytes, with `E = 8/NBITS` (`44_dispatch.md` R202). -/
def outLength (i : Instr) (len : Nat) : Nat :=
  match i with
  | .unpackD n _ _ => len * (8 / n)
  | .unpackL n _ _ => len * (8 / n)
  | .unpackbD n _ _ => len * (8 / n)
  | .unpackbL n _ _ => len * (8 / n)
  | .pack n _ _ => len / (8 / n)
  | .packb n _ _ => len / (8 / n)
  | .requant => len / 4

/-- The work units of phase `RUN`, and of `QUANT` for `REQUANT`, for a source of `len` bytes (`44_dispatch.md` R204). -/
def unitCount (i : Instr) (len : Nat) : Nat :=
  match i with
  | .unpackD _ _ _ => len
  | .unpackL _ _ _ => len
  | .unpackbD _ _ _ => len
  | .unpackbL _ _ _ => len
  | .pack n _ _ => len / (8 / n)
  | .packb n _ _ => len / (8 / n)
  | .requant => len / 4

/-- `X`, the complex samples of a requantize source and the work units of phase `STAT` (`45_requant.md` R222, R223). -/
def complexCount (len : Nat) : Nat := len / 2

/-- The range does not run past the top of data memory, computed without wrap-around (`20_memory.md` R61). -/
abbrev Region.legal (r : Region) : Prop := r.base + r.len ≤ 2 ^ 32

/-- The address is one of the range's. -/
abbrev Region.has (r : Region) (a : Nat) : Prop := r.base ≤ a ∧ a < r.base + r.len

/-- The two ranges share an address (`20_memory.md` R61). -/
abbrev Region.overlaps (r q : Region) : Prop :=
  0 < r.len ∧ 0 < q.len ∧ r.base < q.base + q.len ∧ q.base < r.base + r.len

/-- The source range: `(SRC_ADDR, SRC_LEN)`, the ragged tail of a pack included (`44_dispatch.md` R203). -/
def State.source (s : State) : Region := ⟨s.opnd.srcAddr.toNat, s.opnd.srcLen.toNat⟩

/-- The destination range: `(DST_ADDR, outlen)` (`44_dispatch.md` R203). -/
def State.destination (i : Instr) (s : State) : Region :=
  ⟨s.opnd.dstAddr.toNat, outLength i s.opnd.srcLen.toNat⟩

/-- The two ranges of command `i` over the operand registers of `s`. -/
def State.buffers (i : Instr) (s : State) : Buffers := ⟨s.source, s.destination i⟩

/-- Step 3 of validation: `AddrFault` when a range is not legal or the ranges overlap (`44_dispatch.md` R203). -/
def checkRanges (b : Buffers) : Except CmdError Buffers :=
  if b.src.legal ∧ b.dst.legal ∧ ¬ b.src.overlaps b.dst then .ok b else .error .addrFault

/-- Steps 2a, 2b and 3 of validation: an allocating pack or unpack (`60_exceptions.md` R252). -/
def checkAllocating (i : Instr) (nbits ordtok : Nat) (s : State) : Except CmdError Buffers :=
  match resolve nbits ordtok with
  | .error e => .error e
  | .ok _ => checkRanges (s.buffers i)

/-- Steps 2a, 2b, 2c and 3 of validation: a buffered pack or unpack, whose `DST_LEN` must be exactly `outlen`
(`44_dispatch.md` R205). -/
def checkBuffered (i : Instr) (nbits ordtok : Nat) (s : State) : Except CmdError Buffers :=
  match resolve nbits ordtok with
  | .error e => .error e
  | .ok _ =>
    if s.opnd.dstLen.toNat ≠ outLength i s.opnd.srcLen.toNat then .error .sizeMismatch
    else checkRanges (s.buffers i)

/-- Steps 2d and 3 of validation: `REQUANT` (`45_requant.md` R221). -/
def checkRequant (s : State) : Except CmdError Buffers :=
  if s.opnd.srcLen.toNat % 4 ≠ 0 ∨ s.opnd.srcLen.toNat = 0 then .error .invalidLength
  else checkRanges (s.buffers .requant)

/-- Validation of a decoded command: the first error in the order of R252, or the two ranges of a command that
passes. It reads the operand registers and nothing else. -/
def validate (i : Instr) (s : State) : Except CmdError Buffers :=
  match i with
  | .unpackD n o _ => checkAllocating i n o s
  | .unpackL n o _ => checkAllocating i n o s
  | .unpackbD n o _ => checkBuffered i n o s
  | .unpackbL n o _ => checkBuffered i n o s
  | .pack n o _ => checkAllocating i n o s
  | .packb n o _ => checkBuffered i n o s
  | .requant => checkRequant s

end Sys2Proof.Machine
end

