-- ==== Sys2Proof/Machine/Ops.lean ====
section
/-! DEFINITION. The named operations over data memory, registers and the sequencer: byte reads and writes
(`20_memory.md`), the register file (`10_state.md` R20), accept, failure (the NBE's exception entry), the return from
one, launch, the choice of the next unit and completion (`44_dispatch.md`, `60_exceptions.md`), and the step relation
that the six pack and unpack commands share. -/

namespace Sys2Proof.Machine

/-! ### Data memory -/

/-- The value written to an address, if one was. -/
def Memory.find? : Memory → Nat → Option Byte
  | [], _ => none
  | (k, v) :: m, a => if k = a then some v else Memory.find? m a

/-- `MemRead(a, 1)`: the byte written there, or the unknown byte of power-up (R11, U7; log 5). -/
def Memory.read (m : Memory) (a : Nat) : Byte := (m.find? a).getD (Config.powerUpByte a)

/-- `MemWrite(a, 1, b)`, keeping addresses rising (R11). -/
def Memory.write : Memory → Nat → Byte → Memory
  | [], a, b => [(a, b)]
  | (k, v) :: m, a, b =>
    if a < k then (a, b) :: (k, v) :: m
    else if a = k then (a, b) :: m
    else (k, v) :: Memory.write m a b

/-- Separate byte writes in ascending address order (`20_memory.md` R62). -/
def Memory.writeBytes (m : Memory) (a : Nat) : List Byte → Memory
  | [] => m
  | b :: bs => (m.write a b).writeBytes (a + 1) bs

/-- Separate byte reads in ascending address order (`20_memory.md` R62). -/
def Memory.readBytes (m : Memory) (a : Nat) : Nat → List Byte
  | 0 => []
  | n + 1 => m.read a :: m.readBytes (a + 1) n

/-- The canonical form: addresses strictly rising, each an address of data memory (R60). -/
abbrev Memory.wf (m : Memory) : Prop :=
  m.Pairwise (fun x y => x.1 < y.1) ∧ ∀ c ∈ m, c.1 < 2 ^ 32

/-- `in[i]` (R11): source byte `i`. -/
def State.srcByte (s : State) (i : Nat) : Byte := s.mem.read (s.opnd.srcAddr.toNat + i)

/-- `out[k] <- b0; out[k+1] <- b1; …` (R11). -/
def State.writeOut (s : State) (k : Nat) (bs : List Byte) : State :=
  { s with mem := s.mem.writeBytes (s.opnd.dstAddr.toNat + k) bs }

/-! ### The register file -/

/-- `_LO` of a sum: bits 31:0 (R33). -/
def sumLo (v : Sum) : Word := BitVec.ofNat 32 v.toNat

/-- `_HI` of a sum: bits 63:32 (R33). -/
def sumHi (v : Sum) : Word := BitVec.ofNat 32 (v.toNat / 2 ^ 32)

/-- The register at byte offset `off`; an offset that names no register reads 0 (R20). -/
def State.readReg (s : State) (off : Nat) : Word :=
  match off with
  | 0x00 => s.cmd
  | 0x04 => s.status.word
  | 0x08 => s.errcode
  | 0x0C => s.opnd.srcAddr
  | 0x10 => s.opnd.srcLen
  | 0x14 => s.opnd.dstAddr
  | 0x18 => s.opnd.dstLen
  | 0x1C => s.outLen
  | 0x20 => s.stats.x
  | 0x28 => sumLo s.stats.s1Re
  | 0x2C => sumHi s.stats.s1Re
  | 0x30 => sumLo s.stats.s1Im
  | 0x34 => sumHi s.stats.s1Im
  | 0x38 => sumLo s.stats.s2Re
  | 0x3C => sumHi s.stats.s2Re
  | 0x40 => sumLo s.stats.s2Im
  | 0x44 => sumHi s.stats.s2Im
  | _ => 0

/-- A host write to an operand register; a write to a read-only register or to an offset that names no register is
ignored (R29 (b)). `CMD`, whose write starts a command, is not written here. -/
def State.writeOperand (s : State) (off : Nat) (v : Word) : State :=
  match off with
  | 0x0C => { s with opnd := { s.opnd with srcAddr := v } }
  | 0x10 => { s with opnd := { s.opnd with srcLen := v } }
  | 0x14 => { s with opnd := { s.opnd with dstAddr := v } }
  | 0x18 => { s with opnd := { s.opnd with dstLen := v } }
  | _ => s

/-! ### Accept, failure, launch, completion -/

/-- The first lines of the accept step (`44_dispatch.md` R200): `CMD` takes the word, and `DONE`, `ERR`, `ERRCODE`,
`OUT_LEN` are cleared. It is also the one return from a failure (`60_exceptions.md` R257). -/
def State.beginAccept (w : Word) (s : State) : State :=
  { s with cmd := w, status := s.status.accepted, errcode := 0, outLen := 0 }

/-- Failure completion, the NBE's exception entry (`60_exceptions.md` R254). -/
def State.fail (e : CmdError) (s : State) : State :=
  { s with
    errcode := BitVec.ofNat 32 e.code
    status := Status.failed
    outLen := 0
    seq := { s.seq with phase := .idle } }

/-- Zeroed accumulators (`44_dispatch.md` R200, `10_state.md` R31). -/
def Accumulators.zero : Accumulators := ⟨0, 0, 0, 0⟩

/-- The last lines of the accept step for a command that passed validation (R200): `BUSY` is set, the phase starts with
no unit performed, a `REQUANT` zeroes the accumulators. The model records that the buffers are handed over (R285). -/
def State.launch (i : Instr) (b : Buffers) (s : State) : State :=
  { s with
    status := s.status.running
    seq := ⟨if i = .requant then .stat else .run, 0, []⟩
    acc := if i = .requant then Accumulators.zero else s.acc
    host := { s.host with handed := b :: s.host.handed } }

/-- Success completion (`44_dispatch.md` R209). -/
def State.complete (outlen : Nat) (s : State) : State :=
  { s with outLen := BitVec.ofNat 32 outlen, status := Status.succeeded, seq := ⟨.idle, 0, []⟩ }

/-- The platform backs every address of the range (R68, U8; log 9). -/
abbrev State.backs (s : State) (r : Region) : Prop := ∀ u ∈ s.host.unbacked, ¬ u.overlaps r

/-- The accept step of a command that decodes (R200): validation is part of it, so a failing command is never seen
running. A command that passes is refused at launch when the platform does not back its ranges (U8). -/
def accept (i : Instr) (s : State) : Out :=
  match validate i s with
  | .error e => .next ((s.beginAccept (encode i)).fail e)
  | .ok b =>
    if s.backs b.src ∧ s.backs b.dst then .next ((s.beginAccept (encode i)).launch i b)
    else .refused .unbackedAddress

/-- The accept step of a word that spells no command (`30_encoding.md` R98, R252 step 1). -/
def acceptIllegal (w : Word) (s : State) : State := (s.beginAccept w).fail .illegalCommand

/-! ### Work units -/

/-- The least number from `u` on that is not in `done`, looking at `fuel` numbers. -/
def firstUndone (done : List Nat) : Nat → Nat → Nat
  | 0, u => u
  | fuel + 1, u => if u ∈ done then firstUndone done fuel (u + 1) else u

/-- The free choice the engine makes next: the next of the listed ones, or an unknown one (log 4). -/
def Schedule.pick (c : Schedule) : Nat :=
  match c.picks with
  | p :: _ => p
  | [] => Config.pickUnit c.count

/-- The schedule after one free choice. -/
def Schedule.next (c : Schedule) : Schedule := ⟨c.picks.tail, c.count + 1⟩

/-- The unit of the parallel phase to perform next (`44_dispatch.md` R207): the picked one if it is enabled, that is a
unit not yet performed, else the first enabled one. Every enabled unit is the answer for some pick. -/
def chooseUnit (units pick : Nat) (done : List Nat) : Nat :=
  if pick < units ∧ pick ∉ done then pick else firstUndone done done.length 0

/-- The unit to perform next and the state once it is chosen, or none when every unit of the phase has been performed
(R206 in sequential mode, R207 in parallel mode). With one unit left there is no choice to make. -/
def nextUnit (mode : Mode) (units : Nat) (s : State) : Option (Nat × State) :=
  match mode with
  | .seq => if s.seq.unit < units then some (s.seq.unit, s) else none
  | .par =>
    if s.seq.done.length + 1 < units then
      some (chooseUnit units s.sched.pick s.seq.done, { s with sched := s.sched.next })
    else if s.seq.done.length < units then some (firstUndone s.seq.done s.seq.done.length 0, s)
    else none

/-- The rising list with `u` added. -/
def insertUnit (u : Nat) : List Nat → List Nat
  | [] => [u]
  | d :: ds => if u < d then u :: d :: ds else if u = d then d :: ds else d :: insertUnit u ds

/-- Unit `u` has been performed (R206: `unit <- unit + 1`; R207: `done <- done + {u}`). -/
def State.markDone (mode : Mode) (u : Nat) (s : State) : State :=
  match mode with
  | .seq => { s with seq := { s.seq with unit := s.seq.unit + 1 } }
  | .par => { s with seq := { s.seq with done := insertUnit u s.seq.done } }

/-- One engine step of a phase that ends the command: the next work unit, or the completion step when every unit has
been performed (R204, R209). -/
def unitOrComplete (mode : Mode) (units outlen : Nat) (work : Nat → State → State) (s : State) : Out :=
  match nextUnit mode units s with
  | some (u, t) => .next ((work u t).markDone mode u)
  | none => .next (s.complete outlen)

/-- The step relation of a pack or unpack command `i` (`44_dispatch.md`): accept when the engine is idle, else its next
engine step. The last arm is no state of a run (log 11, log 22). -/
def codecStep (i : Instr) (nbits ordtok : Nat) (mode : Mode) (work : Codec → Nat → State → State) (s : State) : Out :=
  if s.status.busy then
    match s.seq.phase, resolve nbits ordtok, validate i s with
    | .run, .ok c, .ok b =>
      unitOrComplete mode (unitCount i s.opnd.srcLen.toNat) b.dst.len (work c) s
    | _, _, _ => .fault .strayState
  else accept i s

end Sys2Proof.Machine
end

