-- ==== Sys2Proof/Machine/Lookup.lean ====
section
/-! DEFINITION. The lookup ROM (`43_lookup.md`), its work unit and the meanings of `UNPACK.L` and `UNPACKB.L`. -/

namespace Sys2Proof.Machine

/-- The size of the lookup ROM in bytes (R181). -/
def lutSize : Nat := 7168

/-- An entry of a table in closed form (R180): `(i >> (p*BW)) & FMASK` under Little, `(i >> ((E-1-p)*BW)) & FMASK` under
Big. -/
def tableEntry (c : Codec) (i p : Nat) : Byte :=
  match c.order with
  | .little => BitVec.ofNat 8 ((i >>> (p * c.bw)) &&& c.fmask)
  | .big => BitVec.ofNat 8 ((i >>> ((c.elements - 1 - p) * c.bw)) &&& c.fmask)

/-- `LUT_BASE(widthIndex, orderIndex)` (R181). -/
def lutBase (widthIndex orderIndex : Nat) : Nat :=
  match widthIndex, orderIndex with
  | 0, 0 => 0x0000
  | 0, _ => 0x0800
  | 1, 0 => 0x1000
  | 1, _ => 0x1400
  | _, 0 => 0x1800
  | _, _ => 0x1A00

/-- The table that holds a ROM address (R181). -/
def lutTable (a : Nat) : Codec :=
  if a < 0x0800 then ⟨.w1, .little⟩
  else if a < 0x1000 then ⟨.w1, .big⟩
  else if a < 0x1400 then ⟨.w2, .little⟩
  else if a < 0x1800 then ⟨.w2, .big⟩
  else if a < 0x1A00 then ⟨.w4, .little⟩
  else ⟨.w4, .big⟩

/-- The base of a codec's table. -/
def Codec.base (c : Codec) : Nat := lutBase c.width.index c.order.index

/-- `LutRead(a)`: the content of the lookup ROM at address `a` (R180, R181), row-major in its table. -/
def lutRead (a : Fin lutSize) : Byte :=
  let c := lutTable a.val
  let k := a.val - Codec.base c
  tableEntry c (k / c.elements) (k % c.elements)

/-- Every row address `LUT_BASE + b*E + p` with `p < E` is an address of the ROM (R184). -/
theorem lutAddress_lt (c : Codec) (b : Byte) (p : Fin c.elements) :
    Codec.base c + b.toNat * c.elements + p.val < lutSize := by
  obtain ⟨w, o⟩ := c
  have hb := b.isLt
  have hp := p.isLt
  cases w <;> cases o <;>
    simp only [Codec.base, lutBase, Width.index, Order.index, Codec.elements, Codec.bw, Width.bits, lutSize] at * <;>
    omega

/-- The ROM address of entry `p` of the row of byte `b` (R183). -/
def lutAddress (c : Codec) (b : Byte) (p : Fin c.elements) : Fin lutSize :=
  ⟨Codec.base c + b.toNat * c.elements + p.val, lutAddress_lt c b p⟩

/-- The row of byte `b`, read from the ROM in ascending address order (R183). -/
def lookupRow (c : Codec) (b : Byte) : List Byte :=
  (List.finRange c.elements).map fun p => lutRead (lutAddress c b p)

/-- Work unit `i` of a lookup unpack (R183). -/
def lookupUnit (c : Codec) (i : Nat) (s : State) : State :=
  s.writeOut (i * c.elements) (lookupRow c (s.srcByte i))

/-- `UNPACK.L nbits, ord, par` (R184). -/
def execUnpackL (nbits ordtok : Nat) (mode : Mode) (s : State) : Out :=
  codecStep (.unpackL nbits ordtok mode) nbits ordtok mode lookupUnit s

/-- `UNPACKB.L nbits, ord, par` (R185). -/
def execUnpackbL (nbits ordtok : Nat) (mode : Mode) (s : State) : Out :=
  codecStep (.unpackbL nbits ordtok mode) nbits ordtok mode lookupUnit s

end Sys2Proof.Machine
end

