-- ==== Sys2Proof/Machine/Pack.lean ====
section
/-! DEFINITION. Direct pack (`42_pack.md`): the per-group function, its work unit and the meanings of `PACK` and
`PACKB`. -/

namespace Sys2Proof.Machine

/-- The OR of the samples from position `j` on, each shifted to its place, over unbounded integers (R161). -/
def packFrom (c : Codec) : Nat → List Byte → Nat
  | _, [] => 0
  | j, b :: bs => (b.toNat <<< c.shift j) ||| packFrom c (j + 1) bs

/-- `pack_group(s, BW, order)`: the low 8 bits of the OR; the samples are not masked (R161, R162). -/
def packGroup (c : Codec) (samples : List Byte) : Byte := BitVec.ofNat 8 (packFrom c 0 samples)

/-- Work unit `g` of a pack (R167). -/
def packUnit (c : Codec) (g : Nat) (s : State) : State :=
  s.writeOut g [packGroup c (s.mem.readBytes (s.opnd.srcAddr.toNat + g * c.elements) c.elements)]

/-- `PACK nbits, ord, par` (R164). -/
def execPack (nbits ordtok : Nat) (mode : Mode) (s : State) : Out :=
  codecStep (.pack nbits ordtok mode) nbits ordtok mode packUnit s

/-- `PACKB nbits, ord, par` (R165). -/
def execPackb (nbits ordtok : Nat) (mode : Mode) (s : State) : Out :=
  codecStep (.packb nbits ordtok mode) nbits ordtok mode packUnit s

end Sys2Proof.Machine
end

