-- ==== Sys2Proof/Machine/Requant.lean ====
section
/-! DEFINITION. The requantizer (`45_requant.md`): statistics, the threshold ROM and the threshold rule, the work units
of its two passes and the meaning of `REQUANT`. -/

namespace Sys2Proof.Machine

/-- `to_s8(b)`, two's complement (`00_scope.md` R10; log 13). -/
def toS8 (b : Byte) : Int := if b.toNat < 128 then (b.toNat : Int) else (b.toNat : Int) - 256

/-- `A_DEN`, the common denominator of the threshold ROM (`10_state.md` R36). -/
def aDen : Int := 100000000

/-- `ThrRead(k)`: the threshold ROM (`10_state.md` R36). -/
def thrRead (k : Fin 3) : Int :=
  match k with
  | 0 => -98159883
  | 1 => 0
  | 2 => 98159883

/-- `V = X*S2 - S1*S1` (R225). -/
def spread (x : Nat) (s1 s2 : Int) : Int := x * s2 - s1 * s1

/-- `K = A_NUM^2 * V` with `A_NUM` from the threshold ROM (R226). -/
def levelK (v : Int) : Int := thrRead 2 * thrRead 2 * v

/-- `Q = (|v| * A_DEN * X)^2` (R226). -/
def levelQ (v : Int) (x : Nat) : Int := (v.natAbs * aDen * x) * (v.natAbs * aDen * x)

/-- The level of a component `v` of a channel of `x` samples with `V = spr` (R226). -/
def level (v : Int) (x : Nat) (spr : Int) : Nat :=
  if v < 0 then (if levelQ v x > levelK spr then 0 else 1)
  else (if levelQ v x < levelK spr then 2 else 3)

/-- The output byte of two complex samples (R227). -/
def quantByte (x : Nat) (vRe vIm : Int) (r1 i1 r2 i2 : Byte) : Byte :=
  BitVec.ofNat 8 (level (toS8 r1) x vRe * 64 + level (toS8 i1) x vIm * 16 + level (toS8 r2) x vRe * 4
    + level (toS8 i2) x vIm * 1)

/-- Work unit `i` of pass 1, phase `STAT` (R223). -/
def statUnit (i : Nat) (s : State) : State :=
  let r := toS8 (s.srcByte (2 * i))
  let m := toS8 (s.srcByte (2 * i + 1))
  { s with
    acc :=
      ⟨s.acc.s1Re + r, s.acc.s1Im + m, s.acc.s2Re + r * r, s.acc.s2Im + m * m⟩ }

/-- The end of pass 1 (R224): the accumulators are copied to the statistics registers, 64-bit two's complement, and
pass 2 starts. -/
def State.endStat (x : Nat) (s : State) : State :=
  { s with
    stats :=
      ⟨BitVec.ofNat 32 x, BitVec.ofInt 64 s.acc.s1Re, BitVec.ofInt 64 s.acc.s1Im, BitVec.ofInt 64 s.acc.s2Re,
        BitVec.ofInt 64 s.acc.s2Im⟩
    seq := ⟨.quant, 0, []⟩ }

/-- Work unit `k` of pass 2, phase `QUANT` (R227), with the sums of the command's own pass 1 (R33; log 19). -/
def quantUnit (x : Nat) (k : Nat) (s : State) : State :=
  s.writeOut k [quantByte x (spread x s.acc.s1Re s.acc.s2Re) (spread x s.acc.s1Im s.acc.s2Im)
    (s.srcByte (4 * k)) (s.srcByte (4 * k + 1)) (s.srcByte (4 * k + 2)) (s.srcByte (4 * k + 3))]

/-- The next engine step of phase `STAT`: a work unit of pass 1 or, when all are performed, the end of pass 1. -/
def statUnitOrEnd (x : Nat) (s : State) : Out :=
  match nextUnit .seq x s with
  | some (u, t) => .next ((statUnit u t).markDone .seq u)
  | none => .next (s.endStat x)

/-- `REQUANT` (R220): accept when the engine is idle, else its next engine step; both passes in ascending order (R206).
The last arm is no state of a run (log 11, log 22). -/
def execRequant (s : State) : Out :=
  if s.status.busy then
    match s.seq.phase, validate .requant s with
    | .stat, .ok _ => statUnitOrEnd (complexCount s.opnd.srcLen.toNat) s
    | .quant, .ok b =>
      unitOrComplete .seq (unitCount .requant s.opnd.srcLen.toNat) b.dst.len
        (quantUnit (complexCount s.opnd.srcLen.toNat)) s
    | _, _ => .fault .strayState
  else accept .requant s

end Sys2Proof.Machine
end

