-- ==== Sys2Proof/Machine/Unpack.lean ====
section
/-! DEFINITION. Direct unpack (`41_unpack.md`): the per-byte function, its work unit and the meanings of `UNPACK.D` and
`UNPACKB.D`. -/

namespace Sys2Proof.Machine

/-- `field(b, j, BW) = (b >> (j*BW)) & FMASK` (R140). -/
def Codec.field (c : Codec) (b : Byte) (j : Nat) : Nat := (b.toNat >>> (j * c.bw)) &&& c.fmask

/-- The samples of one byte in output order (R141): position `p` holds the field `p` under Little, `E-1-p` under Big. -/
def unpackByte (c : Codec) (b : Byte) : List Byte :=
  (List.range c.elements).map fun p => BitVec.ofNat 8 (Codec.field c b (c.fieldAt p))

/-- Work unit `i` of a direct unpack (R146). -/
def unpackUnit (c : Codec) (i : Nat) (s : State) : State :=
  s.writeOut (i * c.elements) (unpackByte c (s.srcByte i))

/-- `UNPACK.D nbits, ord, par` (R144). -/
def execUnpackD (nbits ordtok : Nat) (mode : Mode) (s : State) : Out :=
  codecStep (.unpackD nbits ordtok mode) nbits ordtok mode unpackUnit s

/-- `UNPACKB.D nbits, ord, par` (R145). -/
def execUnpackbD (nbits ordtok : Nat) (mode : Mode) (s : State) : Out :=
  codecStep (.unpackbD nbits ordtok mode) nbits ordtok mode unpackUnit s

end Sys2Proof.Machine
end

