-- ==== Sys2Proof/Machine/Dispatch.lean ====
section
/-! DEFINITION. The meaning of each command: its step relation, one arm per constructor. -/

namespace Sys2Proof.Machine

def exec (i : Instr) (s : State) : Host.Outcome State Fault Refusal :=
  match i with
  | .unpackD nbits ordtok mode => Sys2Proof.Machine.execUnpackD nbits ordtok mode s
  | .unpackL nbits ordtok mode => Sys2Proof.Machine.execUnpackL nbits ordtok mode s
  | .unpackbD nbits ordtok mode => Sys2Proof.Machine.execUnpackbD nbits ordtok mode s
  | .unpackbL nbits ordtok mode => Sys2Proof.Machine.execUnpackbL nbits ordtok mode s
  | .pack nbits ordtok mode => Sys2Proof.Machine.execPack nbits ordtok mode s
  | .packb nbits ordtok mode => Sys2Proof.Machine.execPackb nbits ordtok mode s
  | .requant => Sys2Proof.Machine.execRequant s

end Sys2Proof.Machine
end

