-- ==== Sys2Proof/Machine/HostPort.lean ====
section
/-! DEFINITION. What one event does: host register and memory transactions (`10_state.md` R29, `20_memory.md` R77), the
turn of the engine, and reset (`70_reset_and_hazards.md` R280). -/

namespace Sys2Proof.Machine

/-- The engine's turn: the next step of the command in `CMD` while one runs, nothing while the engine waits for the host
(R30, R288; log 16, log 22). -/
def engineTurn (s : State) : Out :=
  if s.status.busy then
    match decode s.cmd with
    | .ok i => exec i s
    | .error _ => .fault .strayState
  else .next s

/-- A host write of `w` to `CMD` while `BUSY = 0`: the accept step (`44_dispatch.md` R200). -/
def acceptWord (w : Word) (s : State) : Out :=
  match decode w with
  | .ok i => exec i s
  | .error _ => .next (acceptIllegal w s)

/-- A whole, 4-byte-aligned 32-bit access (R20, R66). -/
abbrev wholeAccess (off bytes : Nat) : Prop := bytes = 4 ∧ off % 4 = 0

/-- The host gets an answer (log 17). -/
def State.reply (r : Reply) (s : State) : State :=
  { s with host := { s.host with replies := r :: s.host.replies } }

/-- The buffers are the host's again once a read of `STATUS` has returned `DONE = 1` (R285; log 7). -/
def State.handBack (off : Nat) (s : State) : State :=
  if off = 0x04 ∧ s.status.done then { s with host := { s.host with handed := [] } } else s

/-- A host read of a register, always allowed (R29 (a)); it changes nothing of the NBE (R71). -/
def hostRegRead (off bytes : Nat) (s : State) : Out :=
  if wholeAccess off bytes then .next ((s.reply (.reg (s.readReg off))).handBack off)
  else .refused .registerAccessForm

/-- A host write to a register (R29): dropped while `BUSY = 1`; else `CMD` starts a command, an operand register takes the
value, and anything else is ignored. -/
def hostRegWrite (off bytes : Nat) (v : Word) (s : State) : Out :=
  if wholeAccess off bytes then
    if s.status.busy then .next s
    else if off = 0x00 then acceptWord v s
    else .next (s.writeOperand off v)
  else .refused .registerAccessForm

/-- The address is one the platform backs with nothing (R68, U8). -/
abbrev State.isUnbacked (s : State) (a : Nat) : Prop := ∃ u ∈ s.host.unbacked, u.has a

/-- A host read of the address would race (R285, U4): it is a byte of a handed-over destination. -/
abbrev State.readRaces (s : State) (a : Nat) : Prop := ∃ b ∈ s.host.handed, b.dst.has a

/-- A host write of the address would race (R285, U4): it is a byte of a handed-over source or destination. -/
abbrev State.writeRaces (s : State) (a : Nat) : Prop := ∃ b ∈ s.host.handed, b.src.has a ∨ b.dst.has a

/-- A host read of a byte of data memory (R60). -/
def hostMemRead (a : Nat) (s : State) : Out :=
  if 2 ^ 32 ≤ a then .fault .addressOutside
  else if s.isUnbacked a then .refused .unbackedAddress
  else if s.readRaces a then .refused .bufferRace
  else .next (s.reply (.mem (s.mem.read a)))

/-- A host write of a byte of data memory (R60). -/
def hostMemWrite (a : Nat) (b : Byte) (s : State) : Out :=
  if 2 ^ 32 ≤ a then .fault .addressOutside
  else if s.isUnbacked a then .refused .unbackedAddress
  else if s.writeRaces a then .refused .bufferRace
  else .next { s with mem := s.mem.write a b }

/-- A poll: one read of `STATUS`; when it returns `DONE = 0` the engine gets a turn and the poll goes on (R108, R288;
log 3). -/
def hostPoll (s : State) : Out :=
  let t := (s.reply (.reg (s.readReg 0x04))).handBack 0x04
  if s.status.done then .next t
  else .next { t with host := { t.host with inputs := .engine :: .poll :: t.host.inputs } }

/-- Reset (R280, R281): every register and all hidden state at the reset value, data memory not touched. What is not the
NBE's stays too, but no buffer is handed over any more (U5). -/
def State.afterReset (s : State) : State :=
  { State.reset with mem := s.mem, host := { s.host with handed := [] }, sched := s.sched }

/-- What one event does. -/
def event (ev : Input) (s : State) : Out :=
  match ev with
  | .regRead off bytes => hostRegRead off bytes s
  | .regWrite off bytes v => hostRegWrite off bytes v s
  | .poll => hostPoll s
  | .memRead a => hostMemRead a s
  | .memWrite a b => hostMemWrite a b s
  | .engine => engineTurn s
  | .reset => .next s.afterReset

/-- The state with its first event taken away. -/
def State.withInputs (s : State) (l : List Input) : State := { s with host := { s.host with inputs := l } }

/-- The state with the host about to write `w` to `CMD` and the engine waiting for it (log 2, log 21). -/
def State.withCommand (s : State) (w : Word) : State :=
  { s with
    status := { s.status with busy := false }
    seq := ⟨.idle, 0, []⟩
    host := { s.host with inputs := .regWrite 0x00 4 w :: s.host.inputs } }

end Sys2Proof.Machine
end

