-- ==== Sys2Proof/Machine/Step.lean ====
section
/-! DEFINITION. One step of the machine: the next event, or the engine's turn when no event is pending. -/

namespace Sys2Proof.Machine

/-- One step (`00_scope.md` R6, R7; log 1, log 3). -/
def step (s : State) : Host.Outcome State Fault Refusal :=
  match s.host.inputs with
  | [] => engineTurn s
  | ev :: rest => event ev (s.withInputs rest)

/-- The state in which the next step is the host's write of the word to `CMD`, which is where the NBE takes its commands
from (`20_memory.md` R75; log 2). -/
def State.withFetchWord (s : State) (nbits w : Nat) : State :=
  s.withCommand (BitVec.ofNat 32 (w % 2 ^ nbits))

end Sys2Proof.Machine
end

