-- ==== Sys2Proof/Machine/HostProgram.lean ====
section
/-! DEFINITION. The notation of commands and host programs (`30_encoding.md` R108) and the document's five calls
(`30_encoding.md` R109), as data that expand to the events a step reads. -/

namespace Sys2Proof.Machine

/-- The named registers (`10_state.md` R20). -/
inductive Reg where
  | CMD | STATUS | ERRCODE | SRC_ADDR | SRC_LEN | DST_ADDR | DST_LEN | OUT_LEN | STAT_X
  | S1_RE_LO | S1_RE_HI | S1_IM_LO | S1_IM_HI | S2_RE_LO | S2_RE_HI | S2_IM_LO | S2_IM_HI
deriving DecidableEq, Repr

/-- The byte offset of a register (R20). -/
def Reg.offset : Reg → Nat
  | .CMD => 0x00
  | .STATUS => 0x04
  | .ERRCODE => 0x08
  | .SRC_ADDR => 0x0C
  | .SRC_LEN => 0x10
  | .DST_ADDR => 0x14
  | .DST_LEN => 0x18
  | .OUT_LEN => 0x1C
  | .STAT_X => 0x20
  | .S1_RE_LO => 0x28
  | .S1_RE_HI => 0x2C
  | .S1_IM_LO => 0x30
  | .S1_IM_HI => 0x34
  | .S2_RE_LO => 0x38
  | .S2_RE_HI => 0x3C
  | .S2_IM_LO => 0x40
  | .S2_IM_HI => 0x44

/-- A statement of a host program (R108). -/
inductive HostStmt where
  /-- `MEMW addr, b0 b1 ...` -/
  | memw (addr : Nat) (bytes : List Byte)
  /-- `WR REG, value` -/
  | wr (reg : Reg) (value : Word)
  /-- `CMDW <command>` -/
  | cmdw (command : Instr)
  /-- `POLL` -/
  | poll
  /-- `RD REG` -/
  | rd (reg : Reg)
  /-- `MEMR addr, n` -/
  | memr (addr n : Nat)
deriving DecidableEq, Repr

/-- Byte writes at `addr, addr+1, …`. -/
def memwEvents (addr : Nat) : List Byte → List Input
  | [] => []
  | b :: bs => .memWrite addr b :: memwEvents (addr + 1) bs

/-- Byte reads at `addr, addr+1, …`. -/
def memrEvents (addr : Nat) : Nat → List Input
  | 0 => []
  | n + 1 => .memRead addr :: memrEvents (addr + 1) n

/-- The events of a statement (R108). -/
def HostStmt.events : HostStmt → List Input
  | .memw a bs => memwEvents a bs
  | .wr r v => [.regWrite r.offset 4 v]
  | .cmdw i => [.regWrite Reg.CMD.offset 4 (encode i)]
  | .poll => [.poll]
  | .rd r => [.regRead r.offset 4]
  | .memr a n => memrEvents a n

/-- The events of a host program. -/
def programEvents (p : List HostStmt) : List Input := p.flatMap HostStmt.events

/-- The state with a host program to come. -/
def State.withProgram (s : State) (p : List HostStmt) : State := s.withInputs (programEvents p)

/-! The five calls take lengths and widths as plain numbers. R109 gives no expansion for an argument that does not fit its
place; what these definitions make of one is the model's choice (DESIGN CHOICE, log 23). -/

/-- `unpack(in, nbits, bitorder, parallel)` (R109), with either datapath's command; arguments that do not fit: log 23. -/
def callUnpack (lookup : Bool) (src : Word) (len : Nat) (dst : Word) (nbits ordtok : Nat) (mode : Mode) :
    List HostStmt :=
  [.wr .SRC_ADDR src, .wr .SRC_LEN (BitVec.ofNat 32 len), .wr .DST_ADDR dst,
   .cmdw (if lookup then .unpackL nbits ordtok mode else .unpackD nbits ordtok mode),
   .poll, .rd .ERRCODE, .rd .OUT_LEN]

/-- `unpack_buffered(in, out, nbits, bitorder, parallel)` (R109); arguments that do not fit: log 23. -/
def callUnpackBuffered (lookup : Bool) (src : Word) (len : Nat) (dst : Word) (dstLen nbits ordtok : Nat)
    (mode : Mode) : List HostStmt :=
  [.wr .SRC_ADDR src, .wr .SRC_LEN (BitVec.ofNat 32 len), .wr .DST_ADDR dst, .wr .DST_LEN (BitVec.ofNat 32 dstLen),
   .cmdw (if lookup then .unpackbL nbits ordtok mode else .unpackbD nbits ordtok mode),
   .poll, .rd .ERRCODE, .rd .OUT_LEN]

/-- `pack(in, nbits, bitorder, parallel)` (R109); arguments that do not fit: log 23. -/
def callPack (src : Word) (len : Nat) (dst : Word) (nbits ordtok : Nat) (mode : Mode) : List HostStmt :=
  [.wr .SRC_ADDR src, .wr .SRC_LEN (BitVec.ofNat 32 len), .wr .DST_ADDR dst, .cmdw (.pack nbits ordtok mode),
   .poll, .rd .ERRCODE, .rd .OUT_LEN]

/-- `pack_buffered(in, out, nbits, bitorder, parallel)` (R109); arguments that do not fit: log 23. -/
def callPackBuffered (src : Word) (len : Nat) (dst : Word) (dstLen nbits ordtok : Nat) (mode : Mode) :
    List HostStmt :=
  [.wr .SRC_ADDR src, .wr .SRC_LEN (BitVec.ofNat 32 len), .wr .DST_ADDR dst, .wr .DST_LEN (BitVec.ofNat 32 dstLen),
   .cmdw (.packb nbits ordtok mode), .poll, .rd .ERRCODE, .rd .OUT_LEN]

/-- `requantize_complex8_to_2bit(in)` (R109); a length that does not fit: log 23. -/
def callRequantize (src : Word) (len : Nat) (dst : Word) : List HostStmt :=
  [.wr .SRC_ADDR src, .wr .SRC_LEN (BitVec.ofNat 32 len), .wr .DST_ADDR dst, .cmdw .requant,
   .poll, .rd .ERRCODE, .rd .OUT_LEN]

/-- The order operand as R108 writes it: `-` for unspecified, else the quoted character. -/
def ordText (ordtok : Nat) : String :=
  if ordtok = 0 then "-" else "'" ++ String.singleton (Char.ofNat ordtok) ++ "'"

/-- The mode operand as R108 writes it. -/
def Mode.text : Mode → String
  | .seq => "seq"
  | .par => "par"

/-- The operands of the six pack and unpack commands. -/
def operandText (nbits ordtok : Nat) (mode : Mode) : String :=
  " " ++ toString nbits ++ ", " ++ ordText ordtok ++ ", " ++ Mode.text mode

/-- The assembly text of a command (R108). -/
def asmText (i : Instr) : String :=
  match i with
  | .unpackD n o m => i.row.mnemonic ++ operandText n o m
  | .unpackL n o m => i.row.mnemonic ++ operandText n o m
  | .unpackbD n o m => i.row.mnemonic ++ operandText n o m
  | .unpackbL n o m => i.row.mnemonic ++ operandText n o m
  | .pack n o m => i.row.mnemonic ++ operandText n o m
  | .packb n o m => i.row.mnemonic ++ operandText n o m
  | .requant => i.row.mnemonic

end Sys2Proof.Machine
end

