-- ==== Sys2Proof/Machine/Whole.lean ====
section
/-! DEFINITION. A whole command as one atomic transition, the functions of its rule over the source bytes
(`44_dispatch.md` R208): the destination bytes of each command and the state at its completion. The step relation does
not use these definitions; that it agrees with them is stated, not assumed. -/

namespace Sys2Proof.Machine

/-- The sum of `f 0 … f (n-1)`. -/
def sumUpTo : Nat → (Nat → Int) → Int
  | 0, _ => 0
  | n + 1, f => sumUpTo n f + f n

/-- The sums of pass 1 over the first `n` complex samples of a source (`45_requant.md` R223, R224). -/
def pass1 (src : Nat → Byte) (n : Nat) : Accumulators where
  s1Re := sumUpTo n fun i => toS8 (src (2 * i))
  s1Im := sumUpTo n fun i => toS8 (src (2 * i + 1))
  s2Re := sumUpTo n fun i => toS8 (src (2 * i)) * toS8 (src (2 * i))
  s2Im := sumUpTo n fun i => toS8 (src (2 * i + 1)) * toS8 (src (2 * i + 1))

/-- The statistics registers for `x` complex samples with the given sums (R224, R33). -/
def StatRegs.ofSums (x : Nat) (a : Accumulators) : StatRegs where
  x := BitVec.ofNat 32 x
  s1Re := BitVec.ofInt 64 a.s1Re
  s1Im := BitVec.ofInt 64 a.s1Im
  s2Re := BitVec.ofInt 64 a.s2Re
  s2Im := BitVec.ofInt 64 a.s2Im

/-- Destination byte `k` of an unpack of the source (`41_unpack.md` R141, R144). -/
def unpackedAt (c : Codec) (src : Nat → Byte) (k : Nat) : Byte :=
  BitVec.ofNat 8 (Codec.field c (src (k / c.elements)) (c.fieldAt (k % c.elements)))

/-- Destination byte `g` of a pack of the source (`42_pack.md` R161, R164). -/
def packedAt (c : Codec) (src : Nat → Byte) (g : Nat) : Byte :=
  packGroup c ((List.range c.elements).map fun j => src (g * c.elements + j))

/-- Destination byte `k` of a requantize of `len` source bytes (`45_requant.md` R227). -/
def requantizedAt (src : Nat → Byte) (len k : Nat) : Byte :=
  let x := complexCount len
  let a := pass1 src x
  quantByte x (spread x a.s1Re a.s2Re) (spread x a.s1Im a.s2Im) (src (4 * k)) (src (4 * k + 1)) (src (4 * k + 2))
    (src (4 * k + 3))

/-- The state at the completion of command `i`, accepted in state `s` with buffers `b`, whose destination bytes are
`out 0, out 1, …` (R200, R209). -/
def State.completed (i : Instr) (b : Buffers) (out : Nat → Byte) (s : State) : State :=
  { s with
    cmd := encode i
    status := ⟨false, true, false⟩
    errcode := 0
    outLen := BitVec.ofNat 32 b.dst.len
    seq := ⟨.idle, 0, []⟩
    mem := s.mem.writeBytes b.dst.base ((List.range b.dst.len).map out)
    host := { s.host with handed := b :: s.host.handed } }

/-- The same for `REQUANT`, which also leaves its sums in the accumulators and in the statistics registers (R224). -/
def State.requantized (b : Buffers) (s : State) : State :=
  let len := s.opnd.srcLen.toNat
  { s.completed .requant b (requantizedAt s.srcByte len) with
    acc := pass1 s.srcByte (complexCount len)
    stats := StatRegs.ofSums (complexCount len) (pass1 s.srcByte (complexCount len)) }

end Sys2Proof.Machine
end

