-- ==== Sys2Proof/Safety.lean ====
section
/-! DEFINITION. What holds of every reachable state, in the terms statements use: the invariant of the machine
(`10_state.md` R30 to R32, `44_dispatch.md` R204) and the conditions under which a command launches or runs. -/

namespace Sys2Proof.Machine

/-- The mode a command runs in; `REQUANT` is always sequential (`44_dispatch.md` R206). -/
def modeOfInstr : Instr → Mode
  | .unpackD _ _ m => m
  | .unpackL _ _ m => m
  | .unpackbD _ _ m => m
  | .unpackbL _ _ m => m
  | .pack _ _ m => m
  | .packb _ _ m => m
  | .requant => .seq

/-- The performed units are an initial segment in sequential mode, a set of units of the phase in parallel mode (R30). -/
def Sequencer.within (mode : Mode) (units : Nat) (q : Sequencer) : Prop :=
  match mode with
  | .seq => q.unit ≤ units ∧ q.done = []
  | .par => q.unit = 0 ∧ q.done.Pairwise (· < ·) ∧ ∀ u ∈ q.done, u < units

/-- The hidden state fits a running command `i`: a pack or unpack is in phase `RUN`; a `REQUANT` in phase `STAT` has in its
accumulators the sums of the units performed, and in phase `QUANT` the sums of pass 1, which the statistics registers
hold too (R30, R31, R223, R224). -/
def State.fits (i : Instr) (s : State) : Prop :=
  let len := s.opnd.srcLen.toNat
  if i = .requant then
    (s.seq.phase = .stat ∧ s.seq.within .seq (complexCount len) ∧ s.acc = pass1 s.srcByte s.seq.unit) ∨
    (s.seq.phase = .quant ∧ s.seq.within .seq (unitCount .requant len) ∧
      s.acc = pass1 s.srcByte (complexCount len) ∧ s.stats = StatRegs.ofSums (complexCount len) s.acc)
  else s.seq.phase = .run ∧ s.seq.within (modeOfInstr i) (unitCount i len)

/-- The invariant of the machine: it holds at reset and every step keeps it. -/
structure State.Inv (s : State) : Prop where
  /-- Data memory keeps its canonical form. -/
  memWf : s.mem.wf
  /-- Only the four combinations of R32 exist. -/
  statusLegal : s.status.legal
  /-- `phase = IDLE` exactly when `BUSY = 0` (R30). -/
  idlePhase : s.seq.phase = .idle ↔ s.status.busy = false
  /-- No unit is recorded while the sequencer is idle (R40, R209). -/
  idleUnits : s.seq.phase = .idle → s.seq.unit = 0 ∧ s.seq.done = []
  /-- Code 7 is never produced (R250). -/
  codeRange : s.errcode.toNat ≤ 6
  /-- `ERR` is 1 exactly when `ERRCODE` is not 0 (R26, R27). -/
  errCode : s.status.err = true ↔ s.errcode ≠ 0
  /-- `OUT_LEN` is not 0 only after a success (R28). -/
  outLenSuccess : s.outLen ≠ 0 → s.status = Status.succeeded
  /-- While `BUSY = 1`, `CMD` holds a command that passes validation over the operand registers, its buffers are handed
  over, and the hidden state fits it (R29, R200). -/
  running : s.status.busy = true → ∃ i b, decode s.cmd = .ok i ∧ validate i s = .ok b ∧ b ∈ s.host.handed ∧ s.fits i

/-- The engine waits and command `i` passes validation with buffers `b`, which the platform backs: an accept of `i` launches
it (R200). -/
def State.launches (i : Instr) (b : Buffers) (s : State) : Prop :=
  s.status.busy = false ∧ validate i s = .ok b ∧ s.backs b.src ∧ s.backs b.dst

/-- Command `i` is in phase `p` with buffers `b` over the operand registers. -/
def State.inPhase (i : Instr) (p : Phase) (b : Buffers) (s : State) : Prop :=
  s.status.busy = true ∧ s.seq.phase = p ∧ validate i s = .ok b

/-- The engine steps of a running command from launch to completion (`70_reset_and_hazards.md` R288). -/
def engineSteps (i : Instr) (len : Nat) : Nat :=
  if i = .requant then complexCount len + 1 + unitCount i len + 1 else unitCount i len + 1

/-- A unit of the phase has not been performed yet (`44_dispatch.md` R206, R207). -/
def State.unitLeft (mode : Mode) (units : Nat) (s : State) : Prop :=
  s.seq.within mode units ∧
    match mode with
    | .seq => s.seq.unit < units
    | .par => ∃ u < units, u ∉ s.seq.done

/-- Every unit of the phase has been performed (`44_dispatch.md` R209). -/
def State.allPerformed (mode : Mode) (units : Nat) (s : State) : Prop :=
  s.seq.within mode units ∧
    match mode with
    | .seq => s.seq.unit = units
    | .par => ∀ u < units, u ∈ s.seq.done

/-- `t` is `s` with unit `u` recorded as performed and nothing else changed but data memory and, in parallel mode, the
free choices: the next unit in ascending order (R206), or one not performed before (R207). -/
def State.recordsUnit (mode : Mode) (units u : Nat) (s t : State) : Prop :=
  u < units ∧
    match mode with
    | .seq => u = s.seq.unit ∧ t = { s with mem := t.mem, seq := { s.seq with unit := s.seq.unit + 1 } }
    | .par =>
      u ∉ s.seq.done ∧ (∀ v, v ∈ t.seq.done ↔ v = u ∨ v ∈ s.seq.done) ∧
        t = { s with mem := t.mem, seq := { s.seq with done := t.seq.done }, sched := t.sched }

/-- Every byte outside `[base, base + len)` reads as before. -/
def sameOutside (base len : Nat) (m m' : Memory) : Prop :=
  ∀ a, ¬ (base ≤ a ∧ a < base + len) → m'.read a = m.read a

/-- An outcome with the content of `CMD` put out of sight. -/
def eraseCmd (r : Out) : Out :=
  match r with
  | .next t => .next { t with cmd := 0 }
  | .fault f => .fault f
  | .refused f => .refused f

/-- `k` steps of the machine. -/
abbrev runSteps (k : Nat) (s : State) : Out := Host.Core.run Sys2Proof.core k s

/-- An outcome followed by `k` steps. -/
def thenSteps (r : Out) (k : Nat) : Out :=
  match r with
  | .next t => runSteps k t
  | .fault f => .fault f
  | .refused f => .refused f

end Sys2Proof.Machine
end

