-- ==== Sys2Proof/Certificates/Slice0/Obligations.lean ====
section
/-! DEFINITION. The statements for the provers, from the numbered rules of spec/. A premise `launches` says, beside the
rules' own conditions, that the platform backs the two ranges (`93_implementation_defined.md` U8; log 9). -/

open Sys2Proof Sys2Proof.Machine

/-! ### Encoding -/

/-- The command words of `95_test_vectors.md` Part B, each decoded to the command it stands for. -/
def Obligations.SpecCommandWordsDecode : Prop :=
  decode 0x00620201 = .ok (.unpackD 2 0x62 .seq) ∧ decode 0x00000201 = .ok (.unpackD 2 0 .seq) ∧
  decode 0x00620231 = .ok (.unpackL 2 0x62 .par) ∧ decode 0x006C0131 = .ok (.unpackL 1 0x6C .par) ∧
  decode 0x006C0402 = .ok (.unpackbD 4 0x6C .seq) ∧ decode 0x00620212 = .ok (.unpackbL 2 0x62 .seq) ∧
  decode 0x00620223 = .ok (.pack 2 0x62 .par) ∧ decode 0x00000404 = .ok (.packb 4 0 .seq) ∧
  decode 0x00000005 = .ok .requant

/-- Decode undoes encode: every well-formed instruction, with every operand at every value of its field. -/
def Obligations.DecodeOfEncode : Prop :=
  ∀ i : Instr, i.WellFormed → decode (encode i) = .ok i

/-- Encode undoes decode: a word that decodes is the one word of its instruction, so no bit of a legal word is dropped. -/
def Obligations.EncodeOfDecode : Prop :=
  ∀ (w : Word) (i : Instr), decode w = .ok i → encode i = w ∧ i.WellFormed

/-- R99: the decoded command is that of the one row of the opcode map whose mask and match the word satisfies, with its free
fields read from the word; when no row matches, the word is illegal. -/
def Obligations.DecodeFindsTheUniqueRow : Prop :=
  ∀ w : Word,
    (∀ i, decode w = .ok i →
      i.row ∈ opcodeRows ∧ i.row.spells w ∧ (∀ r ∈ opcodeRows, r.spells w → r = i.row) ∧
      ∀ n o m, i ∈ [Instr.unpackD n o m, .unpackL n o m, .unpackbD n o m, .unpackbL n o m, .pack n o m, .packb n o m] →
        n = slice w.toNat 15 8 ∧ o = slice w.toNat 23 16 ∧ m = modeOf (slice w.toNat 5 5)) ∧
    ((∀ r ∈ opcodeRows, ¬ r.spells w) ↔ ∃ e, decode w = .error e)

/-- R98: which words are illegal, and that writing one to `CMD` while `BUSY = 0` is an accept that fails at once with code 6
and touches no data memory. -/
def Obligations.IllegalWordsFailWithIllegalCommand : Prop :=
  (∀ w : Word,
    (∃ e, decode w = .error e) ↔
      (slice w.toNat 3 0 = 0 ∨ 6 ≤ slice w.toNat 3 0) ∨
      (slice w.toNat 7 6 ≠ 0 ∨ slice w.toNat 31 24 ≠ 0) ∨
      ((slice w.toNat 3 0 = 3 ∨ slice w.toNat 3 0 = 4) ∧ slice w.toNat 4 4 = 1) ∨
      (slice w.toNat 3 0 = 5 ∧
        (slice w.toNat 4 4 ≠ 0 ∨ slice w.toNat 5 5 ≠ 0 ∨ slice w.toNat 15 8 ≠ 0 ∨ slice w.toNat 23 16 ≠ 0))) ∧
  (∀ (w : Word) (e : DecodeError) (s : State) (rest : List Input),
    decode w = .error e → s.status.busy = false → s.host.inputs = .regWrite 0x00 4 w :: rest →
    step s = .next { s with
      cmd := w, status := ⟨false, true, true⟩, errcode := 6, outLen := 0
      seq := { s.seq with phase := .idle }, host := { s.host with inputs := rest } })

/-! ### Steps and dispatch -/

/-- A host write of a command's word to `CMD` while the engine waits runs that command; step adds only that the event is
taken from the list (log 2). -/
def Obligations.StepAcceptsTheWrittenCommand : Prop :=
  ∀ (s : State) (w : Word) (i : Instr) (rest : List Input),
    s.status.busy = false → s.host.inputs = .regWrite 0x00 4 w :: rest → decode w = .ok i →
    step s = exec i { s with host := { s.host with inputs := rest } }

/-- While a command runs, a step in which no event is pending, or in which the engine has the turn, is the next engine step of
the command in `CMD` (log 1, log 3). -/
def Obligations.StepRunsTheCommandInCmd : Prop :=
  ∀ (s : State) (i : Instr),
    s.status.busy = true → decode s.cmd = .ok i →
    (s.host.inputs = [] → step s = exec i s) ∧
    (∀ rest, s.host.inputs = .engine :: rest → step s = exec i { s with host := { s.host with inputs := rest } })

/-- While `BUSY = 0` the engine waits for the host: its turn changes nothing (log 16). -/
def Obligations.IdleEngineWaits : Prop :=
  ∀ s : State, s.status.busy = false → s.host.inputs = [] → step s = .next s

/-- R200: the accept step, for a command that fails validation, for a pack or unpack that passes, for a `REQUANT` that
passes; and a `CMD` write while `BUSY = 1` is dropped. That the ranges are backed and that buffers are recorded as handed over
are the model's (log 9, log 7). -/
def Obligations.AcceptStep : Prop :=
  (∀ (i : Instr) (e : CmdError) (s : State), s.status.busy = false → validate i s = .error e →
    exec i s = .next { s with
      cmd := encode i, status := ⟨false, true, true⟩, errcode := BitVec.ofNat 32 e.code, outLen := 0
      seq := { s.seq with phase := .idle } }) ∧
  (∀ (i : Instr) (b : Buffers) (s : State), i ≠ .requant → s.launches i b →
    exec i s = .next { s with
      cmd := encode i, status := ⟨true, false, false⟩, errcode := 0, outLen := 0
      seq := ⟨.run, 0, []⟩, host := { s.host with handed := b :: s.host.handed } }) ∧
  (∀ (b : Buffers) (s : State), s.launches .requant b →
    exec .requant s = .next { s with
      cmd := 0x00000005, status := ⟨true, false, false⟩, errcode := 0, outLen := 0
      seq := ⟨.stat, 0, []⟩, acc := ⟨0, 0, 0, 0⟩, host := { s.host with handed := b :: s.host.handed } }) ∧
  (∀ (s : State) (w : Word) (rest : List Input),
    s.status.busy = true → s.host.inputs = .regWrite 0x00 4 w :: rest →
    step s = .next { s with host := { s.host with inputs := rest } })

/-- The launch of a command that passes validation is refused exactly when the platform does not back one of its ranges
(U8, log 9). -/
def Obligations.LaunchRefusedOnlyForUnbackedRanges : Prop :=
  ∀ (i : Instr) (b : Buffers) (s : State), s.status.busy = false → validate i s = .ok b →
    (exec i s = .refused .unbackedAddress ↔
      ∃ u ∈ s.host.unbacked, u.overlaps b.src ∨ u.overlaps b.dst)

/-- R254: what a failure does, for every word whose command fails validation and for every illegal word, and that nothing else
changes: operand registers, statistics registers, hidden accumulators, the record of units and every byte of data memory are as before. -/
def Obligations.FailureCompletion : Prop :=
  ∀ (w : Word) (e : CmdError) (s : State) (rest : List Input),
    s.status.busy = false → s.host.inputs = .regWrite 0x00 4 w :: rest →
    (((∃ d, decode w = .error d) ∧ e = .illegalCommand) ∨ ∃ i, decode w = .ok i ∧ validate i s = .error e) →
    ∃ t, step s = .next t ∧
      t.errcode = BitVec.ofNat 32 e.code ∧ t.status = ⟨false, true, true⟩ ∧ t.outLen = 0 ∧ t.seq = { s.seq with phase := .idle } ∧
      t.cmd = w ∧ t.opnd = s.opnd ∧ t.stats = s.stats ∧ t.acc = s.acc ∧ t.mem = s.mem ∧
      t.host = { s.host with inputs := rest } ∧ t.sched = s.sched

/-- No error latches: what an accept does depends on nothing an earlier command's outcome left in `CMD`, `DONE`, `ERR`,
`ERRCODE` or `OUT_LEN`. -/
def Obligations.NoErrorLatches : Prop :=
  ∀ (i : Instr) (s : State) (w e l : Word) (d r : Bool), s.status.busy = false →
    exec i { s with cmd := w, status := ⟨false, d, r⟩, errcode := e, outLen := l } = exec i s

/-! ### Catalog and validation -/

/-- R126, R122: what the catalog resolves, and which error it raises first. -/
def Obligations.CatalogResolution : Prop :=
  ∀ n o : Nat,
    (n ≠ 1 ∧ n ≠ 2 ∧ n ≠ 4 → resolve n o = .error .invalidBitWidth) ∧
    ((n = 1 ∨ n = 2 ∨ n = 4) → o ≠ 0x62 ∧ o ≠ 0x6C ∧ o ≠ 0x00 → resolve n o = .error .invalidBitOrder) ∧
    ((n = 1 ∨ n = 2 ∨ n = 4) → (o = 0x62 ∨ o = 0x6C ∨ o = 0x00) →
      ∃ c, resolve n o = .ok c ∧ c.bw = n ∧ c.elements = 8 / n ∧ c.fmask = 2 ^ n - 1 ∧
        c.order = (if o = 0x6C then .little else .big) ∧
        c.width.index = (if n = 1 then 0 else if n = 2 then 1 else 2) ∧
        c.order.index = (if o = 0x6C then 0 else 1))

/-- R61: two ranges overlap exactly when both hold addresses and share one; a legal range with addresses is one whose every
address is an address of data memory. -/
def Obligations.RangesOverlapExactlyWhenTheyShareAnAddress : Prop :=
  (∀ r q : Region, r.overlaps q ↔ ∃ a, r.has a ∧ q.has a) ∧
  (∀ r : Region, 0 < r.len → (r.legal ↔ ∀ a, r.has a → a < 2 ^ 32))

/-- R252: the checks in their order, the first error found being the one reported. -/
def Obligations.ValidationOrder : Prop :=
  ∀ (s : State) (n o : Nat) (m : Mode),
    (∀ (w : Word) (e : DecodeError), decode w = .error e → s.status.busy = false →
      ∃ t, acceptWord w s = .next t ∧ t.errcode = 6) ∧
    (∀ i ∈ [Instr.unpackD n o m, .unpackL n o m, .pack n o m],
      validate i s =
        if ¬ (n = 1 ∨ n = 2 ∨ n = 4) then .error .invalidBitWidth
        else if ¬ (o = 0x62 ∨ o = 0x6C ∨ o = 0x00) then .error .invalidBitOrder
        else if ¬ s.source.legal ∨ ¬ (s.destination i).legal ∨ s.source.overlaps (s.destination i) then .error .addrFault
        else .ok ⟨s.source, s.destination i⟩) ∧
    (∀ i ∈ [Instr.unpackbD n o m, .unpackbL n o m, .packb n o m],
      validate i s =
        if ¬ (n = 1 ∨ n = 2 ∨ n = 4) then .error .invalidBitWidth
        else if ¬ (o = 0x62 ∨ o = 0x6C ∨ o = 0x00) then .error .invalidBitOrder
        else if s.opnd.dstLen.toNat ≠ outLength i s.opnd.srcLen.toNat then .error .sizeMismatch
        else if ¬ s.source.legal ∨ ¬ (s.destination i).legal ∨ s.source.overlaps (s.destination i) then .error .addrFault
        else .ok ⟨s.source, s.destination i⟩) ∧
    (validate .requant s =
        if s.opnd.srcLen.toNat % 4 ≠ 0 ∨ s.opnd.srcLen.toNat = 0 then .error .invalidLength
        else if ¬ s.source.legal ∨ ¬ (s.destination .requant).legal ∨ s.source.overlaps (s.destination .requant) then
          .error .addrFault
        else .ok ⟨s.source, s.destination .requant⟩)

/-- R255: which commands can report which codes, and that they can; an illegal word reports code 6 and no command does. -/
def Obligations.ErrorsOfEachCommand : Prop :=
  (∀ n o m s e, ∀ i ∈ [Instr.unpackD n o m, .unpackL n o m, .pack n o m], validate i s = .error e →
    e ∈ [CmdError.invalidBitWidth, .invalidBitOrder, .addrFault]) ∧
  (∀ n o m s e, ∀ i ∈ [Instr.unpackbD n o m, .unpackbL n o m, .packb n o m], validate i s = .error e →
    e ∈ [CmdError.invalidBitWidth, .invalidBitOrder, .sizeMismatch, .addrFault]) ∧
  (∀ s e, validate .requant s = .error e → e ∈ [CmdError.invalidLength, .addrFault]) ∧
  (∀ m, ∀ f ∈ [Instr.unpackD, .unpackL, .pack], ∀ e ∈ [CmdError.invalidBitWidth, .invalidBitOrder, .addrFault],
    ∃ n o s, validate (f n o m) s = .error e) ∧
  (∀ m, ∀ f ∈ [Instr.unpackbD, .unpackbL, .packb],
    ∀ e ∈ [CmdError.invalidBitWidth, .invalidBitOrder, .sizeMismatch, .addrFault],
    ∃ n o s, validate (f n o m) s = .error e) ∧
  (∀ e ∈ [CmdError.invalidLength, .addrFault], ∃ s, validate .requant s = .error e) ∧
  (∀ w d s, decode w = .error d → s.status.busy = false → ∃ t, acceptWord w s = .next t ∧ t.errcode = 6) ∧
  (∃ w d, decode w = .error d)

/-- R202's table in numbers, over unbounded integers; and the output length of a command that passes validation is a `u32`:
the value the completion step puts into `OUT_LEN` is not cut. -/
def Obligations.OutputLengthFitsItsRegister : Prop :=
  (∀ (len n o : Nat) (m : Mode), n = 1 ∨ n = 2 ∨ n = 4 →
    (∀ i ∈ [Instr.unpackD n o m, .unpackL n o m, .unpackbD n o m, .unpackbL n o m], outLength i len = len * 8 / n) ∧
    (∀ i ∈ [Instr.pack n o m, .packb n o m], outLength i len = len / (8 / n) ∧ outLength i len = len * n / 8)) ∧
  (∀ len : Nat, outLength .requant len = len / 4) ∧
  (∀ (i : Instr) (b : Buffers) (s : State), validate i s = .ok b →
    b.src = s.source ∧ b.dst = ⟨s.opnd.dstAddr.toNat, outLength i s.opnd.srcLen.toNat⟩ ∧
    outLength i s.opnd.srcLen.toNat < 2 ^ 32 ∧
    (i = .requant → 4 * outLength i s.opnd.srcLen.toNat = s.opnd.srcLen.toNat))

/-! ### Unpack, lookup and pack -/

/-- R143: the six cases of the unpack of one byte, in output order. -/
def Obligations.UnpackOfOneByte : Prop :=
  ∀ b : Byte,
    (unpackByte ⟨.w1, .little⟩ b).map BitVec.toNat = [slice b.toNat 0 0, slice b.toNat 1 1, slice b.toNat 2 2,
      slice b.toNat 3 3, slice b.toNat 4 4, slice b.toNat 5 5, slice b.toNat 6 6, slice b.toNat 7 7] ∧
    (unpackByte ⟨.w1, .big⟩ b).map BitVec.toNat = [slice b.toNat 7 7, slice b.toNat 6 6, slice b.toNat 5 5,
      slice b.toNat 4 4, slice b.toNat 3 3, slice b.toNat 2 2, slice b.toNat 1 1, slice b.toNat 0 0] ∧
    (unpackByte ⟨.w2, .little⟩ b).map BitVec.toNat = [slice b.toNat 1 0, slice b.toNat 3 2, slice b.toNat 5 4,
      slice b.toNat 7 6] ∧
    (unpackByte ⟨.w2, .big⟩ b).map BitVec.toNat = [slice b.toNat 7 6, slice b.toNat 5 4, slice b.toNat 3 2,
      slice b.toNat 1 0] ∧
    (unpackByte ⟨.w4, .little⟩ b).map BitVec.toNat = [slice b.toNat 3 0, slice b.toNat 7 4] ∧
    (unpackByte ⟨.w4, .big⟩ b).map BitVec.toNat = [slice b.toNat 7 4, slice b.toNat 3 0]

/-- R146, for `UNPACK.D` and `UNPACKB.D`: while a unit is left, the engine step performs one: it writes the `E` fields of its
source byte, in the command's order, to its `E` destination bytes, and changes no other byte and no register.
That a unit is one step is log 15. -/
def Obligations.DirectUnpackUnit : Prop :=
  ∀ (n o : Nat) (m : Mode) (c : Codec) (b : Buffers) (s : State),
    ∀ i ∈ [Instr.unpackD n o m, .unpackbD n o m],
    resolve n o = .ok c → s.inPhase i .run b → s.unitLeft m s.opnd.srcLen.toNat →
    ∃ u t, exec i s = .next t ∧ s.recordsUnit m s.opnd.srcLen.toNat u t ∧
      (∀ p < c.elements,
        let j := if c.order = .little then p else c.elements - 1 - p
        (t.mem.read (s.opnd.dstAddr.toNat + u * c.elements + p)).toNat =
          slice (s.mem.read (s.opnd.srcAddr.toNat + u)).toNat (j * c.bw + c.bw - 1) (j * c.bw)) ∧
      sameOutside (s.opnd.dstAddr.toNat + u * c.elements) c.elements s.mem t.mem

/-- R183, for `UNPACK.L` and `UNPACKB.L`: while a unit is left, the engine step performs one: it copies the ROM row of its
source byte to its `E` destination bytes, and changes no other byte and no register.
That a unit is one step is log 15. -/
def Obligations.LookupUnpackUnit : Prop :=
  ∀ (n o : Nat) (m : Mode) (c : Codec) (b : Buffers) (s : State),
    ∀ i ∈ [Instr.unpackL n o m, .unpackbL n o m],
    resolve n o = .ok c → s.inPhase i .run b → s.unitLeft m s.opnd.srcLen.toNat →
    ∃ u t, exec i s = .next t ∧ s.recordsUnit m s.opnd.srcLen.toNat u t ∧
      (∀ (p : Nat) (a : Fin lutSize), p < c.elements →
        a.val = lutBase c.width.index c.order.index +
          (s.mem.read (s.opnd.srcAddr.toNat + u)).toNat * c.elements + p →
        t.mem.read (s.opnd.dstAddr.toNat + u * c.elements + p) = lutRead a) ∧
      sameOutside (s.opnd.dstAddr.toNat + u * c.elements) c.elements s.mem t.mem

/-- R180, R181: the content and the layout of the lookup ROM: row `i` of the table of a width and order holds the unpack of
byte value `i`, in closed form too, the tables start at the listed bases, and they fill the ROM. -/
def Obligations.LookupRomContent : Prop :=
  (∀ (c : Codec) (i p : Nat) (a : Fin lutSize), i < 256 → p < c.elements →
    a.val = lutBase c.width.index c.order.index + i * c.elements + p →
    (unpackByte c (BitVec.ofNat 8 i))[p]? = some (lutRead a) ∧
    (lutRead a).toNat = (i >>> ((if c.order = .little then p else c.elements - 1 - p) * c.bw)) &&& (2 ^ c.bw - 1)) ∧
  (lutBase 0 0 = 0x0000 ∧ lutBase 0 1 = 0x0800 ∧ lutBase 1 0 = 0x1000 ∧ lutBase 1 1 = 0x1400 ∧ lutBase 2 0 = 0x1800 ∧
    lutBase 2 1 = 0x1A00 ∧ lutSize = 0x1C00) ∧
  (∀ a : Fin lutSize, ∃ (c : Codec) (i p : Nat), i < 256 ∧ p < c.elements ∧
    a.val = lutBase c.width.index c.order.index + i * c.elements + p) ∧
  (∀ (c : Codec) (i p : Nat), i < 256 → p < c.elements →
    lutBase c.width.index c.order.index + i * c.elements + p < lutSize)

/-- At every point of its run, from every state in which the engine waits and whatever its operands, `UNPACK.L` leaves what
`UNPACK.D` leaves, and `UNPACKB.L` what `UNPACKB.D` leaves; only the word in `CMD` differs. In parallel mode this is so under the
same free choices of the engine: both runs start from one `s.sched` (log 4). -/
def Obligations.LookupUnpackEqualsDirectUnpack : Prop :=
  ∀ (n o : Nat) (m : Mode) (s : State) (k : Nat), s.status.busy = false → s.host.inputs = [] →
    eraseCmd (thenSteps (exec (.unpackL n o m) s) k) = eraseCmd (thenSteps (exec (.unpackD n o m) s) k) ∧
    eraseCmd (thenSteps (exec (.unpackbL n o m) s) k) = eraseCmd (thenSteps (exec (.unpackbD n o m) s) k)

/-- R186: whatever free choices each of the two runs makes, `UNPACK.L` completes with what `UNPACK.D` completes with, and
`UNPACKB.L` with what `UNPACKB.D` does, a failure too: the same flags, error code, output length and bytes, and all other state
but `CMD` and the free choices. The premises say that the platform backs the ranges (U8; log 9). -/
def Obligations.LookupUnpackCompletesAsDirectUnpack : Prop :=
  ∀ (n o : Nat) (m : Mode) (s : State) (f g : Schedule), s.status.busy = false → s.host.inputs = [] →
    ∀ p ∈ [(Instr.unpackL n o m, Instr.unpackD n o m), (.unpackbL n o m, .unpackbD n o m)],
    s.backs s.source → s.backs (s.destination p.1) →
    ∃ k t₁ t₂, thenSteps (exec p.1 { s with sched := f }) k = .next t₁ ∧
      thenSteps (exec p.2 { s with sched := g }) k = .next t₂ ∧
      t₁.status.done = true ∧ t₂.status.done = true ∧
      t₁ = { t₂ with cmd := t₁.cmd, mem := t₁.mem, sched := t₁.sched } ∧
      ∀ a, t₁.mem.read a = t₂.mem.read a

/-- R167 and R161, for `PACK` and `PACKB`: while a unit is left, the engine step performs one: it ORs the `E` samples of its
group, unmasked and each shifted to its place, and writes the low 8 bits to its destination byte; it changes no other
byte and no register.
That a unit is one step is log 15. -/
def Obligations.PackUnit : Prop :=
  ∀ (n o : Nat) (m : Mode) (c : Codec) (b : Buffers) (s : State),
    ∀ i ∈ [Instr.pack n o m, .packb n o m],
    resolve n o = .ok c → s.inPhase i .run b → s.unitLeft m (s.opnd.srcLen.toNat / c.elements) →
    ∃ u t, exec i s = .next t ∧ s.recordsUnit m (s.opnd.srcLen.toNat / c.elements) u t ∧
      (t.mem.read (s.opnd.dstAddr.toNat + u)).toNat =
        (List.range c.elements).foldl (fun acc j =>
          acc ||| ((s.mem.read (s.opnd.srcAddr.toNat + u * c.elements + j)).toNat <<<
            (if c.order = .little then j * c.bw else (c.elements - 1 - j) * c.bw))) 0 % 256 ∧
      sameOutside (s.opnd.dstAddr.toNat + u) 1 s.mem t.mem

/-- R166: packing the unpack of a byte gives the byte back; unpacking the pack of a whole group gives the group back exactly
when every sample is below `2^BW`; and so for whole buffers. -/
def Obligations.PackUndoesUnpack : Prop :=
  (∀ (c : Codec) (b : Byte), packGroup c (unpackByte c b) = b) ∧
  (∀ (c : Codec) (g : List Byte), g.length = c.elements →
    (unpackByte c (packGroup c g) = g ↔ ∀ x ∈ g, x.toNat < 2 ^ c.bw)) ∧
  (∀ (c : Codec) (src : Nat → Byte) (k : Nat), packedAt c (unpackedAt c src) k = src k)

/-! ### The engine's order and completion -/

/-- R207: in parallel mode any unit not yet performed may be the next one, for some free choice of the engine (log 4). -/
def Obligations.AnyUnitMayBeNext : Prop :=
  ∀ (n o u : Nat) (c : Codec) (b : Buffers) (s : State),
    ∀ i ∈ [Instr.unpackD n o .par, .unpackL n o .par, .unpackbD n o .par, .unpackbL n o .par, .pack n o .par,
      .packb n o .par],
    resolve n o = .ok c → s.inPhase i .run b → s.seq.within .par (unitCount i s.opnd.srcLen.toNat) →
    u < unitCount i s.opnd.srcLen.toNat → u ∉ s.seq.done →
    ∃ f t, exec i { s with sched := f } = .next t ∧ ∀ v, v ∈ t.seq.done ↔ v = u ∨ v ∈ s.seq.done

/-- R209: when every unit of the last phase has been performed, the engine step is the completion, and only then: an engine
step of the command in `CMD` that leaves `DONE = 1` started with every unit of its last phase performed. The output length is a
`u32`, so it is not cut. -/
def Obligations.SuccessCompletion : Prop :=
  (∀ (i : Instr) (b : Buffers) (s : State), s.inPhase i (if i = .requant then .quant else .run) b →
    s.allPerformed (modeOfInstr i) (unitCount i s.opnd.srcLen.toNat) →
    exec i s = .next { s with
      outLen := BitVec.ofNat 32 (outLength i s.opnd.srcLen.toNat), status := ⟨false, true, false⟩
      seq := ⟨.idle, 0, []⟩ } ∧
    outLength i s.opnd.srcLen.toNat < 2 ^ 32) ∧
  (∀ (i : Instr) (s t : State), s.Inv → s.status.busy = true → decode s.cmd = .ok i → exec i s = .next t →
    t.status.done = true →
    s.seq.phase = (if i = .requant then .quant else .run) ∧
      s.allPerformed (modeOfInstr i) (unitCount i s.opnd.srcLen.toNat))

/-! ### The requantizer -/

/-- R223: a unit of pass 1 adds one complex sample to the accumulators and writes no memory. -/
def Obligations.StatisticsUnit : Prop :=
  ∀ (b : Buffers) (s : State), s.inPhase .requant .stat b → s.seq.unit < s.opnd.srcLen.toNat / 2 →
    let r := toS8 (s.mem.read (s.opnd.srcAddr.toNat + 2 * s.seq.unit))
    let i := toS8 (s.mem.read (s.opnd.srcAddr.toNat + (2 * s.seq.unit + 1)))
    exec .requant s = .next { s with
      acc := ⟨s.acc.s1Re + r, s.acc.s1Im + i, s.acc.s2Re + r * r, s.acc.s2Im + i * i⟩
      seq := { s.seq with unit := s.seq.unit + 1 } }

/-- R224: the step that ends pass 1 copies the accumulators to the statistics registers and starts pass 2. -/
def Obligations.EndOfPass1 : Prop :=
  ∀ (b : Buffers) (s : State), s.inPhase .requant .stat b → s.seq.unit = s.opnd.srcLen.toNat / 2 →
    exec .requant s = .next { s with
      stats := ⟨BitVec.ofNat 32 (s.opnd.srcLen.toNat / 2), BitVec.ofInt 64 s.acc.s1Re, BitVec.ofInt 64 s.acc.s1Im,
        BitVec.ofInt 64 s.acc.s2Re, BitVec.ofInt 64 s.acc.s2Im⟩
      seq := ⟨.quant, 0, []⟩ }

/-- R227: a unit of pass 2 writes the four levels of its two complex samples, most significant first, to its destination byte
and changes no other byte and no register.
The sums are those of the accumulators (log 19). -/
def Obligations.QuantizeUnit : Prop :=
  ∀ (b : Buffers) (s : State), s.inPhase .requant .quant b → s.seq.unit < s.opnd.srcLen.toNat / 4 →
    let k := s.seq.unit
    let x := s.opnd.srcLen.toNat / 2
    let v := fun j => toS8 (s.mem.read (s.opnd.srcAddr.toNat + (4 * k + j)))
    let vRe := (x : Int) * s.acc.s2Re - s.acc.s1Re * s.acc.s1Re
    let vIm := (x : Int) * s.acc.s2Im - s.acc.s1Im * s.acc.s1Im
    ∃ t, exec .requant s = .next t ∧
      t = { s with mem := t.mem, seq := { s.seq with unit := k + 1 } } ∧
      (t.mem.read (s.opnd.dstAddr.toNat + k)).toNat =
        level (v 0) x vRe * 64 + level (v 1) x vIm * 16 + level (v 2) x vRe * 4 + level (v 3) x vIm ∧
      sameOutside (s.opnd.dstAddr.toNat + k) 1 s.mem t.mem

/-- R226: the level by the integers `K` and `Q`, and that it is the document's four-case rule over the real numbers, with
`a = 0.98159883` and `sigma = sqrt(V)/X`; also the number of boundaries of the threshold ROM at or below the value. -/
def Obligations.LevelIsTheRealThresholdRule : Prop :=
  ∀ (v : Int) (x : Nat) (spr : Int), 0 < x → 0 ≤ spr →
    let k : Int := 98159883 ^ 2 * spr
    let q : Int := (|v| * 100000000 * x) ^ 2
    let sigma : ℝ := Real.sqrt (spr : ℝ) / (x : ℝ)
    let a : ℝ := 98159883 / 100000000
    (level v x spr = if v < 0 then (if q > k then 0 else 1) else (if q < k then 2 else 3)) ∧
    (level v x spr =
      if (v : ℝ) < -(a * sigma) then 0
      else if (v : ℝ) < 0 then 1
      else if (v : ℝ) < a * sigma then 2
      else 3) ∧
    level v x spr = (Finset.univ.filter fun j : Fin 3 => (thrRead j : ℝ) * sigma / 100000000 ≤ (v : ℝ)).card ∧
    (-128 ≤ v → v ≤ 127 → x < 2 ^ 31 → q < 2 ^ 130)

/-- R225: the population variance of a channel is `S2/X - (S1/X)^2 = V/X^2` and its root is `sqrt(V)/X`; `V` is not negative,
and it is 0 exactly when the channel is constant. -/
def Obligations.SpreadIsThePopulationVariance : Prop :=
  ∀ (c : Nat → Int) (x : Nat), 0 < x →
    let s1 : Int := ∑ i ∈ Finset.range x, c i
    let s2 : Int := ∑ i ∈ Finset.range x, c i ^ 2
    let mean : ℝ := (s1 : ℝ) / (x : ℝ)
    let var : ℝ := 1 / (x : ℝ) * ∑ i ∈ Finset.range x, ((c i : ℝ) - mean) ^ 2
    spread x s1 s2 = x * s2 - s1 * s1 ∧
    var = (s2 : ℝ) / (x : ℝ) - mean ^ 2 ∧
    var = (spread x s1 s2 : ℝ) / (x : ℝ) ^ 2 ∧
    Real.sqrt var = Real.sqrt (spread x s1 s2 : ℝ) / (x : ℝ) ∧
    0 ≤ spread x s1 s2 ∧
    (spread x s1 s2 = 0 ↔ ∀ i < x, c i = c 0)

/-- R233: the integer thresholds, the level by comparison with them, what they are in terms of `a*sigma`, when they differ, and
their bound. -/
def Obligations.IntegerThresholds : Prop :=
  ∀ (x : Nat) (spr : Int) (tpos tneg : Nat), 0 < x → 0 ≤ spr →
    IsLeast {t : Nat | levelK spr ≤ ((t : Int) * 100000000 * x) ^ 2} tpos →
    IsLeast {t : Nat | levelK spr < ((t : Int) * 100000000 * x) ^ 2} tneg →
    let aSigma : ℝ := 98159883 / 100000000 * (Real.sqrt (spr : ℝ) / (x : ℝ))
    (∀ v : Int,
      level v x spr =
        if (tpos : Int) ≤ v then 3
        else if 0 ≤ v then 2
        else if -(tneg : Int) < v then 1
        else 0) ∧
    tpos = ⌈aSigma⌉₊ ∧ tneg = ⌊aSigma⌋₊ + 1 ∧
    (tpos ≠ tneg → aSigma = tpos ∧ tneg = tpos + 1) ∧
    (spr = 0 → tpos = 0 ∧ tneg = 1) ∧
    (spr ≤ (128 * x) ^ 2 → tpos ≤ 126 ∧ tneg ≤ 126)

/-- R228: a channel of `x` equal values `c` has `V = 0`, and then negative values are level 0, the others level 3. -/
def Obligations.ConstantChannelLevels : Prop :=
  ∀ (v c : Int) (x : Nat), 0 < x →
    spread x (∑ _i ∈ Finset.range x, c) (∑ _i ∈ Finset.range x, c ^ 2) = 0 ∧ level v x 0 = if v < 0 then 0 else 3

/-- R231 (d): negation maps levels 0 and 3, and 1 and 2, to each other away from zero and the boundaries, and at no boundary. -/
def Obligations.NegationOfLevels : Prop :=
  ∀ (v : Int) (x : Nat) (spr : Int), v ≠ 0 →
    (levelQ v x ≠ levelK spr → level (-v) x spr = 3 - level v x spr) ∧
    (levelQ v x = levelK spr → level (-v) x spr ≠ 3 - level v x spr)

/-- R231 (c): the real fields of a requantized byte depend on the real components only, the imaginary fields on the imaginary
components only. -/
def Obligations.ChannelsAreIndependent : Prop :=
  ∀ (f g : Nat → Byte) (len k : Nat), k < len / 4 →
    ((∀ i < len / 2, f (2 * i) = g (2 * i)) →
      slice (requantizedAt f len k).toNat 7 6 = slice (requantizedAt g len k).toNat 7 6 ∧
      slice (requantizedAt f len k).toNat 3 2 = slice (requantizedAt g len k).toNat 3 2) ∧
    ((∀ i < len / 2, f (2 * i + 1) = g (2 * i + 1)) →
      slice (requantizedAt f len k).toNat 5 4 = slice (requantizedAt g len k).toNat 5 4 ∧
      slice (requantizedAt f len k).toNat 1 0 = slice (requantizedAt g len k).toNat 1 0)

/-- R33: the sums of a requantize of `X < 2^31` complex samples fit the 64-bit statistics registers, within the stated bounds. -/
def Obligations.StatisticsFitTheirRegisters : Prop :=
  ∀ (src : Nat → Byte) (x : Nat), x < 2 ^ 31 →
    let a := pass1 src x
    let r := StatRegs.ofSums x a
    r.x.toNat = x ∧ r.s1Re.toInt = a.s1Re ∧ r.s1Im.toInt = a.s1Im ∧ r.s2Re.toInt = a.s2Re ∧ r.s2Im.toInt = a.s2Im ∧
    |a.s1Re| ≤ 128 * x ∧ |a.s1Im| ≤ 128 * x ∧ 0 ≤ a.s2Re ∧ a.s2Re ≤ 16384 * x ∧ 0 ≤ a.s2Im ∧ a.s2Im ≤ 16384 * x

/-! ### Registers, host and reset -/

/-- The register map: what each of the eighteen offsets reads, the flags of `STATUS`, and the halves of a sum. -/
def Obligations.RegisterMap : Prop :=
  (∀ s : State,
    [0x00, 0x04, 0x08, 0x0C, 0x10, 0x14, 0x18, 0x1C, 0x20, 0x24, 0x28, 0x2C, 0x30, 0x34, 0x38, 0x3C, 0x40, 0x44].map
        s.readReg =
      [s.cmd, s.status.word, s.errcode, s.opnd.srcAddr, s.opnd.srcLen, s.opnd.dstAddr, s.opnd.dstLen, s.outLen,
        s.stats.x, 0, sumLo s.stats.s1Re, sumHi s.stats.s1Re, sumLo s.stats.s1Im, sumHi s.stats.s1Im,
        sumLo s.stats.s2Re, sumHi s.stats.s2Re, sumLo s.stats.s2Im, sumHi s.stats.s2Im]) ∧
  (∀ (s : State) (off : Nat), 0x48 ≤ off → s.readReg off = 0) ∧
  (∀ f : Status, f.word.toNat = (if f.busy then 1 else 0) + (if f.done then 2 else 0) + (if f.err then 4 else 0)) ∧
  (∀ v : Sum, v.toNat = (sumLo v).toNat + 2 ^ 32 * (sumHi v).toNat)

/-- R29: (a) a read of any register is always allowed and returns its value, (b) a write to a read-only register or to an
offset that names none is ignored, (c) a write while `BUSY = 1` is dropped; and so `CMD` and the operand registers are
constant while a command runs, unless reset comes. -/
def Obligations.RegisterAccessRules : Prop :=
  (∀ (s : State) (off : Nat) (rest : List Input), off % 4 = 0 → s.host.inputs = .regRead off 4 :: rest →
    ∃ t, step s = .next t ∧ t.host.replies = .reg (s.readReg off) :: s.host.replies ∧
      t = { s with host := { s.host with inputs := rest, replies := t.host.replies, handed := t.host.handed } }) ∧
  (∀ (s : State) (off : Nat) (v : Word) (rest : List Input), off % 4 = 0 →
    off ∉ [0x00, 0x0C, 0x10, 0x14, 0x18] → s.host.inputs = .regWrite off 4 v :: rest →
    step s = .next { s with host := { s.host with inputs := rest } }) ∧
  (∀ (s : State) (off : Nat) (v : Word) (rest : List Input), off % 4 = 0 → s.status.busy = true →
    s.host.inputs = .regWrite off 4 v :: rest → step s = .next { s with host := { s.host with inputs := rest } }) ∧
  (∀ s t : State, s.status.busy = true → s.host.inputs.head? ≠ some .reset → step s = .next t →
    t.cmd = s.cmd ∧ t.opnd = s.opnd)

/-- A host write to an operand register while the engine waits gives that register the value and changes nothing else. -/
def Obligations.OperandRegisterWrites : Prop :=
  ∀ (s : State) (v : Word) (rest : List Input), s.status.busy = false →
    (s.host.inputs = .regWrite 0x0C 4 v :: rest →
      step s = .next { s with opnd := { s.opnd with srcAddr := v }, host := { s.host with inputs := rest } }) ∧
    (s.host.inputs = .regWrite 0x10 4 v :: rest →
      step s = .next { s with opnd := { s.opnd with srcLen := v }, host := { s.host with inputs := rest } }) ∧
    (s.host.inputs = .regWrite 0x14 4 v :: rest →
      step s = .next { s with opnd := { s.opnd with dstAddr := v }, host := { s.host with inputs := rest } }) ∧
    (s.host.inputs = .regWrite 0x18 4 v :: rest →
      step s = .next { s with opnd := { s.opnd with dstLen := v }, host := { s.host with inputs := rest } })

/-- No meaning writes an operand register, and none but `REQUANT`'s writes a statistics register or an accumulator. -/
def Obligations.CommandsKeepTheirOperandRegisters : Prop :=
  ∀ (i : Instr) (s t : State), exec i s = .next t →
    t.opnd = s.opnd ∧ (i ≠ .requant → t.stats = s.stats ∧ t.acc = s.acc)

/-- The statistics registers change in no step but the end of pass 1 of a `REQUANT`, and reset. -/
def Obligations.StatisticsRegistersChangeOnlyAtTheEndOfPass1 : Prop :=
  ∀ s t : State, step s = .next t → t.stats ≠ s.stats →
    s.host.inputs.head? = some .reset ∨
    (s.status.busy = true ∧ decode s.cmd = .ok .requant ∧ s.seq.phase = .stat ∧
      complexCount s.opnd.srcLen.toNat ≤ s.seq.unit ∧
      t.stats = StatRegs.ofSums (complexCount s.opnd.srcLen.toNat) s.acc)

/-- R285: a host write to a handed-over buffer and a host read of a handed-over destination are refused, and no other host
access to a backed address of data memory is: a read returns the byte, a write puts it there and changes nothing else.
The refusal is the model's form of the hazard (log 7). -/
def Obligations.BufferHazard : Prop :=
  ∀ (s : State) (a : Nat) (v : Byte) (rest : List Input), a < 2 ^ 32 → ¬ s.isUnbacked a →
    (s.host.inputs = .memWrite a v :: rest →
      (step s = .refused .bufferRace ↔ ∃ b ∈ s.host.handed, b.src.has a ∨ b.dst.has a) ∧
      ((¬ ∃ b ∈ s.host.handed, b.src.has a ∨ b.dst.has a) →
        ∃ t, step s = .next t ∧ t = { s with mem := t.mem, host := { s.host with inputs := rest } } ∧
          t.mem.read a = v ∧ sameOutside a 1 s.mem t.mem)) ∧
    (s.host.inputs = .memRead a :: rest →
      (step s = .refused .bufferRace ↔ ∃ b ∈ s.host.handed, b.dst.has a) ∧
      ((¬ ∃ b ∈ s.host.handed, b.dst.has a) →
        step s = .next { s with
          host := { s.host with inputs := rest, replies := .mem (s.mem.read a) :: s.host.replies } }))

/-- The interval of the hazard: a buffer handed over at a launch is handed back only by a host read of `STATUS` that returns
`DONE = 1`, or by reset. The record is the model's (log 7). -/
def Obligations.BuffersAreHandedBackByAReadOfDone : Prop :=
  ∀ (s t : State) (b : Buffers), step s = .next t → b ∈ s.host.handed → b ∉ t.host.handed →
    s.host.inputs.head? = some .reset ∨
    (s.status.done = true ∧ (s.host.inputs.head? = some (.regRead 0x04 4) ∨ s.host.inputs.head? = some .poll))

/-- A poll reads `STATUS` once a step; while it returns `DONE = 0` the engine has the next turn and the poll goes on, and when
it returns `DONE = 1` the poll is over. The engine's turn is the model's choice (log 3). -/
def Obligations.PollWaitsForDone : Prop :=
  ∀ (s : State) (rest : List Input), s.host.inputs = .poll :: rest →
    ∃ t, step s = .next t ∧ t.host.replies = .reg s.status.word :: s.host.replies ∧
      t = { s with host := t.host } ∧
      t.host.inputs = (if s.status.done then rest else .engine :: .poll :: rest)

/-- The state after reset, as far as R40 gives it. That no byte of data memory is listed is log 20. -/
def Obligations.ResetValues : Prop :=
  (∀ off, State.reset.readReg off = 0) ∧ State.reset.seq = ⟨.idle, 0, []⟩ ∧ State.reset.status = ⟨false, false, false⟩ ∧
  ∀ a, State.reset.mem.find? a = none

/-- R280: reset puts every register and the sequencer at the reset value whatever the machine was doing, and does not touch
data memory. What it does to the model's own fields is log 20. -/
def Obligations.ResetEvent : Prop :=
  ∀ (s : State) (rest : List Input), s.host.inputs = .reset :: rest →
    ∃ t, step s = .next t ∧ (∀ off, t.readReg off = 0) ∧ t.seq = ⟨.idle, 0, []⟩ ∧ t.mem = s.mem ∧
      t.host = { s.host with inputs := rest, handed := [] } ∧ t.sched = s.sched

/-- Straight after reset, with all operands 0, `UNPACK.D 1, 'b', seq` succeeds with `OUT_LEN = 0` and `REQUANT` fails with
`InvalidLength` (R282). -/
def Obligations.CommandsStraightAfterReset : Prop :=
  (∃ t, runSteps 2 (State.reset.withInputs [.regWrite 0x00 4 0x00620101]) = .next t ∧
    t.status = ⟨false, true, false⟩ ∧ t.outLen = 0 ∧ t.errcode = 0 ∧ t.mem = []) ∧
  (∃ t, runSteps 1 (State.reset.withInputs [.regWrite 0x00 4 0x00000005]) = .next t ∧
    t.status = ⟨false, true, true⟩ ∧ t.errcode = 4)

/-! ### Whole-machine statements -/

/-- A command writes only bytes of its destination range, and an accept writes none (R69). -/
def Obligations.CommandsWriteOnlyTheirDestination : Prop :=
  ∀ (i : Instr) (s t : State), exec i s = .next t →
    (s.status.busy = false → t.mem = s.mem) ∧
    sameOutside (s.destination i).base (s.destination i).len s.mem t.mem

/-- A command reads only bytes of its source range (R69): from two states that differ only outside it, a step of the command
has the same effect on every register and on the hidden state, and puts the same bytes to the same places. -/
def Obligations.CommandsReadOnlyTheirSource : Prop :=
  ∀ (i : Instr) (s t : State) (m : Memory), exec i s = .next t →
    (∀ a, s.source.has a → m.read a = s.mem.read a) →
    ∃ t', exec i { s with mem := m } = .next t' ∧ t' = { t with mem := t'.mem } ∧
      ∀ a, (t.mem.read a = s.mem.read a ∧ t'.mem.read a = m.read a) ∨ t'.mem.read a = t.mem.read a

/-- The invariant holds at reset. -/
def Obligations.InvHoldsAtReset : Prop := State.reset.Inv

/-- Every step keeps the invariant. -/
def Obligations.EveryStepKeepsInv : Prop :=
  ∀ s t : State, s.Inv → step s = .next t → t.Inv

/-- From a state of the invariant, every way a step stops, each with the event and the ground it has, and no other: a host
access to an address of 2^32 or more (log 12), a register access that is not whole and aligned (U6, log 8), a host access to a
handed-over buffer (U4, log 7), a host access to an unbacked address or the launch of a command over an unbacked range (U8,
log 9). So with no event pending, at a turn of the engine, a poll or reset, the step answers a next state. -/
def Obligations.StepsStopOnlyForTheHost : Prop :=
  ∀ s : State, s.Inv →
    let ev := s.host.inputs.head?
    let touches := fun a => ev = some (.memRead a) ∨ ∃ v, ev = some (.memWrite a v)
    (∀ f, step s = .fault f ↔ f = .addressOutside ∧ ∃ a, 2 ^ 32 ≤ a ∧ touches a) ∧
    (step s = .refused .registerAccessForm ↔
      ∃ off bytes, ¬ (bytes = 4 ∧ off % 4 = 0) ∧
        (ev = some (.regRead off bytes) ∨ ∃ v, ev = some (.regWrite off bytes v))) ∧
    (step s = .refused .bufferRace ↔
      ∃ a < 2 ^ 32, ¬ s.isUnbacked a ∧
        ((ev = some (.memRead a) ∧ ∃ b ∈ s.host.handed, b.dst.has a) ∨
          ∃ v, ev = some (.memWrite a v) ∧ ∃ b ∈ s.host.handed, b.src.has a ∨ b.dst.has a)) ∧
    (step s = .refused .unbackedAddress ↔
      (∃ a < 2 ^ 32, s.isUnbacked a ∧ touches a) ∨
        (s.status.busy = false ∧ ∃ w i b, ev = some (.regWrite 0x00 4 w) ∧ decode w = .ok i ∧ validate i s = .ok b ∧
          ∃ u ∈ s.host.unbacked, u.overlaps b.src ∨ u.overlaps b.dst)) ∧
    (∀ name, step s ≠ .refused (.notModelled name)) ∧
    (ev = none ∨ ev = some .engine ∨ ev = some .poll ∨ ev = some .reset → ∃ t, step s = .next t)

/-- R208: a whole pack or unpack, whatever the order of its units, is one atomic transition: from launch it reaches, in its
number of engine steps, the state that the functions of its rule over the source bytes at accept give. Only the free
choices made differ. That the buffers stay recorded as handed over is log 7. -/
def Obligations.WholePackAndUnpack : Prop :=
  ∀ (n o : Nat) (m : Mode) (c : Codec) (b : Buffers) (s : State),
    resolve n o = .ok c → s.mem.wf → s.host.inputs = [] →
    (∀ i ∈ [Instr.unpackD n o m, .unpackL n o m, .unpackbD n o m, .unpackbL n o m], s.launches i b →
      ∃ t₀ t, exec i s = .next t₀ ∧ runSteps (s.opnd.srcLen.toNat + 1) t₀ = .next t ∧
        t = { s.completed i b (unpackedAt c s.srcByte) with sched := t.sched } ∧ (m = .seq → t.sched = s.sched)) ∧
    (∀ i ∈ [Instr.pack n o m, .packb n o m], s.launches i b →
      ∃ t₀ t, exec i s = .next t₀ ∧ runSteps (s.opnd.srcLen.toNat / c.elements + 1) t₀ = .next t ∧
        t = { s.completed i b (packedAt c s.srcByte) with sched := t.sched } ∧ (m = .seq → t.sched = s.sched))

/-- A whole `REQUANT` is one atomic transition (R220): the requantized bytes, the statistics of both channels and the output
length, in its number of engine steps.
That the accumulators keep the sums after completion is log 19 (U13 leaves them open), that the buffers stay recorded as handed
over is log 7. -/
def Obligations.WholeRequantize : Prop :=
  ∀ (b : Buffers) (s : State), s.launches .requant b → s.mem.wf → s.host.inputs = [] →
    ∃ t₀, exec .requant s = .next t₀ ∧
      runSteps (s.opnd.srcLen.toNat / 2 + 1 + s.opnd.srcLen.toNat / 4 + 1) t₀ = .next (s.requantized b)

/-- Progress (R288): a launched command is busy for exactly its number of engine steps and then has succeeded. -/
def Obligations.CommandsCompleteInTheirStepCount : Prop :=
  ∀ (i : Instr) (b : Buffers) (s : State), s.launches i b → s.host.inputs = [] →
    ∃ t₀, exec i s = .next t₀ ∧
      ∀ k ≤ engineSteps i s.opnd.srcLen.toNat, ∃ t, runSteps k t₀ = .next t ∧
        t.status = (if k = engineSteps i s.opnd.srcLen.toNat then ⟨false, true, false⟩ else ⟨true, false, false⟩)
end

