-- ==== Sys2Proof/Laws/State.lean ====
section
/-! SUPPORT. What each named update of the state does to each of its fields, so that no proof unfolds a record
update. -/

namespace Sys2Proof.Machine

variable (s : State)

/-! ### beginAccept -/

@[simp] theorem beginAccept_cmd (w : Word) : (State.beginAccept w s).cmd = w := rfl
@[simp] theorem beginAccept_status (w : Word) : (State.beginAccept w s).status = s.status.accepted := rfl
@[simp] theorem beginAccept_errcode (w : Word) : (State.beginAccept w s).errcode = 0 := rfl
@[simp] theorem beginAccept_outLen (w : Word) : (State.beginAccept w s).outLen = 0 := rfl
@[simp] theorem beginAccept_opnd (w : Word) : (State.beginAccept w s).opnd = s.opnd := rfl
@[simp] theorem beginAccept_stats (w : Word) : (State.beginAccept w s).stats = s.stats := rfl
@[simp] theorem beginAccept_seq (w : Word) : (State.beginAccept w s).seq = s.seq := rfl
@[simp] theorem beginAccept_acc (w : Word) : (State.beginAccept w s).acc = s.acc := rfl
@[simp] theorem beginAccept_mem (w : Word) : (State.beginAccept w s).mem = s.mem := rfl
@[simp] theorem beginAccept_host (w : Word) : (State.beginAccept w s).host = s.host := rfl
@[simp] theorem beginAccept_sched (w : Word) : (State.beginAccept w s).sched = s.sched := rfl

/-! ### fail -/

@[simp] theorem fail_cmd (e : CmdError) : (State.fail e s).cmd = s.cmd := rfl
@[simp] theorem fail_status (e : CmdError) : (State.fail e s).status = ⟨false, true, true⟩ := rfl
@[simp] theorem fail_errcode (e : CmdError) : (State.fail e s).errcode = BitVec.ofNat 32 e.code := rfl
@[simp] theorem fail_outLen (e : CmdError) : (State.fail e s).outLen = 0 := rfl
@[simp] theorem fail_opnd (e : CmdError) : (State.fail e s).opnd = s.opnd := rfl
@[simp] theorem fail_stats (e : CmdError) : (State.fail e s).stats = s.stats := rfl
@[simp] theorem fail_seq (e : CmdError) : (State.fail e s).seq = { s.seq with phase := .idle } := rfl
@[simp] theorem fail_acc (e : CmdError) : (State.fail e s).acc = s.acc := rfl
@[simp] theorem fail_mem (e : CmdError) : (State.fail e s).mem = s.mem := rfl
@[simp] theorem fail_host (e : CmdError) : (State.fail e s).host = s.host := rfl
@[simp] theorem fail_sched (e : CmdError) : (State.fail e s).sched = s.sched := rfl

/-! ### launch -/

@[simp] theorem launch_cmd (i : Instr) (b : Buffers) : (State.launch i b s).cmd = s.cmd := rfl
@[simp] theorem launch_status (i : Instr) (b : Buffers) : (State.launch i b s).status = s.status.running := rfl
@[simp] theorem launch_errcode (i : Instr) (b : Buffers) : (State.launch i b s).errcode = s.errcode := rfl
@[simp] theorem launch_outLen (i : Instr) (b : Buffers) : (State.launch i b s).outLen = s.outLen := rfl
@[simp] theorem launch_opnd (i : Instr) (b : Buffers) : (State.launch i b s).opnd = s.opnd := rfl
@[simp] theorem launch_stats (i : Instr) (b : Buffers) : (State.launch i b s).stats = s.stats := rfl
@[simp] theorem launch_seq (i : Instr) (b : Buffers) : (State.launch i b s).seq = ⟨if i = .requant then .stat else .run, 0, []⟩ := rfl
@[simp] theorem launch_acc (i : Instr) (b : Buffers) : (State.launch i b s).acc = if i = .requant then Accumulators.zero else s.acc := rfl
@[simp] theorem launch_mem (i : Instr) (b : Buffers) : (State.launch i b s).mem = s.mem := rfl
@[simp] theorem launch_host (i : Instr) (b : Buffers) : (State.launch i b s).host = { s.host with handed := b :: s.host.handed } := rfl
@[simp] theorem launch_sched (i : Instr) (b : Buffers) : (State.launch i b s).sched = s.sched := rfl

/-! ### complete -/

@[simp] theorem complete_cmd (n : Nat) : (State.complete n s).cmd = s.cmd := rfl
@[simp] theorem complete_status (n : Nat) : (State.complete n s).status = ⟨false, true, false⟩ := rfl
@[simp] theorem complete_errcode (n : Nat) : (State.complete n s).errcode = s.errcode := rfl
@[simp] theorem complete_outLen (n : Nat) : (State.complete n s).outLen = BitVec.ofNat 32 n := rfl
@[simp] theorem complete_opnd (n : Nat) : (State.complete n s).opnd = s.opnd := rfl
@[simp] theorem complete_stats (n : Nat) : (State.complete n s).stats = s.stats := rfl
@[simp] theorem complete_seq (n : Nat) : (State.complete n s).seq = ⟨.idle, 0, []⟩ := rfl
@[simp] theorem complete_acc (n : Nat) : (State.complete n s).acc = s.acc := rfl
@[simp] theorem complete_mem (n : Nat) : (State.complete n s).mem = s.mem := rfl
@[simp] theorem complete_host (n : Nat) : (State.complete n s).host = s.host := rfl
@[simp] theorem complete_sched (n : Nat) : (State.complete n s).sched = s.sched := rfl

/-! ### writeOut -/

@[simp] theorem writeOut_cmd (k : Nat) (bs : List Byte) : (s.writeOut k bs).cmd = s.cmd := rfl
@[simp] theorem writeOut_status (k : Nat) (bs : List Byte) : (s.writeOut k bs).status = s.status := rfl
@[simp] theorem writeOut_errcode (k : Nat) (bs : List Byte) : (s.writeOut k bs).errcode = s.errcode := rfl
@[simp] theorem writeOut_outLen (k : Nat) (bs : List Byte) : (s.writeOut k bs).outLen = s.outLen := rfl
@[simp] theorem writeOut_opnd (k : Nat) (bs : List Byte) : (s.writeOut k bs).opnd = s.opnd := rfl
@[simp] theorem writeOut_stats (k : Nat) (bs : List Byte) : (s.writeOut k bs).stats = s.stats := rfl
@[simp] theorem writeOut_seq (k : Nat) (bs : List Byte) : (s.writeOut k bs).seq = s.seq := rfl
@[simp] theorem writeOut_acc (k : Nat) (bs : List Byte) : (s.writeOut k bs).acc = s.acc := rfl
@[simp] theorem writeOut_mem (k : Nat) (bs : List Byte) : (s.writeOut k bs).mem = s.mem.writeBytes (s.opnd.dstAddr.toNat + k) bs := rfl
@[simp] theorem writeOut_host (k : Nat) (bs : List Byte) : (s.writeOut k bs).host = s.host := rfl
@[simp] theorem writeOut_sched (k : Nat) (bs : List Byte) : (s.writeOut k bs).sched = s.sched := rfl

/-! ### endStat -/

@[simp] theorem endStat_cmd (x : Nat) : (State.endStat x s).cmd = s.cmd := rfl
@[simp] theorem endStat_status (x : Nat) : (State.endStat x s).status = s.status := rfl
@[simp] theorem endStat_errcode (x : Nat) : (State.endStat x s).errcode = s.errcode := rfl
@[simp] theorem endStat_outLen (x : Nat) : (State.endStat x s).outLen = s.outLen := rfl
@[simp] theorem endStat_opnd (x : Nat) : (State.endStat x s).opnd = s.opnd := rfl
@[simp] theorem endStat_stats (x : Nat) : (State.endStat x s).stats = StatRegs.ofSums x s.acc := rfl
@[simp] theorem endStat_seq (x : Nat) : (State.endStat x s).seq = ⟨.quant, 0, []⟩ := rfl
@[simp] theorem endStat_acc (x : Nat) : (State.endStat x s).acc = s.acc := rfl
@[simp] theorem endStat_mem (x : Nat) : (State.endStat x s).mem = s.mem := rfl
@[simp] theorem endStat_host (x : Nat) : (State.endStat x s).host = s.host := rfl
@[simp] theorem endStat_sched (x : Nat) : (State.endStat x s).sched = s.sched := rfl

/-! ### statUnit -/

@[simp] theorem statUnit_cmd (i : Nat) : (statUnit i s).cmd = s.cmd := rfl
@[simp] theorem statUnit_status (i : Nat) : (statUnit i s).status = s.status := rfl
@[simp] theorem statUnit_errcode (i : Nat) : (statUnit i s).errcode = s.errcode := rfl
@[simp] theorem statUnit_outLen (i : Nat) : (statUnit i s).outLen = s.outLen := rfl
@[simp] theorem statUnit_opnd (i : Nat) : (statUnit i s).opnd = s.opnd := rfl
@[simp] theorem statUnit_stats (i : Nat) : (statUnit i s).stats = s.stats := rfl
@[simp] theorem statUnit_seq (i : Nat) : (statUnit i s).seq = s.seq := rfl
@[simp] theorem statUnit_mem (i : Nat) : (statUnit i s).mem = s.mem := rfl
@[simp] theorem statUnit_host (i : Nat) : (statUnit i s).host = s.host := rfl
@[simp] theorem statUnit_sched (i : Nat) : (statUnit i s).sched = s.sched := rfl

/-! ### quantUnit -/

@[simp] theorem quantUnit_cmd (x k : Nat) : (quantUnit x k s).cmd = s.cmd := rfl
@[simp] theorem quantUnit_status (x k : Nat) : (quantUnit x k s).status = s.status := rfl
@[simp] theorem quantUnit_errcode (x k : Nat) : (quantUnit x k s).errcode = s.errcode := rfl
@[simp] theorem quantUnit_outLen (x k : Nat) : (quantUnit x k s).outLen = s.outLen := rfl
@[simp] theorem quantUnit_opnd (x k : Nat) : (quantUnit x k s).opnd = s.opnd := rfl
@[simp] theorem quantUnit_stats (x k : Nat) : (quantUnit x k s).stats = s.stats := rfl
@[simp] theorem quantUnit_seq (x k : Nat) : (quantUnit x k s).seq = s.seq := rfl
@[simp] theorem quantUnit_acc (x k : Nat) : (quantUnit x k s).acc = s.acc := rfl
@[simp] theorem quantUnit_host (x k : Nat) : (quantUnit x k s).host = s.host := rfl
@[simp] theorem quantUnit_sched (x k : Nat) : (quantUnit x k s).sched = s.sched := rfl

/-! ### unpackUnit -/

@[simp] theorem unpackUnit_cmd (c : Codec) (i : Nat) : (unpackUnit c i s).cmd = s.cmd := rfl
@[simp] theorem unpackUnit_status (c : Codec) (i : Nat) : (unpackUnit c i s).status = s.status := rfl
@[simp] theorem unpackUnit_errcode (c : Codec) (i : Nat) : (unpackUnit c i s).errcode = s.errcode := rfl
@[simp] theorem unpackUnit_outLen (c : Codec) (i : Nat) : (unpackUnit c i s).outLen = s.outLen := rfl
@[simp] theorem unpackUnit_opnd (c : Codec) (i : Nat) : (unpackUnit c i s).opnd = s.opnd := rfl
@[simp] theorem unpackUnit_stats (c : Codec) (i : Nat) : (unpackUnit c i s).stats = s.stats := rfl
@[simp] theorem unpackUnit_seq (c : Codec) (i : Nat) : (unpackUnit c i s).seq = s.seq := rfl
@[simp] theorem unpackUnit_acc (c : Codec) (i : Nat) : (unpackUnit c i s).acc = s.acc := rfl
@[simp] theorem unpackUnit_host (c : Codec) (i : Nat) : (unpackUnit c i s).host = s.host := rfl
@[simp] theorem unpackUnit_sched (c : Codec) (i : Nat) : (unpackUnit c i s).sched = s.sched := rfl

/-! ### lookupUnit -/

@[simp] theorem lookupUnit_cmd (c : Codec) (i : Nat) : (lookupUnit c i s).cmd = s.cmd := rfl
@[simp] theorem lookupUnit_status (c : Codec) (i : Nat) : (lookupUnit c i s).status = s.status := rfl
@[simp] theorem lookupUnit_errcode (c : Codec) (i : Nat) : (lookupUnit c i s).errcode = s.errcode := rfl
@[simp] theorem lookupUnit_outLen (c : Codec) (i : Nat) : (lookupUnit c i s).outLen = s.outLen := rfl
@[simp] theorem lookupUnit_opnd (c : Codec) (i : Nat) : (lookupUnit c i s).opnd = s.opnd := rfl
@[simp] theorem lookupUnit_stats (c : Codec) (i : Nat) : (lookupUnit c i s).stats = s.stats := rfl
@[simp] theorem lookupUnit_seq (c : Codec) (i : Nat) : (lookupUnit c i s).seq = s.seq := rfl
@[simp] theorem lookupUnit_acc (c : Codec) (i : Nat) : (lookupUnit c i s).acc = s.acc := rfl
@[simp] theorem lookupUnit_host (c : Codec) (i : Nat) : (lookupUnit c i s).host = s.host := rfl
@[simp] theorem lookupUnit_sched (c : Codec) (i : Nat) : (lookupUnit c i s).sched = s.sched := rfl

/-! ### packUnit -/

@[simp] theorem packUnit_cmd (c : Codec) (i : Nat) : (packUnit c i s).cmd = s.cmd := rfl
@[simp] theorem packUnit_status (c : Codec) (i : Nat) : (packUnit c i s).status = s.status := rfl
@[simp] theorem packUnit_errcode (c : Codec) (i : Nat) : (packUnit c i s).errcode = s.errcode := rfl
@[simp] theorem packUnit_outLen (c : Codec) (i : Nat) : (packUnit c i s).outLen = s.outLen := rfl
@[simp] theorem packUnit_opnd (c : Codec) (i : Nat) : (packUnit c i s).opnd = s.opnd := rfl
@[simp] theorem packUnit_stats (c : Codec) (i : Nat) : (packUnit c i s).stats = s.stats := rfl
@[simp] theorem packUnit_seq (c : Codec) (i : Nat) : (packUnit c i s).seq = s.seq := rfl
@[simp] theorem packUnit_acc (c : Codec) (i : Nat) : (packUnit c i s).acc = s.acc := rfl
@[simp] theorem packUnit_host (c : Codec) (i : Nat) : (packUnit c i s).host = s.host := rfl
@[simp] theorem packUnit_sched (c : Codec) (i : Nat) : (packUnit c i s).sched = s.sched := rfl

/-! ### reply -/

@[simp] theorem reply_cmd (r : Reply) : (s.reply r).cmd = s.cmd := rfl
@[simp] theorem reply_status (r : Reply) : (s.reply r).status = s.status := rfl
@[simp] theorem reply_errcode (r : Reply) : (s.reply r).errcode = s.errcode := rfl
@[simp] theorem reply_outLen (r : Reply) : (s.reply r).outLen = s.outLen := rfl
@[simp] theorem reply_opnd (r : Reply) : (s.reply r).opnd = s.opnd := rfl
@[simp] theorem reply_stats (r : Reply) : (s.reply r).stats = s.stats := rfl
@[simp] theorem reply_seq (r : Reply) : (s.reply r).seq = s.seq := rfl
@[simp] theorem reply_acc (r : Reply) : (s.reply r).acc = s.acc := rfl
@[simp] theorem reply_mem (r : Reply) : (s.reply r).mem = s.mem := rfl
@[simp] theorem reply_host (r : Reply) : (s.reply r).host = { s.host with replies := r :: s.host.replies } := rfl
@[simp] theorem reply_sched (r : Reply) : (s.reply r).sched = s.sched := rfl

/-! ### withInputs -/

@[simp] theorem withInputs_cmd (l : List Input) : (s.withInputs l).cmd = s.cmd := rfl
@[simp] theorem withInputs_status (l : List Input) : (s.withInputs l).status = s.status := rfl
@[simp] theorem withInputs_errcode (l : List Input) : (s.withInputs l).errcode = s.errcode := rfl
@[simp] theorem withInputs_outLen (l : List Input) : (s.withInputs l).outLen = s.outLen := rfl
@[simp] theorem withInputs_opnd (l : List Input) : (s.withInputs l).opnd = s.opnd := rfl
@[simp] theorem withInputs_stats (l : List Input) : (s.withInputs l).stats = s.stats := rfl
@[simp] theorem withInputs_seq (l : List Input) : (s.withInputs l).seq = s.seq := rfl
@[simp] theorem withInputs_acc (l : List Input) : (s.withInputs l).acc = s.acc := rfl
@[simp] theorem withInputs_mem (l : List Input) : (s.withInputs l).mem = s.mem := rfl
@[simp] theorem withInputs_host (l : List Input) : (s.withInputs l).host = { s.host with inputs := l } := rfl
@[simp] theorem withInputs_sched (l : List Input) : (s.withInputs l).sched = s.sched := rfl

/-! ### afterReset -/

@[simp] theorem afterReset_cmd : (s.afterReset).cmd = 0 := rfl
@[simp] theorem afterReset_status : (s.afterReset).status = ⟨false, false, false⟩ := rfl
@[simp] theorem afterReset_errcode : (s.afterReset).errcode = 0 := rfl
@[simp] theorem afterReset_outLen : (s.afterReset).outLen = 0 := rfl
@[simp] theorem afterReset_opnd : (s.afterReset).opnd = ⟨0, 0, 0, 0⟩ := rfl
@[simp] theorem afterReset_stats : (s.afterReset).stats = ⟨0, 0, 0, 0, 0⟩ := rfl
@[simp] theorem afterReset_seq : (s.afterReset).seq = ⟨.idle, 0, []⟩ := rfl
@[simp] theorem afterReset_acc : (s.afterReset).acc = ⟨0, 0, 0, 0⟩ := rfl
@[simp] theorem afterReset_mem : (s.afterReset).mem = s.mem := rfl
@[simp] theorem afterReset_host : (s.afterReset).host = { s.host with handed := [] } := rfl
@[simp] theorem afterReset_sched : (s.afterReset).sched = s.sched := rfl

/-! ### completed -/

@[simp] theorem completed_cmd (i : Instr) (b : Buffers) (f : Nat → Byte) : (s.completed i b f).cmd = encode i := rfl
@[simp] theorem completed_status (i : Instr) (b : Buffers) (f : Nat → Byte) : (s.completed i b f).status = ⟨false, true, false⟩ := rfl
@[simp] theorem completed_errcode (i : Instr) (b : Buffers) (f : Nat → Byte) : (s.completed i b f).errcode = 0 := rfl
@[simp] theorem completed_outLen (i : Instr) (b : Buffers) (f : Nat → Byte) : (s.completed i b f).outLen = BitVec.ofNat 32 b.dst.len := rfl
@[simp] theorem completed_opnd (i : Instr) (b : Buffers) (f : Nat → Byte) : (s.completed i b f).opnd = s.opnd := rfl
@[simp] theorem completed_stats (i : Instr) (b : Buffers) (f : Nat → Byte) : (s.completed i b f).stats = s.stats := rfl
@[simp] theorem completed_seq (i : Instr) (b : Buffers) (f : Nat → Byte) : (s.completed i b f).seq = ⟨.idle, 0, []⟩ := rfl
@[simp] theorem completed_acc (i : Instr) (b : Buffers) (f : Nat → Byte) : (s.completed i b f).acc = s.acc := rfl
@[simp] theorem completed_mem (i : Instr) (b : Buffers) (f : Nat → Byte) : (s.completed i b f).mem = s.mem.writeBytes b.dst.base ((List.range b.dst.len).map f) := rfl
@[simp] theorem completed_host (i : Instr) (b : Buffers) (f : Nat → Byte) : (s.completed i b f).host = { s.host with handed := b :: s.host.handed } := rfl
@[simp] theorem completed_sched (i : Instr) (b : Buffers) (f : Nat → Byte) : (s.completed i b f).sched = s.sched := rfl

/-! ### markDone -/

@[simp] theorem markDone_cmd (m : Mode) (u : Nat) : (State.markDone m u s).cmd = s.cmd := by cases m <;> rfl
@[simp] theorem markDone_status (m : Mode) (u : Nat) : (State.markDone m u s).status = s.status := by cases m <;> rfl
@[simp] theorem markDone_errcode (m : Mode) (u : Nat) : (State.markDone m u s).errcode = s.errcode := by cases m <;> rfl
@[simp] theorem markDone_outLen (m : Mode) (u : Nat) : (State.markDone m u s).outLen = s.outLen := by cases m <;> rfl
@[simp] theorem markDone_opnd (m : Mode) (u : Nat) : (State.markDone m u s).opnd = s.opnd := by cases m <;> rfl
@[simp] theorem markDone_stats (m : Mode) (u : Nat) : (State.markDone m u s).stats = s.stats := by cases m <;> rfl
@[simp] theorem markDone_acc (m : Mode) (u : Nat) : (State.markDone m u s).acc = s.acc := by cases m <;> rfl
@[simp] theorem markDone_mem (m : Mode) (u : Nat) : (State.markDone m u s).mem = s.mem := by cases m <;> rfl
@[simp] theorem markDone_host (m : Mode) (u : Nat) : (State.markDone m u s).host = s.host := by cases m <;> rfl
@[simp] theorem markDone_sched (m : Mode) (u : Nat) : (State.markDone m u s).sched = s.sched := by cases m <;> rfl
@[simp] theorem markDone_seq_phase (m : Mode) (u : Nat) : (State.markDone m u s).seq.phase = s.seq.phase := by cases m <;> rfl

/-! ### handBack -/

@[simp] theorem handBack_cmd (o : Nat) : (s.handBack o).cmd = s.cmd := by unfold State.handBack; split <;> rfl
@[simp] theorem handBack_status (o : Nat) : (s.handBack o).status = s.status := by unfold State.handBack; split <;> rfl
@[simp] theorem handBack_errcode (o : Nat) : (s.handBack o).errcode = s.errcode := by unfold State.handBack; split <;> rfl
@[simp] theorem handBack_outLen (o : Nat) : (s.handBack o).outLen = s.outLen := by unfold State.handBack; split <;> rfl
@[simp] theorem handBack_opnd (o : Nat) : (s.handBack o).opnd = s.opnd := by unfold State.handBack; split <;> rfl
@[simp] theorem handBack_stats (o : Nat) : (s.handBack o).stats = s.stats := by unfold State.handBack; split <;> rfl
@[simp] theorem handBack_seq (o : Nat) : (s.handBack o).seq = s.seq := by unfold State.handBack; split <;> rfl
@[simp] theorem handBack_acc (o : Nat) : (s.handBack o).acc = s.acc := by unfold State.handBack; split <;> rfl
@[simp] theorem handBack_mem (o : Nat) : (s.handBack o).mem = s.mem := by unfold State.handBack; split <;> rfl
@[simp] theorem handBack_sched (o : Nat) : (s.handBack o).sched = s.sched := by unfold State.handBack; split <;> rfl
@[simp] theorem handBack_inputs (o : Nat) : (s.handBack o).host.inputs = s.host.inputs := by
  unfold State.handBack; split <;> rfl
@[simp] theorem handBack_replies (o : Nat) : (s.handBack o).host.replies = s.host.replies := by
  unfold State.handBack; split <;> rfl
@[simp] theorem handBack_unbacked (o : Nat) : (s.handBack o).host.unbacked = s.host.unbacked := by
  unfold State.handBack; split <;> rfl

/-- A read that does not return `DONE = 1` hands nothing back. -/
theorem handBack_of_not_done (o : Nat) (h : s.status.done = false) : s.handBack o = s := by
  simp [State.handBack, h]

/-! ### writeOperand -/

@[simp] theorem writeOperand_cmd (o : Nat) (v : Word) : (s.writeOperand o v).cmd = s.cmd := by unfold State.writeOperand; split <;> rfl
@[simp] theorem writeOperand_status (o : Nat) (v : Word) : (s.writeOperand o v).status = s.status := by unfold State.writeOperand; split <;> rfl
@[simp] theorem writeOperand_errcode (o : Nat) (v : Word) : (s.writeOperand o v).errcode = s.errcode := by unfold State.writeOperand; split <;> rfl
@[simp] theorem writeOperand_outLen (o : Nat) (v : Word) : (s.writeOperand o v).outLen = s.outLen := by unfold State.writeOperand; split <;> rfl
@[simp] theorem writeOperand_stats (o : Nat) (v : Word) : (s.writeOperand o v).stats = s.stats := by unfold State.writeOperand; split <;> rfl
@[simp] theorem writeOperand_seq (o : Nat) (v : Word) : (s.writeOperand o v).seq = s.seq := by unfold State.writeOperand; split <;> rfl
@[simp] theorem writeOperand_acc (o : Nat) (v : Word) : (s.writeOperand o v).acc = s.acc := by unfold State.writeOperand; split <;> rfl
@[simp] theorem writeOperand_mem (o : Nat) (v : Word) : (s.writeOperand o v).mem = s.mem := by unfold State.writeOperand; split <;> rfl
@[simp] theorem writeOperand_host (o : Nat) (v : Word) : (s.writeOperand o v).host = s.host := by unfold State.writeOperand; split <;> rfl
@[simp] theorem writeOperand_sched (o : Nat) (v : Word) : (s.writeOperand o v).sched = s.sched := by unfold State.writeOperand; split <;> rfl

/-- A write to an offset of no operand register is ignored (R29 (b)). -/
theorem writeOperand_other (o : Nat) (v : Word) (h : o ∉ [0x0C, 0x10, 0x14, 0x18]) : s.writeOperand o v = s := by
  unfold State.writeOperand
  split <;> simp_all

/-! ### Derived values -/

@[simp] theorem accepted_idle {f : Status} (h : f.busy = false) : f.accepted = ⟨false, false, false⟩ := by
  simp [Status.accepted, h]

/-- Validation reads the operand registers only (R252). -/
theorem validate_congr (i : Instr) {s t : State} (h : s.opnd = t.opnd) : validate i s = validate i t := by
  cases i <;>
    simp [validate, checkAllocating, checkBuffered, checkRequant, State.buffers, State.source, State.destination, h]

end Sys2Proof.Machine
end

