-- ==== Sys2Proof/Laws/Codec.lean ====
section
/-! SUPPORT. The catalog and the data functions of pack and unpack: what a resolved codec is, the entries of an unpacked
byte, that the lookup row is the unpacked byte, and what one work unit writes. -/

namespace Sys2Proof.Machine

/-! ### The catalog -/

/-- What a resolved width and order are (R121, R122, R123). -/
theorem resolve_ok {n o : Nat} {c : Codec} (h : resolve n o = .ok c) :
    (n = 1 ∨ n = 2 ∨ n = 4) ∧ (o = 0x62 ∨ o = 0x6C ∨ o = 0x00) ∧ c.bw = n ∧ c.elements = 8 / n ∧
      c.order = if o = 0x6C then .little else .big := by
  unfold resolve resolveWidth resolveOrder at h
  split_ifs at h <;> simp only [Except.ok.injEq] at h <;> subst h <;>
    simp_all [Codec.bw, Codec.elements, Width.bits]

theorem elements_pos (c : Codec) : 0 < c.elements := by
  obtain ⟨w, o⟩ := c
  cases w <;> cases o <;> decide

theorem elements_mul_bw (c : Codec) : c.elements * c.bw = 8 := by
  obtain ⟨w, o⟩ := c
  cases w <;> cases o <;> decide

theorem bw_pos (c : Codec) : 0 < c.bw := by
  obtain ⟨w, o⟩ := c
  cases w <;> cases o <;> decide

theorem fieldAt_lt {c : Codec} {p : Nat} (h : p < c.elements) : c.fieldAt p < c.elements := by
  unfold Codec.fieldAt
  split <;> omega

/-! ### Fields and unpacked bytes -/

/-- A field is a slice of the byte (R140). -/
theorem field_eq_slice (c : Codec) (b : Byte) (j : Nat) :
    Codec.field c b j = slice b.toNat (j * c.bw + c.bw - 1) (j * c.bw) := by
  have h := bw_pos c
  unfold Codec.field slice Codec.fmask
  rw [Nat.and_two_pow_sub_one_eq_mod, Nat.shiftRight_eq_div_pow,
    show j * c.bw + c.bw - 1 - j * c.bw + 1 = c.bw by omega]

/-- A field holds `BW` bits (R140). -/
theorem field_lt (c : Codec) (b : Byte) (j : Nat) : Codec.field c b j < 2 ^ c.bw := by
  unfold Codec.field Codec.fmask
  rw [Nat.and_two_pow_sub_one_eq_mod]
  exact Nat.mod_lt _ (Nat.two_pow_pos _)

theorem two_pow_bw_le (c : Codec) : 2 ^ c.bw ≤ 256 := by
  obtain ⟨w, o⟩ := c
  cases w <;> cases o <;> decide

@[simp] theorem unpackByte_length (c : Codec) (b : Byte) : (unpackByte c b).length = c.elements := by
  simp [unpackByte]

theorem unpackByte_getElem (c : Codec) (b : Byte) (p : Nat) (h : p < (unpackByte c b).length) :
    (unpackByte c b)[p] = BitVec.ofNat 8 (Codec.field c b (c.fieldAt p)) := by
  simp [unpackByte]

theorem unpackByte_getElem_toNat (c : Codec) (b : Byte) (p : Nat) (h : p < (unpackByte c b).length) :
    (unpackByte c b)[p].toNat = Codec.field c b (c.fieldAt p) := by
  rw [unpackByte_getElem, BitVec.toNat_ofNat, Nat.mod_eq_of_lt]
  exact lt_of_lt_of_le (field_lt _ _ _) (two_pow_bw_le c)

/-! ### The lookup ROM -/

/-- The table of a codec's rows starts at its base (R181). -/
theorem lutTable_row (c : Codec) (k : Nat) (h : k < 256 * c.elements) : lutTable (Codec.base c + k) = c := by
  obtain ⟨w, o⟩ := c
  cases w <;> cases o <;>
    simp only [Codec.base, lutBase, Width.index, Order.index, Codec.elements, Codec.bw, Width.bits, Nat.reduceDiv,
      lutTable] at h ⊢ <;>
    split_ifs <;> first | rfl | omega

/-- The entry of a table is the field of its byte that the position shows (R180). -/
theorem tableEntry_eq (c : Codec) (b : Byte) (p : Nat) :
    tableEntry c b.toNat p = BitVec.ofNat 8 (Codec.field c b (c.fieldAt p)) := by
  obtain ⟨w, o⟩ := c
  cases o <;> rfl

/-- The ROM at `base + row*E + p` holds entry `p` of the row (R181). -/
theorem lutRead_row (c : Codec) (i p : Nat) (a : Fin lutSize) (hi : i < 256) (hp : p < c.elements)
    (ha : a.val = Codec.base c + (i * c.elements + p)) : lutRead a = tableEntry c i p := by
  have hk : i * c.elements + p < 256 * c.elements := by nlinarith
  have hd : (i * c.elements + p) / c.elements = i := by
    rw [Nat.mul_comm, Nat.mul_add_div (elements_pos c), Nat.div_eq_of_lt hp, Nat.add_zero]
  have hm : (i * c.elements + p) % c.elements = p := by
    rw [Nat.mul_comm, Nat.mul_add_mod, Nat.mod_eq_of_lt hp]
  simp only [lutRead, ha, lutTable_row c _ hk, Nat.add_sub_cancel_left, hd, hm]

/-- The ROM entry of row `b`, position `p`, is the field of `b` that position `p` shows (R180, R183). -/
theorem lutRead_lutAddress (c : Codec) (b : Byte) (p : Fin c.elements) :
    lutRead (lutAddress c b p) = BitVec.ofNat 8 (Codec.field c b (c.fieldAt p)) := by
  rw [lutRead_row c b.toNat p _ b.isLt p.isLt (by simp [lutAddress, Nat.add_assoc]), tableEntry_eq]

/-- The lookup row of a byte is its unpacked byte (R186). -/
theorem lookupRow_eq (c : Codec) (b : Byte) : lookupRow c b = unpackByte c b := by
  apply List.ext_getElem
  · simp [lookupRow]
  · intro p h1 h2
    rw [unpackByte_getElem]
    simp only [lookupRow, List.getElem_map, List.getElem_finRange]
    exact lutRead_lutAddress c b _

theorem lookupUnit_eq (c : Codec) (i : Nat) (s : State) : lookupUnit c i s = unpackUnit c i s := by
  simp [lookupUnit, unpackUnit, lookupRow_eq]

end Sys2Proof.Machine
end

