-- ==== Sys2Proof/Laws/Encoding.lean ====
section
/-! SUPPORT. The command word under the mask of the opcode map, as the number its fixed fields make. -/

namespace Sys2Proof

theorem getLsbD_word (w : Word) (k : Nat) : w.getLsbD k = decide (w.toNat / 2 ^ k % 2 = 1) := by
  rw [BitVec.getLsbD, Nat.testBit_eq_decide_div_mod_eq]

/-- The number of the fields that the mask 0xFF0000DF fixes: `OP`, `IMPL`, `RSV0` and `RSV1` (R97). -/
def fixedFields (v : Nat) : Nat := slice v 3 0 + 16 * slice v 4 4 + 64 * slice v 7 6 + 2 ^ 24 * slice v 31 24

theorem fixedFields_lt (w : Word) : fixedFields w.toNat < 2 ^ 32 := by
  have := w.isLt
  simp only [fixedFields, slice]
  omega

/-- A word under the mask is the word of its fixed fields (R97). -/
theorem masked_word (w : Word) : w &&& 0xFF0000DF#32 = BitVec.ofNat 32 (fixedFields w.toNat) := by
  apply BitVec.eq_of_getLsbD_eq
  intro k hk
  rw [BitVec.getLsbD_and, getLsbD_word, getLsbD_word, getLsbD_word, BitVec.toNat_ofNat, BitVec.toNat_ofNat,
    Nat.mod_eq_of_lt (fixedFields_lt w)]
  have := w.isLt
  simp only [fixedFields, slice]
  interval_cases k <;> simp <;> omega

/-- A word has a value under the mask exactly when its fixed fields make that number. -/
theorem masked_word_eq_iff (w : Word) (p : Nat) (hp : p < 2 ^ 32) :
    w &&& 0xFF0000DF#32 = BitVec.ofNat 32 p ↔ fixedFields w.toNat = p := by
  rw [masked_word]
  constructor
  · intro h
    have := congrArg BitVec.toNat h
    rwa [BitVec.toNat_ofNat, BitVec.toNat_ofNat, Nat.mod_eq_of_lt (fixedFields_lt w), Nat.mod_eq_of_lt hp] at this
  · rintro rfl
    rfl

/-- The number of a command word (R90). -/
theorem commandWord_toNat {op impl par n o : Nat} (h1 : op < 16) (h2 : impl < 2) (h3 : par < 2) (h4 : n < 256)
    (h5 : o < 256) : (commandWord op impl par n o).toNat = op + impl * 16 + par * 32 + n * 256 + o * 65536 := by
  rw [commandWord, BitVec.toNat_ofNat, Nat.mod_eq_of_lt (by omega)]

theorem Mode.bit_lt (m : Mode) : m.bit < 2 := by cases m <;> decide

/-- The command word lies in the row of its `OP` and `IMPL` (R97). -/
theorem commandWord_masked {op impl n o : Nat} (m : Mode) (h1 : op < 16) (h2 : impl < 2) (h4 : n < 256)
    (h5 : o < 256) : commandWord op impl m.bit n o &&& 0xFF0000DF#32 = BitVec.ofNat 32 (op + 16 * impl) := by
  have hm := m.bit_lt
  rw [masked_word_eq_iff _ _ (by omega), commandWord_toNat h1 h2 hm h4 h5]
  simp only [fixedFields, slice]
  omega

/-- The immediates of a well-formed pack or unpack fit their fields. -/
theorem fits_of_and {n o : Nat} (h : (nbitsFits n && ordtokFits o) = true) : n < 256 ∧ o < 256 := by
  simpa [nbitsFits, ordtokFits] using h

end Sys2Proof
end

