-- ==== Sys2Proof/Laws/Memory.lean ====
section
/-! SUPPORT. The laws of data memory: what is read after a write, that a write leaves every other address alone, that every
operation keeps the canonical form, and that a memory in that form is determined by what it holds. -/

namespace Sys2Proof.Machine

variable (m : Memory)

theorem find_write_same (a : Nat) (v : Byte) : (m.write a v).find? a = some v := by
  induction m with
  | nil => simp [Memory.write, Memory.find?]
  | cons c m ih =>
    obtain ⟨k, w⟩ := c
    simp only [Memory.write]
    split
    · simp [Memory.find?]
    · split
      · simp [Memory.find?]
      · rename_i h
        simp [Memory.find?, Ne.symm h, ih]

theorem find_write_other {a x : Nat} (v : Byte) (h : x ≠ a) : (m.write a v).find? x = m.find? x := by
  induction m with
  | nil => simp [Memory.write, Memory.find?, Ne.symm h]
  | cons c m ih =>
    obtain ⟨k, w⟩ := c
    simp only [Memory.write]
    split
    · simp [Memory.find?, Ne.symm h]
    · split
      · rename_i h2
        subst h2
        simp [Memory.find?, Ne.symm h]
      · simp [Memory.find?, ih]

@[simp] theorem read_write_same (a : Nat) (v : Byte) : (m.write a v).read a = v := by
  simp [Memory.read, find_write_same]

theorem read_write_other {a x : Nat} (v : Byte) (h : x ≠ a) : (m.write a v).read x = m.read x := by
  simp [Memory.read, find_write_other m v h]

/-- Writing bytes leaves every address outside them alone. -/
theorem find_writeBytes_outside (bs : List Byte) {a x : Nat} (h : ¬ (a ≤ x ∧ x < a + bs.length)) :
    (m.writeBytes a bs).find? x = m.find? x := by
  induction bs generalizing m a with
  | nil => rfl
  | cons b bs ih =>
    simp only [List.length_cons] at h
    rw [Memory.writeBytes, ih _ (by omega), find_write_other _ _ (by omega)]

theorem read_writeBytes_outside (bs : List Byte) {a x : Nat} (h : ¬ (a ≤ x ∧ x < a + bs.length)) :
    (m.writeBytes a bs).read x = m.read x := by
  simp [Memory.read, find_writeBytes_outside m bs h]

/-- Written bytes are found where they were written. -/
theorem find_writeBytes_inside (bs : List Byte) {a p : Nat} (h : p < bs.length) :
    (m.writeBytes a bs).find? (a + p) = some bs[p] := by
  induction bs generalizing m a p with
  | nil => simp at h
  | cons b bs ih =>
    cases p with
    | zero =>
      rw [Memory.writeBytes, find_writeBytes_outside _ _ (by omega)]
      simpa using find_write_same m a b
    | succ p =>
      rw [Memory.writeBytes, show a + (p + 1) = (a + 1) + p by omega, ih _ (by simpa using h)]
      simp

theorem read_writeBytes_inside (bs : List Byte) {a p : Nat} (h : p < bs.length) :
    (m.writeBytes a bs).read (a + p) = bs[p] := by
  simp [Memory.read, find_writeBytes_inside m bs h]

/-! ### The canonical form -/

theorem write_mem {a : Nat} {v : Byte} {c : Host.Cell} (h : c ∈ m.write a v) : c = (a, v) ∨ c ∈ m := by
  induction m with
  | nil => simpa [Memory.write] using h
  | cons d m ih =>
    obtain ⟨k, w⟩ := d
    simp only [Memory.write] at h
    split at h
    · simpa using h
    · split at h
      · simp only [List.mem_cons] at h ⊢
        tauto
      · simp only [List.mem_cons] at h ⊢
        rcases h with h | h
        · exact .inr (.inl h)
        · rcases ih h with h | h
          · exact .inl h
          · exact .inr (.inr h)

/-- A write to an address of data memory keeps the canonical form. -/
theorem write_wf {m : Memory} {a : Nat} (v : Byte) (h : m.wf) (ha : a < 2 ^ 32) : (m.write a v).wf := by
  refine ⟨?_, fun c hc => ?_⟩
  · have hp := h.1
    clear h
    induction m with
    | nil => simp [Memory.write]
    | cons d m ih =>
      obtain ⟨k, w⟩ := d
      rw [List.pairwise_cons] at hp
      simp only [Memory.write]
      split
      · rename_i hk
        refine List.pairwise_cons.2 ⟨fun c hc => ?_, List.pairwise_cons.2 hp⟩
        rcases List.mem_cons.1 hc with rfl | hc
        · exact hk
        · exact lt_trans hk (hp.1 c hc)
      · split
        · rename_i hk
          subst hk
          exact List.pairwise_cons.2 hp
        · refine List.pairwise_cons.2 ⟨fun c hc => ?_, ih hp.2⟩
          rcases write_mem m hc with rfl | hc
          · simp only
            omega
          · exact hp.1 c hc
  · rcases write_mem m hc with rfl | hc
    · exact ha
    · exact h.2 c hc

/-- Writes to addresses of data memory keep the canonical form. -/
theorem writeBytes_wf (bs : List Byte) {m : Memory} {a : Nat} (h : m.wf) (ha : a + bs.length ≤ 2 ^ 32) :
    (m.writeBytes a bs).wf := by
  induction bs generalizing m a with
  | nil => exact h
  | cons b bs ih =>
    simp only [List.length_cons] at ha
    exact ih (write_wf b h (by omega)) (by omega)

theorem find_lt_head {k : Nat} (h : ∀ c ∈ m, k < c.1) : m.find? k = none := by
  induction m with
  | nil => rfl
  | cons d m ih =>
    have h1 := h d (by simp)
    simp only [Memory.find?]
    rw [if_neg (by omega)]
    exact ih fun c hc => h c (by simp [hc])

/-- Two memories in canonical form that hold the same values are the same data. -/
theorem memory_ext {m m' : Memory} (h : m.wf) (h' : m'.wf) (he : ∀ a, m.find? a = m'.find? a) : m = m' := by
  have hp := h.1
  have hp' := h'.1
  clear h h'
  induction m generalizing m' with
  | nil =>
    cases m' with
    | nil => rfl
    | cons d m' => simpa [Memory.find?] using he d.1
  | cons c m ih =>
    cases m' with
    | nil => simpa [Memory.find?] using he c.1
    | cons d m' =>
      rw [List.pairwise_cons] at hp hp'
      have hkey : c.1 = d.1 := by
        rcases lt_trichotomy c.1 d.1 with hlt | heq | hgt
        · have h1 := he c.1
          simp only [Memory.find?, if_neg (Nat.ne_of_gt hlt)] at h1
          rw [find_lt_head m' fun x hx => lt_trans hlt (hp'.1 x hx)] at h1
          simp at h1
        · exact heq
        · have h1 := he d.1
          simp only [Memory.find?, if_neg (Nat.ne_of_gt hgt)] at h1
          rw [find_lt_head m fun x hx => lt_trans hgt (hp.1 x hx)] at h1
          simp at h1
      have hval : c.2 = d.2 := by
        have h1 := he c.1
        simpa [Memory.find?, hkey] using h1
      have hcd : c = d := Prod.ext hkey hval
      subst hcd
      congr 1
      refine ih (fun a => ?_) hp.2 hp'.2
      by_cases ha : c.1 = a
      · subst ha
        rw [find_lt_head m hp.1, find_lt_head m' hp'.1]
      · simpa [Memory.find?, ha] using he a

end Sys2Proof.Machine
end

