-- ==== Sys2Proof/Laws/Units.lean ====
section
/-! SUPPORT. The choice of the next unit (`44_dispatch.md` R206, R207) and the record of performed units: what
`nextUnit` and `markDone` can do, said once. -/

namespace Sys2Proof.Machine

/-! ### firstUndone and chooseUnit -/

theorem filter_ge_succ_lt {done : List Nat} {u : Nat} (h : u ∈ done) :
    (done.filter fun d => decide (u + 1 ≤ d)).length < (done.filter fun d => decide (u ≤ d)).length := by
  induction done with
  | nil => simp at h
  | cons d ds ih =>
    have hle : (ds.filter fun d => decide (u + 1 ≤ d)).length ≤ (ds.filter fun d => decide (u ≤ d)).length :=
      (List.monotone_filter_right ds fun x hx => by simp only [decide_eq_true_eq] at *; omega).length_le
    simp only [List.filter_cons, decide_eq_true_eq]
    rcases List.mem_cons.1 h with rfl | h
    · rw [if_neg (by omega), if_pos (by omega), List.length_cons]
      omega
    · have := ih h
      split_ifs <;> (try rw [List.length_cons]) <;> (try rw [List.length_cons]) <;> omega

theorem firstUndone_notMem_aux (done : List Nat) (fuel u : Nat)
    (h : (done.filter fun d => decide (u ≤ d)).length ≤ fuel) : firstUndone done fuel u ∉ done := by
  induction fuel generalizing u with
  | zero =>
    intro hm
    have : u ∈ done.filter fun d => decide (u ≤ d) := by simpa [firstUndone] using hm
    have := List.length_pos_of_mem this
    omega
  | succ fuel ih =>
    simp only [firstUndone]
    split
    · rename_i hm
      have := filter_ge_succ_lt hm
      exact ih _ (by omega)
    · assumption

theorem firstUndone_le (done : List Nat) (fuel u : Nat) : firstUndone done fuel u ≤ u + fuel := by
  induction fuel generalizing u with
  | zero => simp [firstUndone]
  | succ fuel ih =>
    simp only [firstUndone]
    split
    · have := ih (u + 1)
      omega
    · omega

/-- The first undone unit is not in the list. -/
theorem firstUndone_notMem (done : List Nat) : firstUndone done done.length 0 ∉ done :=
  firstUndone_notMem_aux done _ 0 (List.length_filter_le _ _)

/-- It is a unit of the phase as long as fewer units are listed than the phase has. -/
theorem firstUndone_lt {done : List Nat} {units : Nat} (h : done.length < units) :
    firstUndone done done.length 0 < units := by
  have := firstUndone_le done done.length 0
  omega

/-- The chosen unit is an enabled one. -/
theorem chooseUnit_enabled {units : Nat} {done : List Nat} (pick : Nat) (h : done.length < units) :
    chooseUnit units pick done < units ∧ chooseUnit units pick done ∉ done := by
  unfold chooseUnit
  split
  · assumption
  · exact ⟨firstUndone_lt h, firstUndone_notMem done⟩

/-! ### insertUnit -/

@[simp] theorem mem_insertUnit {u v : Nat} {done : List Nat} : v ∈ insertUnit u done ↔ v = u ∨ v ∈ done := by
  induction done with
  | nil => simp [insertUnit]
  | cons d ds ih =>
    simp only [insertUnit]
    split
    · simp
    · split
      · rename_i h
        subst h
        simp
      · simp [ih]
        tauto

theorem insertUnit_sorted {u : Nat} {done : List Nat} (h : done.Pairwise (· < ·)) :
    (insertUnit u done).Pairwise (· < ·) := by
  induction done with
  | nil => simp [insertUnit]
  | cons d ds ih =>
    have h' := List.pairwise_cons.1 h
    simp only [insertUnit]
    split
    · rename_i hlt
      refine List.pairwise_cons.2 ⟨fun x hx => ?_, h⟩
      rcases List.mem_cons.1 hx with rfl | hx
      · exact hlt
      · exact lt_trans hlt (h'.1 x hx)
    · split
      · exact h
      · refine List.pairwise_cons.2 ⟨fun x hx => ?_, ih h'.2⟩
        rcases mem_insertUnit.1 hx with rfl | hx
        · omega
        · exact h'.1 x hx

theorem insertUnit_length {u : Nat} {done : List Nat} (h : u ∉ done) :
    (insertUnit u done).length = done.length + 1 := by
  induction done with
  | nil => simp [insertUnit]
  | cons d ds ih =>
    simp only [List.mem_cons, not_or] at h
    simp only [insertUnit]
    split
    · simp
    · simp [h.1, ih h.2]

/-! ### Sets of performed units -/

/-- A rising list of numbers below `n` is as long as `n` exactly when it holds them all. -/
theorem length_eq_iff_all {done : List Nat} {n : Nat} (hs : done.Pairwise (· < ·)) (hb : ∀ u ∈ done, u < n) :
    done.length = n ↔ ∀ u < n, u ∈ done := by
  have hnd : done.Nodup := hs.imp fun h => Nat.ne_of_lt h
  have hsub : done.toFinset ⊆ Finset.range n := fun x hx => by simpa using hb x (by simpa using hx)
  have hcard : done.toFinset.card = done.length := List.toFinset_card_of_nodup hnd
  constructor
  · intro hl u hu
    have : done.toFinset = Finset.range n := Finset.eq_of_subset_of_card_le hsub (by simp [hcard, hl])
    have : u ∈ done.toFinset := by simpa [this] using hu
    simpa using this
  · intro ha
    have : done.toFinset = Finset.range n :=
      Finset.Subset.antisymm hsub fun x hx => by simpa using ha x (by simpa using hx)
    rw [← hcard, this, Finset.card_range]

theorem length_le_of_within {done : List Nat} {n : Nat} (hs : done.Pairwise (· < ·)) (hb : ∀ u ∈ done, u < n) :
    done.length ≤ n := by
  have hnd : done.Nodup := hs.imp fun h => Nat.ne_of_lt h
  have hsub : done.toFinset ⊆ Finset.range n := fun x hx => by simpa using hb x (by simpa using hx)
  have := Finset.card_le_card hsub
  rwa [List.toFinset_card_of_nodup hnd, Finset.card_range] at this

/-- In parallel mode a unit is left exactly when the list is shorter than the phase. -/
theorem length_lt_iff_left {done : List Nat} {n : Nat} (hs : done.Pairwise (· < ·)) (hb : ∀ u ∈ done, u < n) :
    done.length < n ↔ ∃ u < n, u ∉ done := by
  have h1 := length_eq_iff_all hs hb
  have h2 := length_le_of_within hs hb
  constructor
  · intro h
    by_contra hc
    push Not at hc
    have := h1.2 hc
    omega
  · rintro ⟨u, hu, hm⟩
    by_contra hc
    exact hm (h1.1 (by omega) u hu)

/-! ### nextUnit -/

/-- What a chosen unit is, in either mode: an enabled one; the state changes in its free choices only. -/
theorem nextUnit_some {mode : Mode} {units u : Nat} {s t : State} (h : nextUnit mode units s = some (u, t)) :
    u < units ∧ t = { s with sched := t.sched } ∧
      match mode with
      | .seq => u = s.seq.unit ∧ t = s
      | .par => u ∉ s.seq.done := by
  unfold nextUnit at h
  cases mode with
  | seq =>
    simp only at h
    split at h
    · simp only [Option.some.injEq, Prod.mk.injEq] at h
      obtain ⟨rfl, rfl⟩ := h
      exact ⟨by assumption, rfl, rfl, rfl⟩
    · cases h
  | par =>
    simp only at h
    split at h
    · simp only [Option.some.injEq, Prod.mk.injEq] at h
      obtain ⟨rfl, rfl⟩ := h
      have := chooseUnit_enabled s.sched.pick (show s.seq.done.length < units by omega)
      exact ⟨this.1, rfl, this.2⟩
    · split at h
      · rename_i hl
        simp only [Option.some.injEq, Prod.mk.injEq] at h
        obtain ⟨rfl, rfl⟩ := h
        exact ⟨firstUndone_lt hl, rfl, firstUndone_notMem _⟩
      · cases h

/-- There is no next unit exactly when the count of performed units has reached that of the phase. -/
theorem nextUnit_none {mode : Mode} {units : Nat} {s : State} :
    nextUnit mode units s = none ↔
      units ≤ (match mode with | .seq => s.seq.unit | .par => s.seq.done.length) := by
  unfold nextUnit
  cases mode with
  | seq =>
    simp only
    split <;> simp <;> omega
  | par =>
    simp only
    split
    · simp
      omega
    · split
      · simp
        omega
      · simp
        omega

/-- A unit is left exactly when there is a next one. -/
theorem nextUnit_of_left {mode : Mode} {units : Nat} {s : State} (h : s.unitLeft mode units) :
    ∃ u t, nextUnit mode units s = some (u, t) := by
  cases hn : nextUnit mode units s with
  | some p => exact ⟨p.1, p.2, rfl⟩
  | none =>
    rw [nextUnit_none] at hn
    cases mode with
    | seq =>
      have h2 := h.2
      simp only at h2 hn
      omega
    | par =>
      have h2 := h.2
      have h1 := h.1
      simp only [Sequencer.within] at h1 h2 hn
      have := (length_lt_iff_left h1.2.1 h1.2.2).2 h2
      omega

/-- When every unit has been performed there is no next one. -/
theorem nextUnit_of_allPerformed {mode : Mode} {units : Nat} {s : State} (h : s.allPerformed mode units) :
    nextUnit mode units s = none := by
  rw [nextUnit_none]
  cases mode with
  | seq => exact le_of_eq h.2.symm
  | par => exact le_of_eq ((length_eq_iff_all h.1.2.1 h.1.2.2).2 h.2).symm

/-- While units are recorded as performed, there is a next one or all have been performed. -/
theorem unitLeft_or_allPerformed {mode : Mode} {units : Nat} {s : State} (h : s.seq.within mode units) :
    s.unitLeft mode units ∨ s.allPerformed mode units := by
  cases mode with
  | seq =>
    have h1 := h
    simp only [Sequencer.within] at h1
    rcases Nat.lt_or_ge s.seq.unit units with h2 | h2
    · exact .inl ⟨h, h2⟩
    · exact .inr ⟨h, by simp only; omega⟩
  | par =>
    by_cases h2 : ∃ u < units, u ∉ s.seq.done
    · exact .inl ⟨h, h2⟩
    · push Not at h2
      exact .inr ⟨h, h2⟩

/-- Recording a performed unit keeps the record within the phase. -/
theorem markDone_within {mode : Mode} {units u : Nat} {s t : State} (h : s.seq.within mode units)
    (hn : nextUnit mode units s = some (u, t)) (r : State) (hr : r.seq = s.seq) :
    (State.markDone mode u r).seq.within mode units := by
  have hu := nextUnit_some hn
  cases mode with
  | seq =>
    obtain ⟨hlt, -, rfl, -⟩ := hu
    simp only [Sequencer.within] at h
    simp [State.markDone, Sequencer.within, hr, h.2]
    omega
  | par =>
    obtain ⟨hlt, -, hm⟩ := hu
    simp only [Sequencer.within] at h
    simp only [State.markDone, Sequencer.within, hr]
    refine ⟨h.1, insertUnit_sorted h.2.1, fun v hv => ?_⟩
    rcases mem_insertUnit.1 hv with rfl | hv
    · exact hlt
    · exact h.2.2 v hv

end Sys2Proof.Machine
end

