-- ==== Sys2Proof/Laws/Exec.lean ====
section
/-! SUPPORT. What accept and an engine step can do, said once: the view that the six pack and unpack commands share, the two
outcomes of accept, and every way a meaning answers a next state. -/

namespace Sys2Proof.Machine

/-! ### Validation -/

/-- A range check that passes (`44_dispatch.md` R203). -/
theorem checkRanges_ok {b b' : Buffers} (h : checkRanges b = .ok b') :
    b' = b ∧ b.src.legal ∧ b.dst.legal ∧ ¬ b.src.overlaps b.dst := by
  unfold checkRanges at h
  split at h
  · rename_i hc
    exact ⟨(Except.ok.inj h).symm, hc⟩
  · cases h

/-- A command that passes validation has legal ranges that do not overlap, and they are those of its registers (R203). -/
theorem validate_ok {i : Instr} {s : State} {b : Buffers} (h : validate i s = .ok b) :
    b = s.buffers i ∧ b.src.legal ∧ b.dst.legal ∧ ¬ b.src.overlaps b.dst := by
  have key : checkRanges (s.buffers i) = .ok b := by
    cases i <;> simp only [validate, checkAllocating, checkBuffered, checkRequant] at h <;>
      (repeat' split at h) <;> first | exact h | cases h
  obtain ⟨rfl, h1⟩ := checkRanges_ok key
  exact ⟨rfl, h1⟩

/-- A `REQUANT` that passes validation has a source of a positive multiple of 4 bytes (`45_requant.md` R221). -/
theorem validate_requant_length {s : State} {b : Buffers} (h : validate .requant s = .ok b) :
    s.opnd.srcLen.toNat % 4 = 0 ∧ 0 < s.opnd.srcLen.toNat := by
  simp only [validate, checkRequant] at h
  split at h
  · cases h
  · omega

/-! ### Accept -/

theorem accept_error {i : Instr} {s : State} {e : CmdError} (h : validate i s = .error e) :
    accept i s = .next ((s.beginAccept (encode i)).fail e) := by
  simp [accept, h]

theorem accept_ok {i : Instr} {s : State} {b : Buffers} (h : validate i s = .ok b)
    (hb : s.backs b.src ∧ s.backs b.dst) : accept i s = .next ((s.beginAccept (encode i)).launch i b) := by
  simp only [accept, h]
  rw [if_pos hb]

theorem accept_unbacked {i : Instr} {s : State} {b : Buffers} (h : validate i s = .ok b)
    (hb : ¬ (s.backs b.src ∧ s.backs b.dst)) : accept i s = .refused .unbackedAddress := by
  simp only [accept, h]
  rw [if_neg hb]

/-- The two ways an accept answers a next state. -/
theorem accept_cases {i : Instr} {s t : State} (h : accept i s = .next t) :
    (∃ e, validate i s = .error e ∧ t = (s.beginAccept (encode i)).fail e) ∨
    (∃ b, validate i s = .ok b ∧ s.backs b.src ∧ s.backs b.dst ∧ t = (s.beginAccept (encode i)).launch i b) := by
  cases hv : validate i s with
  | error e =>
    rw [accept_error hv] at h
    exact .inl ⟨e, rfl, (Host.Outcome.next.inj h).symm⟩
  | ok b =>
    by_cases hb : s.backs b.src ∧ s.backs b.dst
    · rw [accept_ok hv hb] at h
      exact .inr ⟨b, rfl, hb.1, hb.2, (Host.Outcome.next.inj h).symm⟩
    · rw [accept_unbacked hv hb] at h
      cases h

/-! ### The six pack and unpack commands -/

/-- What the meanings of the pack and unpack commands share: the step relation, that a command that passes validation has a
codec, and that unit `u` writes `w` bytes at destination offset `u * w`. -/
structure CodecView (i : Instr) (n o : Nat) (work : Codec → Nat → State → State) : Prop where
  notRequant : i ≠ .requant
  exec_eq : ∀ s, exec i s = codecStep i n o (modeOfInstr i) work s
  resolves : ∀ s b, validate i s = .ok b → ∃ c, resolve n o = .ok c
  writes : ∀ c, resolve n o = .ok c → ∃ w, (∀ len, unitCount i len * w = outLength i len) ∧
    ∀ u s, ∃ bs, bs.length = w ∧ work c u s = s.writeOut (u * w) bs

theorem checkAllocating_resolves {i : Instr} {n o : Nat} {s : State} {b : Buffers}
    (h : checkAllocating i n o s = .ok b) : ∃ c, resolve n o = .ok c := by
  unfold checkAllocating at h
  split at h
  · cases h
  · rename_i c hc
    exact ⟨c, hc⟩

theorem checkBuffered_resolves {i : Instr} {n o : Nat} {s : State} {b : Buffers}
    (h : checkBuffered i n o s = .ok b) : ∃ c, resolve n o = .ok c := by
  unfold checkBuffered at h
  split at h
  · cases h
  · rename_i c hc
    exact ⟨c, hc⟩

theorem unpack_writes (c : Codec) (u : Nat) (s : State) :
    ∃ bs, bs.length = c.elements ∧ unpackUnit c u s = s.writeOut (u * c.elements) bs :=
  ⟨_, unpackByte_length c _, rfl⟩

theorem lookup_writes (c : Codec) (u : Nat) (s : State) :
    ∃ bs, bs.length = c.elements ∧ lookupUnit c u s = s.writeOut (u * c.elements) bs :=
  lookupUnit_eq c u s ▸ unpack_writes c u s

theorem pack_writes (c : Codec) (u : Nat) (s : State) :
    ∃ bs, bs.length = 1 ∧ packUnit c u s = s.writeOut (u * 1) bs :=
  ⟨[_], rfl, by rw [Nat.mul_one]; rfl⟩

/-- Every command but `REQUANT` has the shared view. -/
theorem codecView_of (i : Instr) (h : i ≠ .requant) : ∃ n o work, CodecView i n o work := by
  cases i with
  | unpackD n o m =>
    exact ⟨n, o, unpackUnit, h, fun _ => rfl, fun _ _ hv => checkAllocating_resolves hv, fun c hc =>
      ⟨c.elements, fun len => by simp [unitCount, outLength, (resolve_ok hc).2.2.2.1], fun u s => unpack_writes c u s⟩⟩
  | unpackL n o m =>
    exact ⟨n, o, lookupUnit, h, fun _ => rfl, fun _ _ hv => checkAllocating_resolves hv, fun c hc =>
      ⟨c.elements, fun len => by simp [unitCount, outLength, (resolve_ok hc).2.2.2.1], fun u s => lookup_writes c u s⟩⟩
  | unpackbD n o m =>
    exact ⟨n, o, unpackUnit, h, fun _ => rfl, fun _ _ hv => checkBuffered_resolves hv, fun c hc =>
      ⟨c.elements, fun len => by simp [unitCount, outLength, (resolve_ok hc).2.2.2.1], fun u s => unpack_writes c u s⟩⟩
  | unpackbL n o m =>
    exact ⟨n, o, lookupUnit, h, fun _ => rfl, fun _ _ hv => checkBuffered_resolves hv, fun c hc =>
      ⟨c.elements, fun len => by simp [unitCount, outLength, (resolve_ok hc).2.2.2.1], fun u s => lookup_writes c u s⟩⟩
  | pack n o m =>
    exact ⟨n, o, packUnit, h, fun _ => rfl, fun _ _ hv => checkAllocating_resolves hv, fun c _ =>
      ⟨1, fun len => by simp [unitCount, outLength], fun u s => pack_writes c u s⟩⟩
  | packb n o m =>
    exact ⟨n, o, packUnit, h, fun _ => rfl, fun _ _ hv => checkBuffered_resolves hv, fun c _ =>
      ⟨1, fun len => by simp [unitCount, outLength], fun u s => pack_writes c u s⟩⟩
  | requant => exact absurd rfl h

variable {i : Instr} {n o : Nat} {m : Mode} {work : Codec → Nat → State → State} {s s₀ t : State} {c : Codec}
  {b : Buffers}

theorem codecStep_idle (h : s.status.busy = false) : codecStep i n o m work s = accept i s := by
  simp [codecStep, h]

theorem codecStep_busy (h : s.inPhase i .run b) (hc : resolve n o = .ok c) :
    codecStep i n o m work s = unitOrComplete m (unitCount i s.opnd.srcLen.toNat) b.dst.len (work c) s := by
  obtain ⟨h1, h2, h3⟩ := h
  simp [codecStep, h1, h2, h3, hc]

theorem unitOrComplete_some {units outlen u : Nat} {f : Nat → State → State}
    (h : nextUnit m units s = some (u, s₀)) :
    unitOrComplete m units outlen f s = .next ((f u s₀).markDone m u) := by
  simp [unitOrComplete, h]

theorem unitOrComplete_none {units outlen : Nat} {f : Nat → State → State} (h : nextUnit m units s = none) :
    unitOrComplete m units outlen f s = .next (s.complete outlen) := by
  simp [unitOrComplete, h]

/-- The two ways an engine step of a last phase answers; it always answers a next state. -/
theorem unitOrComplete_cases {units outlen : Nat} {f : Nat → State → State}
    (h : unitOrComplete m units outlen f s = .next t) :
    (∃ u s₀, nextUnit m units s = some (u, s₀) ∧ t = (f u s₀).markDone m u) ∨
    (nextUnit m units s = none ∧ t = s.complete outlen) := by
  cases hn : nextUnit m units s with
  | none =>
    rw [unitOrComplete_none hn] at h
    exact .inr ⟨rfl, (Host.Outcome.next.inj h).symm⟩
  | some p =>
    obtain ⟨u, s₀⟩ := p
    rw [unitOrComplete_some hn] at h
    exact .inl ⟨u, s₀, rfl, (Host.Outcome.next.inj h).symm⟩

/-- A pack or unpack meaning answers a next state only by an accept or by an engine step of phase `RUN`. -/
theorem codecStep_cases (h : codecStep i n o m work s = .next t) :
    (s.status.busy = false ∧ accept i s = .next t) ∨
    (∃ c b, s.inPhase i .run b ∧ resolve n o = .ok c ∧
      unitOrComplete m (unitCount i s.opnd.srcLen.toNat) b.dst.len (work c) s = .next t) := by
  unfold codecStep at h
  split at h
  · rename_i hb
    split at h
    · rename_i c b hp hr hv
      exact .inr ⟨c, b, ⟨hb, hp, hv⟩, hr, h⟩
    · cases h
  · rename_i hb
    exact .inl ⟨by simpa using hb, h⟩

/-! ### REQUANT -/

theorem execRequant_stat (h : s.inPhase .requant .stat b) :
    execRequant s = statUnitOrEnd (complexCount s.opnd.srcLen.toNat) s := by
  obtain ⟨h1, h2, h3⟩ := h
  simp [execRequant, h1, h2, h3]

theorem execRequant_quant (h : s.inPhase .requant .quant b) :
    execRequant s = unitOrComplete .seq (unitCount .requant s.opnd.srcLen.toNat) b.dst.len
      (quantUnit (complexCount s.opnd.srcLen.toNat)) s := by
  obtain ⟨h1, h2, h3⟩ := h
  simp [execRequant, h1, h2, h3]

/-- `REQUANT` answers a next state only by an accept or by an engine step of phase `STAT` or `QUANT`. -/
theorem execRequant_cases (h : execRequant s = .next t) :
    (s.status.busy = false ∧ accept .requant s = .next t) ∨
    (∃ b, s.inPhase .requant .stat b ∧ statUnitOrEnd (complexCount s.opnd.srcLen.toNat) s = .next t) ∨
    (∃ b, s.inPhase .requant .quant b ∧
      unitOrComplete .seq (unitCount .requant s.opnd.srcLen.toNat) b.dst.len
        (quantUnit (complexCount s.opnd.srcLen.toNat)) s = .next t) := by
  unfold execRequant at h
  split at h
  · rename_i hb
    split at h
    · rename_i b hp hv
      exact .inr (.inl ⟨b, ⟨hb, hp, hv⟩, h⟩)
    · rename_i b hp hv
      exact .inr (.inr ⟨b, ⟨hb, hp, hv⟩, h⟩)
    · cases h
  · rename_i hb
    exact .inl ⟨by simpa using hb, h⟩

/-- The two ways an engine step of phase `STAT` answers; it always answers a next state. -/
theorem statUnitOrEnd_cases {x : Nat} (h : statUnitOrEnd x s = .next t) :
    (s.seq.unit < x ∧ t = (statUnit s.seq.unit s).markDone .seq s.seq.unit) ∨
    (x ≤ s.seq.unit ∧ t = s.endStat x) := by
  unfold statUnitOrEnd nextUnit at h
  split at h
  · rename_i u s₀ hn
    simp only at hn
    split at hn
    · simp only [Option.some.injEq, Prod.mk.injEq] at hn
      obtain ⟨rfl, rfl⟩ := hn
      exact .inl ⟨by assumption, (Host.Outcome.next.inj h).symm⟩
    · cases hn
  · rename_i hn
    simp only at hn
    split at hn
    · cases hn
    · exact .inr ⟨by omega, (Host.Outcome.next.inj h).symm⟩

/-! ### Every meaning -/

/-- The ways a running command goes on by one engine step, from `s` to the state given (R204, R209, R223, R224, R227). -/
inductive EngineMove (i : Instr) (b : Buffers) (s : State) : State → Prop where
  /-- A work unit that writes: `w` bytes at destination offset `u * w`. -/
  | write (p : Phase) (u w : Nat) (s₀ : State) (bs : List Byte)
      (hp : p = if i = .requant then .quant else .run) (hin : s.inPhase i p b)
      (hn : nextUnit (modeOfInstr i) (unitCount i s.opnd.srcLen.toNat) s = some (u, s₀))
      (hw : unitCount i s.opnd.srcLen.toNat * w = outLength i s.opnd.srcLen.toNat) (hbs : bs.length = w) :
      EngineMove i b s ((s₀.writeOut (u * w) bs).markDone (modeOfInstr i) u)
  /-- The completion step. -/
  | complete (p : Phase) (hp : p = if i = .requant then .quant else .run) (hin : s.inPhase i p b)
      (hn : nextUnit (modeOfInstr i) (unitCount i s.opnd.srcLen.toNat) s = none) :
      EngineMove i b s (s.complete b.dst.len)
  /-- A work unit of pass 1. -/
  | stat (hi : i = .requant) (hin : s.inPhase i .stat b) (hu : s.seq.unit < complexCount s.opnd.srcLen.toNat) :
      EngineMove i b s ((statUnit s.seq.unit s).markDone .seq s.seq.unit)
  /-- The end of pass 1. -/
  | endStat (hi : i = .requant) (hin : s.inPhase i .stat b) (hu : complexCount s.opnd.srcLen.toNat ≤ s.seq.unit) :
      EngineMove i b s (s.endStat (complexCount s.opnd.srcLen.toNat))

/-- While the engine waits, every meaning is the accept of its command (R200). -/
theorem exec_idle (i : Instr) (h : s.status.busy = false) : exec i s = accept i s := by
  by_cases hi : i = .requant
  · subst hi
    simp [exec, execRequant, h]
  · obtain ⟨n, o, work, v⟩ := codecView_of i hi
    rw [v.exec_eq, codecStep_idle h]

/-- Every way a meaning answers a next state: an accept while the engine waits, an engine step while the command runs. -/
theorem exec_cases (h : exec i s = .next t) :
    (s.status.busy = false ∧ accept i s = .next t) ∨ (s.status.busy = true ∧ ∃ b, EngineMove i b s t) := by
  by_cases hi : i = .requant
  · subst hi
    rcases execRequant_cases h with h | ⟨b, hin, h⟩ | ⟨b, hin, h⟩
    · exact .inl h
    · rcases statUnitOrEnd_cases h with ⟨hu, rfl⟩ | ⟨hu, rfl⟩
      · exact .inr ⟨hin.1, b, .stat rfl hin hu⟩
      · exact .inr ⟨hin.1, b, .endStat rfl hin hu⟩
    · rcases unitOrComplete_cases h with ⟨u, s₀, hn, rfl⟩ | ⟨hn, rfl⟩
      · refine .inr ⟨hin.1, b, ?_⟩
        have := EngineMove.write (i := .requant) .quant u 1 s₀ _ (by simp) hin hn (by simp [unitCount, outLength])
          (List.length_singleton (a := quantByte (complexCount s.opnd.srcLen.toNat)
            (spread (complexCount s.opnd.srcLen.toNat) s₀.acc.s1Re s₀.acc.s2Re)
            (spread (complexCount s.opnd.srcLen.toNat) s₀.acc.s1Im s₀.acc.s2Im)
            (s₀.srcByte (4 * u)) (s₀.srcByte (4 * u + 1)) (s₀.srcByte (4 * u + 2)) (s₀.srcByte (4 * u + 3))))
        rwa [Nat.mul_one] at this
      · exact .inr ⟨hin.1, b, .complete .quant (by simp) hin hn⟩
  · obtain ⟨n, o, work, v⟩ := codecView_of i hi
    rw [v.exec_eq] at h
    rcases codecStep_cases h with h | ⟨c, b, hin, hc, h⟩
    · exact .inl h
    · rcases unitOrComplete_cases h with ⟨u, s₀, hn, rfl⟩ | ⟨hn, rfl⟩
      · obtain ⟨w, hw, hbs⟩ := v.writes c hc
        obtain ⟨bs, hl, he⟩ := hbs u s₀
        rw [he]
        exact .inr ⟨hin.1, b, .write .run u w s₀ bs (by simp [hi]) hin hn (hw _) hl⟩
      · exact .inr ⟨hin.1, b, .complete .run (by simp [hi]) hin hn⟩

/-- A meaning leaves the operand registers, the host's inputs and what the platform backs alone; while the command runs it
leaves `CMD`, `ERRCODE` and the handed-over buffers alone too. -/
theorem engineMove_frame (h : EngineMove i b s t) :
    t.cmd = s.cmd ∧ t.errcode = s.errcode ∧ t.opnd = s.opnd ∧ t.host = s.host := by
  cases h with
  | write p u w s₀ bs hp hin hn hw hbs =>
    have h0 := (nextUnit_some hn).2.1
    rw [h0]
    simp
  | complete => simp
  | stat => simp
  | endStat => simp

theorem exec_opnd (h : exec i s = .next t) : t.opnd = s.opnd := by
  rcases exec_cases h with ⟨-, h⟩ | ⟨-, b, h⟩
  · rcases accept_cases h with ⟨e, -, rfl⟩ | ⟨b, -, -, -, rfl⟩ <;> rfl
  · exact (engineMove_frame h).2.2.1

/-- The bytes of unit `u` are bytes of the destination (R69). -/
theorem unit_in_destination {u w units outlen p : Nat} (hu : u < units) (hw : units * w = outlen) (hp : p < w) :
    u * w + p < outlen := by
  have : (u + 1) * w ≤ units * w := Nat.mul_le_mul_right w hu
  rw [Nat.add_mul] at this
  omega

/-- A running command writes only bytes of its destination range (R69). -/
theorem engineMove_mem (h : EngineMove i b s t) :
    sameOutside s.opnd.dstAddr.toNat (outLength i s.opnd.srcLen.toNat) s.mem t.mem := by
  intro a ha
  cases h with
  | write p u w s₀ bs hp hin hn hw hbs =>
    obtain ⟨hu, h0, -⟩ := nextUnit_some hn
    rw [h0]
    simp only [markDone_mem, writeOut_mem]
    refine read_writeBytes_outside _ _ fun hin => ?_
    have := unit_in_destination (p := a - (s.opnd.dstAddr.toNat + u * w)) hu hw (by omega)
    omega
  | complete => rfl
  | stat => rfl
  | endStat => rfl

end Sys2Proof.Machine
end

