-- ==== Sys2Proof/Laws/PerInstr.lean ====
section
/-! SUPPORT. A fact about every instruction as syntax: its word lies in its row of the opcode map (`30_encoding.md` R97). -/

namespace Sys2Proof.Laws.OpcodeRow

/-- The word of a well-formed instruction has the row's pattern under the row's mask, and the row is one of the map. -/
def Statement (i : Instr) : Prop := i.WellFormed → i.row.spells (encode i) ∧ i.row ∈ opcodeRows

theorem unpackD (n o : Nat) (m : Mode) : Statement (.unpackD n o m) := fun h =>
  ⟨commandWord_masked m (by omega) (by omega) (fits_of_and h).1 (fits_of_and h).2, by simp [Instr.row, opcodeRows]⟩

theorem unpackL (n o : Nat) (m : Mode) : Statement (.unpackL n o m) := fun h =>
  ⟨commandWord_masked m (by omega) (by omega) (fits_of_and h).1 (fits_of_and h).2, by simp [Instr.row, opcodeRows]⟩

theorem unpackbD (n o : Nat) (m : Mode) : Statement (.unpackbD n o m) := fun h =>
  ⟨commandWord_masked m (by omega) (by omega) (fits_of_and h).1 (fits_of_and h).2, by simp [Instr.row, opcodeRows]⟩

theorem unpackbL (n o : Nat) (m : Mode) : Statement (.unpackbL n o m) := fun h =>
  ⟨commandWord_masked m (by omega) (by omega) (fits_of_and h).1 (fits_of_and h).2, by simp [Instr.row, opcodeRows]⟩

theorem pack (n o : Nat) (m : Mode) : Statement (.pack n o m) := fun h =>
  ⟨commandWord_masked m (by omega) (by omega) (fits_of_and h).1 (fits_of_and h).2, by simp [Instr.row, opcodeRows]⟩

theorem packb (n o : Nat) (m : Mode) : Statement (.packb n o m) := fun h =>
  ⟨commandWord_masked m (by omega) (by omega) (fits_of_and h).1 (fits_of_and h).2, by simp [Instr.row, opcodeRows]⟩

theorem requant : Statement .requant := fun _ => ⟨by decide, by simp [Instr.row, opcodeRows]⟩

end Sys2Proof.Laws.OpcodeRow
end

