-- ==== Sys2Proof/Laws/Step.lean ====
section
/-! SUPPORT. What one step does, by its next event, and the ways it answers a next state. -/

namespace Sys2Proof.Machine

variable {s t : State}

/-- With no event pending the engine has the turn. -/
theorem step_nil (h : s.host.inputs = []) : step s = engineTurn s := by
  simp [step, h]

/-- Else the step does what its next event does. -/
theorem step_cons {ev : Input} {rest : List Input} (h : s.host.inputs = ev :: rest) :
    step s = event ev (s.withInputs rest) := by
  simp [step, h]

theorem engineTurn_idle (h : s.status.busy = false) : engineTurn s = .next s := by
  simp [engineTurn, h]

theorem engineTurn_busy {i : Instr} (h : s.status.busy = true) (hd : decode s.cmd = .ok i) :
    engineTurn s = exec i s := by
  simp [engineTurn, h, hd]

/-- A turn of the engine that answers a next state is nothing, or the running command's engine step. -/
theorem engineTurn_cases (h : engineTurn s = .next t) :
    (s.status.busy = false ∧ t = s) ∨
    (s.status.busy = true ∧ ∃ i b, decode s.cmd = .ok i ∧ EngineMove i b s t) := by
  unfold engineTurn at h
  split at h
  · rename_i hb
    split at h
    · rename_i i hd
      rcases exec_cases h with ⟨h1, -⟩ | ⟨-, b, h1⟩
      · simp [hb] at h1
      · exact .inr ⟨hb, i, b, hd, h1⟩
    · cases h
  · rename_i hb
    exact .inl ⟨by simpa using hb, (Host.Outcome.next.inj h).symm⟩

/-- The accept of a word answers a next state by the accept of its command, or by the failure of an illegal word. -/
theorem acceptWord_cases {w : Word} (hb : s.status.busy = false) (h : acceptWord w s = .next t) :
    (∃ i, decode w = .ok i ∧ accept i s = .next t) ∨ (∃ e, decode w = .error e ∧ t = acceptIllegal w s) := by
  unfold acceptWord at h
  split at h
  · rename_i i hd
    rcases exec_cases h with ⟨-, h1⟩ | ⟨h1, -⟩
    · exact .inl ⟨i, hd, h1⟩
    · simp [hb] at h1
  · rename_i e hd
    exact .inr ⟨e, hd, (Host.Outcome.next.inj h).symm⟩

/-- A host register read that answers. -/
theorem hostRegRead_cases {off bytes : Nat} (h : hostRegRead off bytes s = .next t) :
    wholeAccess off bytes ∧ t = (s.reply (.reg (s.readReg off))).handBack off := by
  unfold hostRegRead at h
  split at h
  · rename_i hw
    exact ⟨hw, (Host.Outcome.next.inj h).symm⟩
  · cases h

/-- A host register write that answers: dropped, an accept, or a write to an operand register or to none. -/
theorem hostRegWrite_cases {off bytes : Nat} {v : Word} (h : hostRegWrite off bytes v s = .next t) :
    (s.status.busy = true ∧ t = s) ∨
    (s.status.busy = false ∧ off = 0 ∧ acceptWord v s = .next t) ∨
    (s.status.busy = false ∧ off ≠ 0 ∧ t = s.writeOperand off v) := by
  unfold hostRegWrite at h
  split at h
  · split at h
    · rename_i hb
      exact .inl ⟨hb, (Host.Outcome.next.inj h).symm⟩
    · rename_i hb
      have hb' : s.status.busy = false := by simpa using hb
      split at h
      · rename_i ho
        exact .inr (.inl ⟨hb', ho, h⟩)
      · rename_i ho
        exact .inr (.inr ⟨hb', ho, (Host.Outcome.next.inj h).symm⟩)
  · cases h

/-- A host memory read that answers. -/
theorem hostMemRead_cases {a : Nat} (h : hostMemRead a s = .next t) :
    a < 2 ^ 32 ∧ ¬ s.isUnbacked a ∧ ¬ s.readRaces a ∧ t = s.reply (.mem (s.mem.read a)) := by
  unfold hostMemRead at h
  split at h
  · cases h
  · split at h
    · cases h
    · split at h
      · cases h
      · exact ⟨by omega, by assumption, by assumption, (Host.Outcome.next.inj h).symm⟩

/-- A host memory write that answers. -/
theorem hostMemWrite_cases {a : Nat} {v : Byte} (h : hostMemWrite a v s = .next t) :
    a < 2 ^ 32 ∧ ¬ s.isUnbacked a ∧ ¬ s.writeRaces a ∧ t = { s with mem := s.mem.write a v } := by
  unfold hostMemWrite at h
  split at h
  · cases h
  · split at h
    · cases h
    · split at h
      · cases h
      · exact ⟨by omega, by assumption, by assumption, (Host.Outcome.next.inj h).symm⟩

end Sys2Proof.Machine
end

