-- ==== Sys2Proof/Tests/Slice0.lean ====
section
/-! SUPPORT. Tests and witnesses. Every expected value is from `95_test_vectors.md` or from the worked examples of the rule
files, as each comment says; a witness shows that the hypotheses of a statement can be met together. -/

namespace Sys2Proof.Tests

open Sys2Proof.Machine

/-! ### Helpers -/

/-- The next state of an outcome. -/
def next? (r : Out) : Option State :=
  match r with
  | .next t => some t
  | .fault _ => none
  | .refused _ => none

/-- The engine waiting, with source bytes `bs` at 0x100, a destination at 0x200 and a `DST_LEN`. -/
def ready (bs : List Byte) (dstLen : Word) : State :=
  { State.reset with
    opnd := ⟨0x100, BitVec.ofNat 32 bs.length, 0x200, dstLen⟩
    mem := State.reset.mem.writeBytes 0x100 bs }

/-- The state with command `i` just launched. -/
def running (i : Instr) (s : State) : State := (s.beginAccept (encode i)).launch i (s.buffers i)

/-- The state with the sequencer at another place. -/
def atPlace (q : Sequencer) (s : State) : State := { s with seq := q }

/-- The state with other operand registers. -/
def withOperands (a l d n : Word) (s : State) : State := { s with opnd := ⟨a, l, d, n⟩ }

/-- `n` bytes of data memory from `a` in the next state of an outcome. -/
def bytesOf (r : Out) (a n : Nat) : Option (List Nat) := (next? r).map fun t => (t.mem.readBytes a n).map BitVec.toNat

/-- `ERRCODE`, `STATUS` and `OUT_LEN` in the next state of an outcome. -/
def resultOf (r : Out) : Option (Nat × Nat × Nat) :=
  (next? r).map fun t => (t.errcode.toNat, t.status.word.toNat, t.outLen.toNat)

/-- The code validation gives, 0 when the command passes. -/
def codeOf (i : Instr) (s : State) : Nat :=
  match validate i s with
  | .error e => e.code
  | .ok _ => 0

/-! ### Well-formed instructions: an ill-formed term for each check -/

theorem test_wellFormed_admits_the_largest_fields : (Instr.unpackD 255 255 .par).wellFormed = true := by decide

theorem test_wellFormed_refuses_wide_nbits :
    [Instr.unpackD 256 0 .seq, .unpackL 256 0 .seq, .unpackbD 256 0 .seq, .unpackbL 256 0 .seq, .pack 256 0 .seq,
      .packb 256 0 .seq].map Instr.wellFormed = [false, false, false, false, false, false] := by decide

theorem test_wellFormed_refuses_wide_ordtok :
    [Instr.unpackD 1 256 .seq, .unpackL 1 256 .seq, .unpackbD 1 256 .seq, .unpackbL 1 256 .seq, .pack 1 256 .seq,
      .packb 1 256 .seq].map Instr.wellFormed = [false, false, false, false, false, false] := by decide

/-! ### Decoding: the words of `95_test_vectors.md` Part B, `ORDTOK`, `NBITS`, then bits 7:0 -/

theorem test_decode_unpackD : decode 0b00000000_01100010_00000010_00000001#32 = .ok (.unpackD 2 0x62 .seq) := by decide

theorem test_decode_unpackL : decode 0b00000000_01101100_00000001_00110001#32 = .ok (.unpackL 1 0x6C .par) := by decide

theorem test_decode_unpackbD : decode 0b00000000_01101100_00000100_00000010#32 = .ok (.unpackbD 4 0x6C .seq) := by decide

theorem test_decode_unpackbL : decode 0b00000000_01101100_00000100_00010010#32 = .ok (.unpackbL 4 0x6C .seq) := by decide

theorem test_decode_pack : decode 0b00000000_01101100_00000010_00000011#32 = .ok (.pack 2 0x6C .seq) := by decide

theorem test_decode_packb : decode 0b00000000_01100010_00000001_00100100#32 = .ok (.packb 1 0x62 .par) := by decide

theorem test_decode_requant : decode 0b00000000_00000000_00000000_00000101#32 = .ok .requant := by decide

/-- Legal encodings whose width or order is no width or order (R100). -/
theorem test_decode_bad_operands_are_legal_encodings :
    decode 0x007A0301 = .ok (.unpackD 3 0x7A .seq) ∧ decode 0x00620802 = .ok (.unpackbD 8 0x62 .seq) := by decide

/-- The illegal words of Part B, refused by name. -/
theorem test_decode_illegal :
    [0x00000000, 0x00000006, 0x0000000F, 0x01620201, 0x00620241, 0x00620281, 0x00620213, 0x00620214, 0x00000015, 0x00000025,
      0x00000105, 0x00620005].map decode =
    [.error .badOperation, .error .badOperation, .error .badOperation, .error .reservedBits, .error .reservedBits,
      .error .reservedBits, .error .lookupPack, .error .lookupPack, .error .requantFields, .error .requantFields,
      .error .requantFields, .error .requantFields] := by decide

/-- The words the spec writes for these commands (Part B). -/
theorem test_encode :
    [Instr.unpackD 2 0x00 .seq, .unpackL 2 0x62 .par, .unpackbL 2 0x62 .seq, .pack 2 0x62 .par, .packb 4 0x00 .seq,
      .requant].map encode =
    [0x00000201, 0x00620231, 0x00620212, 0x00620223, 0x00000404, 0x00000005] := by decide

theorem test_decodeTableWord :
    decodeTableWord 32 0x00000005 = some .requant ∧ decodeTableWord 32 0x00000000 = none ∧
      decodeTableWord 40 0x00000005 = none := by decide

/-- `30_encoding.md` R108: "`UNPACK.L 2, 'b', par` is the word 0x00620231". -/
theorem test_assembly_text : asmText (.unpackL 2 0x62 .par) = "UNPACK.L 2, 'b', par" := by decide

/-! ### The catalog, Part C -/

theorem test_catalog :
    resolve 1 0x62 = .ok ⟨.w1, .big⟩ ∧ resolve 2 0x6C = .ok ⟨.w2, .little⟩ ∧ resolve 4 0x00 = .ok ⟨.w4, .big⟩ ∧
    resolve 0 0x62 = .error .invalidBitWidth ∧ resolve 8 0x62 = .error .invalidBitWidth ∧
    resolve 255 0x6C = .error .invalidBitWidth ∧ resolve 3 0x7A = .error .invalidBitWidth ∧
    resolve 4 0x7A = .error .invalidBitOrder ∧ resolve 4 0x42 = .error .invalidBitOrder ∧
    resolve 2 0x4C = .error .invalidBitOrder ∧ resolve 2 0x20 = .error .invalidBitOrder := by decide

/-! ### Unpack, Parts A and D -/

/-- Part D, byte 0x39 in the six cases. -/
theorem test_unpack_byte_39 :
    [(⟨.w1, .big⟩ : Codec), ⟨.w1, .little⟩, ⟨.w2, .big⟩, ⟨.w2, .little⟩, ⟨.w4, .big⟩, ⟨.w4, .little⟩].map (unpackByte · 0x39) =
    [[0, 0, 1, 1, 1, 0, 0, 1], [1, 0, 0, 1, 1, 1, 0, 0], [0, 3, 2, 1], [1, 2, 3, 0], [3, 9], [9, 3]] := by decide

/-- A1: one step writes the samples of 0xE4. -/
theorem test_unpackD_unit :
    bytesOf (exec (.unpackD 2 0x62 .seq) (running (.unpackD 2 0x62 .seq) (ready [0xE4, 0x1B] 0))) 0x200 4 =
      some [3, 2, 1, 0] := by decide +kernel

/-- Part H: unit 2 of `E4 1B A5` may run first, and writes bytes 8 to 11 = 02 02 01 01. -/
theorem test_unpackD_parallel_unit :
    bytesOf (exec (.unpackD 2 0x62 .par)
      { running (.unpackD 2 0x62 .par) (ready [0xE4, 0x1B, 0xA5] 0) with sched := ⟨[2], 0⟩ }) 0x208 4 =
      some [2, 2, 1, 1] := by decide +kernel

/-- R145: "with `DST_LEN = 3` it fails with `ERRCODE = 3`"; Part D: `STATUS = 6`. -/
theorem test_unpackbD_wrong_size :
    resultOf (exec (.unpackbD 4 0x6C .seq) (ready [0xAB] 3)) = some (3, 6, 0) := by decide

/-- R145: source 0xAB, `DST_LEN = 2`, writes 0B 0A. -/
theorem test_unpackbD_unit :
    bytesOf (exec (.unpackbD 4 0x6C .seq) (running (.unpackbD 4 0x6C .seq) (ready [0xAB] 2))) 0x200 2 =
      some [0x0B, 0x0A] := by decide +kernel

/-! ### Lookup, R187 and Part F -/

/-- The entries of a table in address order. -/
def tableOf (c : Codec) : List Nat :=
  (List.range 256).flatMap fun b => (lookupRow c (BitVec.ofNat 8 b)).map BitVec.toNat

/-- The two checks R187 makes of a table. -/
def checksOf (c : Codec) : Nat × Nat × Nat :=
  ((tableOf c).length, (tableOf c).foldl (· + ·) 0, (tableOf c).foldl (fun h v => (h * 31 + v) % 2 ^ 32) 0)

/-- R187: the number of entries, the sum and the fold of each table. -/
theorem test_rom_checks :
    [(⟨.w1, .little⟩ : Codec), ⟨.w1, .big⟩, ⟨.w2, .little⟩, ⟨.w2, .big⟩, ⟨.w4, .little⟩, ⟨.w4, .big⟩].map checksOf =
    [(2048, 1024, 0x58098000), (2048, 1024, 0xBD0F0000), (1024, 1536, 0xE8FE4000), (1024, 1536, 0xCF868000),
      (512, 3840, 0xFD09A000), (512, 3840, 0x569E4000)] := by decide +kernel

/-- R187, the row of 0x1B in the tables of width 4: addresses 0x1836 and 0x1A36. -/
theorem test_rom_rows :
    [(⟨0x1836, by decide⟩ : Fin lutSize), ⟨0x1837, by decide⟩, ⟨0x1A36, by decide⟩, ⟨0x1A37, by decide⟩].map
      (fun a => (lutRead a).toNat) = [11, 1, 1, 11] := by decide +kernel

/-- Part F: `UNPACK.L 1, 'b', seq` of 0xA5. -/
theorem test_unpackL_unit :
    bytesOf (exec (.unpackL 1 0x62 .seq) (running (.unpackL 1 0x62 .seq) (ready [0xA5] 0))) 0x200 8 =
      some [1, 0, 1, 0, 0, 1, 0, 1] := by decide +kernel

/-- Part F: word 0x007A0411 gives `ERRCODE = 2`. -/
theorem test_unpackL_bad_order :
    resultOf (exec (.unpackL 4 0x7A .seq) (ready [0xA5] 0)) = some (2, 6, 0) := by decide

/-- Part I2: source AB CD 0F, the last unit of `UNPACKB.L 4, 'l'` writes 0F 00. -/
theorem test_unpackbL_unit :
    bytesOf (exec (.unpackbL 4 0x6C .seq)
      (atPlace ⟨.run, 2, []⟩ (running (.unpackbL 4 0x6C .seq) (ready [0xAB, 0xCD, 0x0F] 6)))) 0x204 2 =
      some [0x0F, 0x00] := by decide +kernel

/-- Part I2: the required length is 6. -/
theorem test_unpackbL_wrong_size :
    resultOf (exec (.unpackbL 4 0x6C .seq) (ready [0xAB, 0xCD, 0x0F] 5)) = some (3, 6, 0) := by decide

/-! ### Pack, Part E -/

/-- Part E, samples wider than the field, big then little. -/
theorem test_pack_spill :
    [packGroup ⟨.w4, .big⟩ [0xFF, 0x00], packGroup ⟨.w4, .little⟩ [0x1F, 0x02], packGroup ⟨.w4, .big⟩ [0x10, 0x01],
      packGroup ⟨.w2, .big⟩ [7, 0, 0, 0], packGroup ⟨.w2, .little⟩ [4, 1, 0, 0],
      packGroup ⟨.w1, .little⟩ [2, 0, 0, 0, 0, 0, 0, 1]] =
    [0xF0, 0x3F, 0x01, 0xC0, 0x04, 0x82] := by decide

/-- Part E: 01 02 03 00 (03), width 2, big, packs to 6C; the fifth sample is not read. -/
theorem test_pack_unit :
    bytesOf (exec (.pack 2 0x62 .seq) (running (.pack 2 0x62 .seq) (ready [1, 2, 3, 0, 3] 0))) 0x200 1 =
      some [0x6C] := by decide +kernel

/-- Part E: three samples at width 2 are no group: the first engine step is the completion, with `OUT_LEN = 0`. -/
theorem test_pack_no_whole_group :
    resultOf (exec (.pack 2 0x62 .seq) (running (.pack 2 0x62 .seq) (ready [1, 2, 3] 0))) = some (0, 2, 0) := by
  decide +kernel

/-- R165: `PACKB 4, -, seq` of 0A 0B writes AB. -/
theorem test_packb_unit :
    bytesOf (exec (.packb 4 0x00 .seq) (running (.packb 4 0x00 .seq) (ready [0x0A, 0x0B] 1))) 0x200 1 =
      some [0xAB] := by decide +kernel

/-- Part E: 5 samples at width 2 with `DST_LEN = 2`. -/
theorem test_packb_wrong_size :
    resultOf (exec (.packb 2 0x62 .seq) (ready [0, 0, 0, 0, 0] 2)) = some (3, 6, 0) := by decide

/-! ### The requantizer, Part G -/

/-- G1, real channel: `X = 4`, `V = 872`. -/
theorem test_level_G1 : [10, 3, -10, -3].map (level · 4 872) = [3, 2, 0, 1] := by decide +kernel

/-- G5: thresholds (3,3) in the real channel and (2,2) in the imaginary one. -/
theorem test_level_G5 :
    [1, -1, 2, -2, 3, -3].map (level · 6 168) = [2, 1, 2, 1, 3, 0] ∧
    [2, -2, 1, -1, 0].map (level · 6 60) = [3, 0, 2, 1, 2] := by decide +kernel

/-- G2, G9 and G3: constant channels. -/
theorem test_level_constant : [5, -7, -128, 0].map (level · 2 0) = [3, 0, 0, 3] := by decide

/-- G11: `V = 65025`, thresholds 126. -/
theorem test_level_G11 : [-128, 127, 125, -125].map (level · 2 65025) = [0, 3, 2, 1] := by decide +kernel

/-- G4: the sums of the first complex sample, 7F 80. -/
theorem test_requant_stat_unit :
    (next? (exec .requant (running .requant (ready [0x7F, 0x80, 0x80, 0x7F] 0)))).map (fun t => (t.acc, t.seq)) =
      some (⟨127, -128, 16129, 16384⟩, ⟨.stat, 1, []⟩) := by decide +kernel

/-- G4: in pass 2, with the sums of G4, the second output byte, of 00 00 01 FF, is A9. -/
theorem test_requant_quant_unit :
    bytesOf (exec .requant (atPlace ⟨.quant, 1, []⟩
      { running .requant (ready [0x7F, 0x80, 0x80, 0x7F, 0x00, 0x00, 0x01, 0xFF] 0) with acc := ⟨0, -2, 32514, 32514⟩ }))
      0x201 1 = some [0xA9] := by decide +kernel

/-- G4: the statistics registers at the end of pass 1; `S1_IM` is FFFFFFFE, FFFFFFFF. -/
theorem test_requant_end_of_pass1 :
    (next? (exec .requant (atPlace ⟨.stat, 4, []⟩
      { running .requant (ready [0x7F, 0x80, 0x80, 0x7F, 0x00, 0x00, 0x01, 0xFF] 0) with acc := ⟨0, -2, 32514, 32514⟩ }))).map
      (fun t => [0x20, 0x28, 0x2C, 0x30, 0x34, 0x38, 0x3C].map fun off => (t.readReg off).toNat) =
    some [4, 0, 0, 0xFFFFFFFE, 0xFFFFFFFF, 0x7F02, 0] := by decide +kernel

/-! ### Validation, Parts D, G and H -/

/-- Part H, the rows that decode: `SRC_LEN = 1`, `DST_LEN = 7`. -/
theorem test_order_of_checks :
    [Instr.unpackD 3 0x7A .seq, .unpackbD 3 0x7A .seq, .unpackbD 8 0x62 .seq, .unpackbD 4 0x7A .seq, .unpackbD 4 0x42 .seq,
      .unpackbD 4 0x62 .seq, .packb 2 0x4C .seq, .packb 2 0x6C .seq, .requant].map
      (codeOf · (withOperands 0x10 1 0x20 7 State.reset)) =
    [1, 1, 1, 2, 2, 3, 2, 3, 4] := by decide

/-- Part H, address boundaries of `UNPACK.D 4, 'b', seq`. -/
theorem test_unpack_addresses :
    [(0xFFFFFFFF, 1, 0), (0xFFFFFFFF, 2, 0), (0, 1, 0xFFFFFFFE), (0, 1, 0xFFFFFFFF), (0x100, 4, 0x103), (0x100, 4, 0x104),
      (0x100, 4, 0xF8), (0x100, 4, 0xF9), (0x100, 0, 0x100)].map
      (fun (a, l, d) => codeOf (.unpackD 4 0x62 .seq) (withOperands a l d 0 State.reset)) =
    [0, 5, 0, 5, 5, 0, 0, 5, 0] := by decide +kernel

/-- Part H, address boundaries of `PACK 1, 'b', seq`. -/
theorem test_pack_addresses :
    [(0xFFFFFFFF, 0, 0xFFFFFFFF), (0xFFFFFFFF, 7, 0xFFFFFFFF), (0x100, 7, 0x100), (0x100, 8, 0x100), (0x100, 8, 0x107),
      (0x100, 8, 0x108)].map (fun (a, l, d) => codeOf (.pack 1 0x62 .seq) (withOperands a l d 0 State.reset)) =
    [0, 5, 0, 5, 5, 0] := by decide +kernel

/-- Part G, lengths and addresses of `REQUANT`. -/
theorem test_requant_addresses :
    [(0, 0, 0), (0, 3, 0), (0x100, 6, 0x100), (0xFFFFFFFC, 4, 0), (0xFFFFFFFC, 8, 0), (0x100, 8, 0x106), (0x100, 8, 0x108),
      (0x100, 8, 0xFF), (0x100, 8, 0xFE)].map
      (fun (a, l, d) => codeOf .requant (withOperands a l d 0 State.reset)) =
    [4, 4, 4, 0, 5, 5, 0, 5, 0] := by decide +kernel

/-- Part D: an output length of 2^32 is `AddrFault` when allocating and `SizeMismatch` when buffered. -/
theorem test_output_length_too_large :
    codeOf (.unpackD 1 0x62 .seq) (withOperands 0x100 0x20000000 0 0 State.reset) = 5 ∧
    codeOf (.unpackbD 1 0x62 .seq) (withOperands 0x100 0x20000000 0 0xFFFFFFFF State.reset) = 3 := by decide +kernel

/-! ### The host -/

/-- Part H: a write of `SRC_LEN` while `BUSY = 1` leaves it unchanged. -/
theorem test_write_while_busy_is_dropped :
    (next? (step ((running (.unpackD 2 0x62 .seq) (ready [0xE4] 0)).withInputs [.regWrite 0x10 4 99]))).map
      (fun t => t.opnd.srcLen) = some 1 := by decide +kernel

/-- Part I4: `WR CMD, 0x00000000` straight after reset gives `STATUS = 6`, `ERRCODE = 6`. -/
theorem test_illegal_word_after_reset :
    resultOf (step (State.reset.withFetchWord 32 0)) = some (6, 6, 0) := by decide

/-- R109: the expansion of a pack call. -/
theorem test_call_expands :
    programEvents (callPack 0x100 4 0x200 2 0x62 .seq) =
    [.regWrite 0x0C 4 0x100, .regWrite 0x10 4 4, .regWrite 0x14 4 0x200, .regWrite 0x00 4 0x00620203, .poll,
      .regRead 0x08 4, .regRead 0x1C 4] := by decide

/-! ### Witnesses: states and operands that meet the hypotheses of the statements

A witness is named after its statement; where a statement has several clauses, each clause has a witness at the edge of its
range. -/

/-- Two source bytes. -/
def two : State := ready [0xE4, 0x1B] 8

/-- Four source bytes. -/
def four : State := ready [0x01, 0x02, 0x03, 0xFF] 1

/-- `UNPACK.D 2, 'b', par` running, the last of its two units performed. -/
def midParallel : State := atPlace ⟨.run, 0, [1]⟩ (running (.unpackD 2 0x62 .par) two)

/-- The buffers of a command of `two`. -/
def bufTwo (i : Instr) : Buffers := two.buffers i

/-- The buffers of a command of `four`. -/
def bufFour (i : Instr) : Buffers := four.buffers i

theorem witness_DecodeOfEncode : (Instr.unpackL 255 255 .par).WellFormed ∧ Instr.requant.WellFormed := by decide

theorem witness_EncodeOfDecode : decode 0x00FFFF31 = .ok (.unpackL 255 255 .par) := by decide

theorem witness_DecodeFindsTheUniqueRow :
    decode 0x00FFFF24 = .ok (.packb 255 255 .par) ∧ (∃ e, decode 0x01000001 = .error e) ∧
      ∀ r ∈ opcodeRows, ¬ r.spells 0x01000001 := by
  exact ⟨by decide, ⟨.reservedBits, by decide⟩, by decide⟩

theorem witness_IllegalWordsFailWithIllegalCommand :
    decode 0x00000006 = .error .badOperation ∧ (two.withInputs [.regWrite 0x00 4 0x00000006]).status.busy = false ∧
      (two.withInputs [.regWrite 0x00 4 0x00000006]).host.inputs = .regWrite 0x00 4 0x00000006 :: [] := by decide

theorem witness_StepAcceptsTheWrittenCommand :
    (two.withInputs [.regWrite 0x00 4 0x00620201]).status.busy = false ∧
      (two.withInputs [.regWrite 0x00 4 0x00620201]).host.inputs = .regWrite 0x00 4 0x00620201 :: [] ∧
      decode 0x00620201 = .ok (.unpackD 2 0x62 .seq) := by decide

theorem witness_StepRunsTheCommandInCmd_empty :
    midParallel.status.busy = true ∧ decode midParallel.cmd = .ok (.unpackD 2 0x62 .par) ∧
      midParallel.host.inputs = [] := by decide

theorem witness_StepRunsTheCommandInCmd_turn :
    (midParallel.withInputs [.engine]).status.busy = true ∧
      decode (midParallel.withInputs [.engine]).cmd = .ok (.unpackD 2 0x62 .par) ∧
      (midParallel.withInputs [.engine]).host.inputs = .engine :: [] := by decide

theorem witness_IdleEngineWaits : two.status.busy = false ∧ two.host.inputs = [] := by decide

theorem witness_AcceptStep_failure :
    four.status.busy = false ∧ validate (.unpackbD 2 0x62 .seq) four = .error .sizeMismatch := by decide

theorem witness_AcceptStep_packUnpack :
    Instr.unpackbD 2 0x62 .seq ≠ .requant ∧ two.launches (.unpackbD 2 0x62 .seq) (bufTwo (.unpackbD 2 0x62 .seq)) :=
  ⟨by decide, by decide, by decide, by decide, by decide⟩

theorem witness_AcceptStep_requant : four.launches .requant (bufFour .requant) :=
  ⟨by decide, by decide, by decide, by decide⟩

theorem witness_AcceptStep_busy :
    (midParallel.withInputs [.regWrite 0x00 4 5]).status.busy = true ∧
      (midParallel.withInputs [.regWrite 0x00 4 5]).host.inputs = .regWrite 0x00 4 5 :: [] := by decide

/-- A platform that backs nothing at 0x207, the last destination byte. -/
theorem witness_LaunchRefusedOnlyForUnbackedRanges :
    two.status.busy = false ∧ validate (.unpackD 2 0x62 .seq) two = .ok (bufTwo (.unpackD 2 0x62 .seq)) ∧
      (Region.mk 0x207 1).overlaps (bufTwo (.unpackD 2 0x62 .seq)).dst := by decide

theorem witness_FailureCompletion_illegal :
    two.status.busy = false ∧ (two.withInputs [.regWrite 0x00 4 0]).host.inputs = .regWrite 0x00 4 0 :: [] ∧
      decode 0 = .error .badOperation := by decide

theorem witness_FailureCompletion_invalid :
    (two.withInputs [.regWrite 0x00 4 5]).status.busy = false ∧
      (two.withInputs [.regWrite 0x00 4 5]).host.inputs = .regWrite 0x00 4 5 :: [] ∧ decode 5 = .ok .requant ∧
      validate .requant (two.withInputs [.regWrite 0x00 4 5]) = .error .invalidLength := by decide

theorem witness_NoErrorLatches : two.status.busy = false := by decide

theorem witness_CatalogResolution :
    ((3 : Nat) ≠ 1 ∧ 3 ≠ 2 ∧ 3 ≠ 4) ∧ ((0x63 : Nat) ≠ 0x62 ∧ 0x63 ≠ 0x6C ∧ 0x63 ≠ 0x00) ∧
      ((4 : Nat) = 1 ∨ 4 = 2 ∨ 4 = 4) ∧ ((0 : Nat) = 0x62 ∨ 0 = 0x6C ∨ 0 = 0x00) := by decide

theorem witness_RangesOverlapExactlyWhenTheyShareAnAddress :
    0 < (Region.mk 0xFFFFFFFF 1).len ∧ (Region.mk 0xFFFFFFFF 1).legal ∧ ¬ (Region.mk 0xFFFFFFFF 2).legal := by decide

theorem witness_ValidationOrder : decode 0x00000000 = .error .badOperation ∧ State.reset.status.busy = false := by decide

theorem witness_ErrorsOfEachCommand :
    Instr.unpackL 1 0x63 .seq ∈ [Instr.unpackD 1 0x63 .seq, .unpackL 1 0x63 .seq, .pack 1 0x63 .seq] ∧
    validate (.unpackL 1 0x63 .seq) two = .error .invalidBitOrder ∧
    validate (.packb 1 0x62 .seq) two = .error .sizeMismatch ∧
    validate .requant (withOperands 0xFFFFFFFC 8 0 0 State.reset) = .error .addrFault := by decide +kernel

/-- The largest width and its longest source that passes, and the width 1. -/
theorem witness_OutputLengthFitsItsRegister_numbers : ((4 : Nat) = 1 ∨ 4 = 2 ∨ 4 = 4) ∧ ((1 : Nat) = 1 ∨ 1 = 2 ∨ 1 = 4) := by
  decide

theorem witness_OutputLengthFitsItsRegister :
    validate (.unpackbD 2 0x62 .seq) two = .ok (bufTwo (.unpackbD 2 0x62 .seq)) := by decide

theorem witness_DirectUnpackUnit_seq :
    resolve 2 0x62 = .ok ⟨.w2, .big⟩ ∧
      (atPlace ⟨.run, 1, []⟩ (running (.unpackbD 2 0x62 .seq) two)).inPhase (.unpackbD 2 0x62 .seq) .run
        (bufTwo (.unpackbD 2 0x62 .seq)) ∧
      (atPlace ⟨.run, 1, []⟩ (running (.unpackbD 2 0x62 .seq) two)).unitLeft .seq 2 :=
  ⟨by decide, ⟨by decide, by decide, by decide⟩, ⟨by decide, by decide⟩, by decide⟩

theorem witness_DirectUnpackUnit_par :
    resolve 2 0x62 = .ok ⟨.w2, .big⟩ ∧
      midParallel.inPhase (.unpackD 2 0x62 .par) .run (bufTwo (.unpackD 2 0x62 .par)) ∧ midParallel.unitLeft .par 2 :=
  ⟨by decide, ⟨by decide, by decide, by decide⟩, ⟨by decide, by decide, by decide⟩, 0, by decide, by decide⟩

theorem witness_LookupUnpackUnit :
    resolve 4 0x6C = .ok ⟨.w4, .little⟩ ∧
      (running (.unpackL 4 0x6C .par) two).inPhase (.unpackL 4 0x6C .par) .run (bufTwo (.unpackL 4 0x6C .par)) ∧
      (running (.unpackL 4 0x6C .par) two).unitLeft .par 2 ∧
      (0x1800 + (two.mem.read (two.opnd.srcAddr.toNat + 1)).toNat * 2 + 1 < lutSize) :=
  ⟨by decide, ⟨by decide, by decide, by decide⟩, ⟨⟨by decide, by decide, by decide⟩, 1, by decide, by decide⟩,
    by decide +kernel⟩

/-- The last entry of the ROM. -/
theorem witness_LookupRomContent :
    (7167 : Nat) = lutBase (Codec.mk .w4 .big).width.index (Codec.mk .w4 .big).order.index +
      255 * (Codec.mk .w4 .big).elements + 1 ∧ 255 < 256 ∧ 1 < (Codec.mk .w4 .big).elements ∧ 7167 < lutSize := by decide

theorem witness_LookupUnpackEqualsDirectUnpack : two.status.busy = false ∧ two.host.inputs = [] := by decide

theorem witness_LookupUnpackCompletesAsDirectUnpack :
    two.status.busy = false ∧ two.host.inputs = [] ∧ two.backs two.source ∧
      two.backs (two.destination (.unpackL 2 0x62 .par)) := by decide

theorem witness_PackUnit :
    resolve 4 0x00 = .ok ⟨.w4, .big⟩ ∧
      (running (.packb 4 0x00 .seq) (ready [0x0A, 0x0B] 1)).inPhase (.packb 4 0x00 .seq) .run
        ((ready [0x0A, 0x0B] 1).buffers (.packb 4 0x00 .seq)) ∧
      (running (.packb 4 0x00 .seq) (ready [0x0A, 0x0B] 1)).unitLeft .seq (2 / (Codec.mk .w4 .big).elements) :=
  ⟨by decide, ⟨by decide, by decide, by decide⟩, ⟨by decide, by decide⟩, by decide⟩

theorem witness_PackUndoesUnpack :
    ([0x0F, 0x0F] : List Byte).length = (Codec.mk .w4 .little).elements ∧
      ∀ x ∈ ([0x0F, 0x0F] : List Byte), x.toNat < 2 ^ (Codec.mk .w4 .little).bw := by decide

theorem witness_AnyUnitMayBeNext :
    resolve 2 0x62 = .ok ⟨.w2, .big⟩ ∧
      midParallel.inPhase (.unpackD 2 0x62 .par) .run (bufTwo (.unpackD 2 0x62 .par)) ∧
      midParallel.seq.within .par (unitCount (.unpackD 2 0x62 .par) midParallel.opnd.srcLen.toNat) ∧
      0 < unitCount (.unpackD 2 0x62 .par) midParallel.opnd.srcLen.toNat ∧ 0 ∉ midParallel.seq.done :=
  ⟨by decide, ⟨by decide, by decide, by decide⟩, ⟨by decide, by decide, by decide⟩, by decide, by decide⟩

theorem witness_SuccessCompletion_seq :
    (atPlace ⟨.run, 2, []⟩ (running (.unpackL 2 0x62 .seq) two)).inPhase (.unpackL 2 0x62 .seq) .run
        (bufTwo (.unpackL 2 0x62 .seq)) ∧
      (atPlace ⟨.run, 2, []⟩ (running (.unpackL 2 0x62 .seq) two)).allPerformed .seq 2 :=
  ⟨⟨by decide, by decide, by decide⟩, ⟨by decide, by decide⟩, by decide⟩

theorem witness_SuccessCompletion_par :
    (atPlace ⟨.run, 0, [0, 1]⟩ (running (.unpackL 2 0x62 .par) two)).inPhase (.unpackL 2 0x62 .par) .run
        (bufTwo (.unpackL 2 0x62 .par)) ∧
      (atPlace ⟨.run, 0, [0, 1]⟩ (running (.unpackL 2 0x62 .par) two)).allPerformed .par 2 :=
  ⟨⟨by decide, by decide, by decide⟩, ⟨by decide, by decide, by decide⟩, by decide⟩

theorem witness_SuccessCompletion_requant :
    (atPlace ⟨.quant, 1, []⟩ (running .requant four)).inPhase .requant .quant (bufFour .requant) ∧
      (atPlace ⟨.quant, 1, []⟩ (running .requant four)).allPerformed .seq (four.opnd.srcLen.toNat / 4) :=
  ⟨⟨by decide, by decide, by decide⟩, ⟨by decide, by decide⟩, by decide⟩

theorem witness_StatisticsUnit :
    (atPlace ⟨.stat, 1, []⟩ (running .requant four)).inPhase .requant .stat (bufFour .requant) ∧
      (1 : Nat) < four.opnd.srcLen.toNat / 2 :=
  ⟨⟨by decide, by decide, by decide⟩, by decide⟩

theorem witness_EndOfPass1 :
    (atPlace ⟨.stat, 2, []⟩ (running .requant four)).inPhase .requant .stat (bufFour .requant) ∧
      (2 : Nat) = four.opnd.srcLen.toNat / 2 :=
  ⟨⟨by decide, by decide, by decide⟩, by decide⟩

theorem witness_QuantizeUnit :
    (atPlace ⟨.quant, 0, []⟩ (running .requant four)).inPhase .requant .quant (bufFour .requant) ∧
      (0 : Nat) < four.opnd.srcLen.toNat / 4 :=
  ⟨⟨by decide, by decide, by decide⟩, by decide⟩

theorem witness_LevelIsTheRealThresholdRule : 0 < 4 ∧ (0 : Int) ≤ 872 := by decide

theorem witness_SpreadIsThePopulationVariance : 0 < 4 := by decide

/-- R233: "`X = 4, V = 872` gives `tpos = tneg = 8`". -/
theorem witness_IntegerThresholds :
    0 < 4 ∧ (0 : Int) ≤ 872 ∧ IsLeast {t : Nat | levelK 872 ≤ ((t : Int) * 100000000 * (4 : Nat)) ^ 2} 8 ∧
      IsLeast {t : Nat | levelK 872 < ((t : Int) * 100000000 * (4 : Nat)) ^ 2} 8 := by
  refine ⟨by decide, by decide, ⟨by decide, fun t ht => ?_⟩, ⟨by decide, fun t ht => ?_⟩⟩ <;>
    exact Nat.le_of_not_lt fun h => absurd ht (by interval_cases t <;> decide)

theorem witness_NegationOfLevels : (3 : Int) ≠ 0 ∧ levelQ 3 4 ≠ levelK 872 ∧ levelQ 98159883 1 = levelK 10000000000000000 := by
  decide

theorem witness_ChannelsAreIndependent :
    0 < 4 / 4 ∧ (∀ i < 4 / 2, (fun _ : Nat => (0 : Byte)) (2 * i) = (fun k => if k % 2 = 0 then 0 else 1) (2 * i)) ∧
      (∀ i < 4 / 2, (fun _ : Nat => (1 : Byte)) (2 * i + 1) = (fun k => if k % 2 = 0 then 0 else 1) (2 * i + 1)) := by
  decide

theorem witness_StatisticsFitTheirRegisters : 2 ^ 31 - 1 < 2 ^ 31 := by decide

theorem witness_RegisterMap : 0x48 ≤ 0x48 := by decide

theorem witness_RegisterAccessRules_read :
    0x44 % 4 = 0 ∧ (midParallel.withInputs [.regRead 0x44 4]).host.inputs = .regRead 0x44 4 :: [] := by decide

theorem witness_RegisterAccessRules_ignored :
    0x1C % 4 = 0 ∧ 0x1C ∉ [0x00, 0x0C, 0x10, 0x14, 0x18] ∧
      (two.withInputs [.regWrite 0x1C 4 7]).host.inputs = .regWrite 0x1C 4 7 :: [] := by decide

theorem witness_RegisterAccessRules_dropped :
    0x18 % 4 = 0 ∧ (midParallel.withInputs [.regWrite 0x18 4 7]).status.busy = true ∧
      (midParallel.withInputs [.regWrite 0x18 4 7]).host.inputs = .regWrite 0x18 4 7 :: [] := by decide

theorem witness_RegisterAccessRules_constant :
    midParallel.status.busy = true ∧ midParallel.host.inputs.head? ≠ some .reset ∧ ∃ t, step midParallel = .next t :=
  ⟨by decide, by decide, _, rfl⟩

theorem witness_OperandRegisterWrites :
    two.status.busy = false ∧ (two.withInputs [.regWrite 0x0C 4 7]).host.inputs = .regWrite 0x0C 4 7 :: [] ∧
      (two.withInputs [.regWrite 0x10 4 7]).host.inputs = .regWrite 0x10 4 7 :: [] ∧
      (two.withInputs [.regWrite 0x14 4 7]).host.inputs = .regWrite 0x14 4 7 :: [] ∧
      (two.withInputs [.regWrite 0x18 4 7]).host.inputs = .regWrite 0x18 4 7 :: [] := by decide

theorem witness_CommandsKeepTheirOperandRegisters :
    (∃ t, exec (.unpackD 2 0x62 .par) midParallel = .next t) ∧ (∃ t, exec .requant four = .next t) :=
  ⟨⟨_, rfl⟩, ⟨_, rfl⟩⟩

/-- The end of pass 1 of the source 01 02 03 FF changes the statistics registers. -/
theorem witness_StatisticsRegistersChangeOnlyAtTheEndOfPass1 :
    ∃ t, step (atPlace ⟨.stat, 2, []⟩ (running .requant four)) = .next t ∧
      t.stats ≠ (atPlace ⟨.stat, 2, []⟩ (running .requant four)).stats :=
  ⟨_, rfl, by decide⟩

/-- A write to the last source byte races, a write to the byte above it does not; a read of the source does not race. -/
theorem witness_BufferHazard :
    0x101 < 2 ^ 32 ∧ ¬ midParallel.isUnbacked 0x101 ∧ midParallel.writeRaces 0x101 ∧ ¬ midParallel.writeRaces 0x102 ∧
      midParallel.readRaces 0x207 ∧ ¬ midParallel.readRaces 0x208 ∧ ¬ midParallel.readRaces 0x101 ∧
      (midParallel.withInputs [.memWrite 0x101 0]).host.inputs = .memWrite 0x101 0 :: [] ∧
      (midParallel.withInputs [.memRead 0x101]).host.inputs = .memRead 0x101 :: [] := by decide

/-- A completed command, and the host about to read `STATUS`. -/
def completedTwo : State :=
  { running (.unpackD 2 0x62 .par) two with
    status := ⟨false, true, false⟩, seq := ⟨.idle, 0, []⟩, outLen := 8
    host := { (running (.unpackD 2 0x62 .par) two).host with inputs := [.regRead 0x04 4] } }

theorem witness_BuffersAreHandedBackByAReadOfDone :
    ∃ t, step completedTwo = .next t ∧ bufTwo (.unpackD 2 0x62 .par) ∈ completedTwo.host.handed ∧
      bufTwo (.unpackD 2 0x62 .par) ∉ t.host.handed :=
  ⟨_, rfl, by decide, by decide⟩

theorem witness_PollWaitsForDone :
    (midParallel.withInputs [.poll]).host.inputs = .poll :: [] ∧ midParallel.status.done = false ∧
      (completedTwo.withInputs [.poll]).host.inputs = .poll :: [] ∧ completedTwo.status.done = true := by decide

theorem witness_ResetEvent : (midParallel.withInputs [.reset]).host.inputs = .reset :: [] := by decide

theorem witness_CommandsWriteOnlyTheirDestination :
    ∃ t, exec (.unpackD 2 0x62 .par) midParallel = .next t ∧ midParallel.status.busy = true ∧ two.status.busy = false :=
  ⟨_, rfl, by decide, by decide⟩

theorem witness_CommandsReadOnlyTheirSource :
    ∃ t, exec (.unpackD 2 0x62 .par) midParallel = .next t ∧
      ∀ a, midParallel.source.has a → (midParallel.mem.write 0x300 7).read a = midParallel.mem.read a := by
  refine ⟨_, rfl, fun a ha => read_write_other _ _ fun h => ?_⟩
  subst h
  revert ha
  decide

/-- `midParallel`, with any of its two units performed, meets the invariant. -/
theorem parallel_inv (done : List Nat) (h : done.Pairwise (· < ·) ∧ ∀ u ∈ done, u < 2) :
    (atPlace ⟨.run, 0, done⟩ midParallel).Inv where
  memWf := (by decide : two.mem.wf)
  statusLegal := .inr (.inl rfl)
  idlePhase := ⟨(fun h => by cases h), (fun h => by cases h)⟩
  idleUnits := fun h => by cases h
  codeRange := (by decide : (0 : Word).toNat ≤ 6)
  errCode := (by decide : false = true ↔ (0 : Word) ≠ 0)
  outLenSuccess := fun h => absurd rfl h
  running := fun _ => ⟨.unpackD 2 0x62 .par, bufTwo (.unpackD 2 0x62 .par), (by decide : decode 0x00620221 = _), rfl,
    List.mem_singleton.2 rfl, by
      unfold State.fits
      rw [if_neg (by decide)]
      exact ⟨rfl, rfl, h⟩⟩

/-- A waiting state that meets the invariant. -/
theorem two_inv : two.Inv where
  memWf := by decide
  statusLegal := by decide
  idlePhase := by decide
  idleUnits := by decide
  codeRange := by decide
  errCode := by decide
  outLenSuccess := by decide
  running := fun h => by cases h

/-- A running state that meets the invariant: one of two parallel units performed. -/
theorem witness_EveryStepKeepsInv_parallel : midParallel.Inv ∧ ∃ t, step midParallel = .next t :=
  ⟨parallel_inv [1] (by decide), _, rfl⟩

/-- The completion step of `UNPACK.D 2, 'b', par`, both units performed. -/
theorem witness_SuccessCompletion_only :
    (atPlace ⟨.run, 0, [0, 1]⟩ midParallel).Inv ∧ (atPlace ⟨.run, 0, [0, 1]⟩ midParallel).status.busy = true ∧
      decode (atPlace ⟨.run, 0, [0, 1]⟩ midParallel).cmd = .ok (.unpackD 2 0x62 .par) ∧
      ∃ t, exec (.unpackD 2 0x62 .par) (atPlace ⟨.run, 0, [0, 1]⟩ midParallel) = .next t ∧ t.status.done = true :=
  ⟨parallel_inv [0, 1] (by decide), by decide, by decide, _, rfl, rfl⟩

/-- A running `REQUANT` that meets the invariant: no unit of pass 1 performed. -/
theorem witness_EveryStepKeepsInv_requant : (running .requant four).Inv ∧ ∃ t, step (running .requant four) = .next t where
  left :=
    { memWf := by decide
      statusLegal := by decide
      idlePhase := by decide
      idleUnits := by decide
      codeRange := by decide
      errCode := by decide
      outLenSuccess := by decide
      running := fun _ => ⟨.requant, bufFour .requant, by decide, by decide, by decide,
        by
          unfold State.fits
          rw [if_pos rfl]
          exact .inl ⟨by decide, ⟨by decide, by decide⟩, rfl⟩⟩ }
  right := ⟨_, rfl⟩

/-- States of the invariant, one waiting and one running. -/
theorem witness_StepsStopOnlyForTheHost_inv : two.Inv ∧ midParallel.Inv := ⟨two_inv, parallel_inv [1] (by decide)⟩

/-- Each ground for a stop at the edge of its range: the first address that does not exist, a partial and an unaligned access,
the last byte of a handed-over destination. -/
theorem witness_StepsStopOnlyForTheHost :
    step (two.withInputs [.memRead (2 ^ 32)]) = .fault .addressOutside ∧
      step (two.withInputs [.regRead 0x02 4]) = .refused .registerAccessForm ∧
      step (two.withInputs [.regWrite 0x44 3 0]) = .refused .registerAccessForm ∧
      step (midParallel.withInputs [.memRead 0x207]) = .refused .bufferRace ∧ midParallel.host.inputs = [] :=
  ⟨rfl, rfl, rfl, rfl, by decide⟩

/-- A platform that backs nothing at 0x207: a host access there and a launch over it are refused. -/
theorem witness_StepsStopOnlyForTheHost_unbacked :
    (let s := { two with host := { two.host with unbacked := [⟨0x207, 1⟩] } }
     step (s.withInputs [.memWrite 0x207 0]) = .refused .unbackedAddress ∧
      step (s.withInputs [.regWrite 0x00 4 0x00620201]) = .refused .unbackedAddress) :=
  ⟨rfl, rfl⟩

theorem witness_WholePackAndUnpack_unpack :
    resolve 2 0x62 = .ok ⟨.w2, .big⟩ ∧ two.mem.wf ∧ two.host.inputs = [] ∧
      two.launches (.unpackbL 2 0x62 .par) (bufTwo (.unpackbL 2 0x62 .par)) :=
  ⟨by decide, by decide, by decide, by decide, by decide, by decide, by decide⟩

theorem witness_WholePackAndUnpack_pack :
    resolve 2 0x62 = .ok ⟨.w2, .big⟩ ∧ four.mem.wf ∧ four.host.inputs = [] ∧
      four.launches (.packb 2 0x62 .par) (bufFour (.packb 2 0x62 .par)) :=
  ⟨by decide, by decide, by decide, by decide, by decide, by decide, by decide⟩

theorem witness_WholeRequantize : four.launches .requant (bufFour .requant) ∧ four.mem.wf ∧ four.host.inputs = [] :=
  ⟨⟨by decide, by decide, by decide, by decide⟩, by decide, by decide⟩

theorem witness_CommandsCompleteInTheirStepCount :
    four.launches (.pack 2 0x62 .seq) (bufFour (.pack 2 0x62 .seq)) ∧ four.host.inputs = [] ∧
      0 ≤ engineSteps (.pack 2 0x62 .seq) four.opnd.srcLen.toNat ∧ 2 = engineSteps (.pack 2 0x62 .seq) four.opnd.srcLen.toNat :=
  ⟨⟨by decide, by decide, by decide, by decide⟩, by decide, by decide, by decide⟩

end Sys2Proof.Tests
end

section
/-! PROOFS. The word of a decoded command (`30_encoding.md` R90, R99), and what one event and one step can do, said once. -/

namespace Sys2Proof

/-! ### The word of a decoded command -/

/-- A mode goes into the `PAR` bit it was read from (R93). -/
theorem modeOf_bit {par : Nat} (h : par < 2) : (modeOf par).bit = par := by
  interval_cases par <;> rfl

/-- A word without reserved bits is the sum of its fields (R90). -/
theorem commandWord_of_fields {w : Word} {op impl : Nat} (h0 : slice w.toNat 7 6 = 0) (h1 : slice w.toNat 31 24 = 0)
    (hop : slice w.toNat 3 0 = op) (himpl : slice w.toNat 4 4 = impl) :
    commandWord op impl (modeOf (slice w.toNat 5 5)).bit (slice w.toNat 15 8) (slice w.toNat 23 16) = w := by
  have hw := w.isLt
  have hpar : slice w.toNat 5 5 < 2 := Nat.mod_lt _ (by decide)
  rw [modeOf_bit hpar, commandWord]
  apply BitVec.eq_of_toNat_eq
  rw [BitVec.toNat_ofNat]
  simp only [slice] at *
  omega

/-- `IMPL` is one bit (R92). -/
theorem impl_eq_one {w : Word} (h : slice w.toNat 4 4 ≠ 0) : slice w.toNat 4 4 = 1 := by
  simp only [slice] at *
  omega

/-- The word a command was decoded from is the command's word (R90, R99). -/
theorem encode_of_decode {w : Word} {i : Instr} (h : decode w = .ok i) : encode i = w := by
  unfold decode at h
  by_cases hrsv : slice w.toNat 7 6 ≠ 0 ∨ slice w.toNat 31 24 ≠ 0
  · simp [hrsv] at h
  · rw [if_neg hrsv] at h
    push Not at hrsv
    obtain ⟨h0, h1⟩ := hrsv
    have word := @commandWord_of_fields w
    split_ifs at h with hop himpl hop himpl hop himpl hop himpl hop hreq <;> cases h
    · exact word h0 h1 hop himpl
    · exact word h0 h1 hop (impl_eq_one himpl)
    · exact word h0 h1 hop himpl
    · exact word h0 h1 hop (impl_eq_one himpl)
    · exact word h0 h1 hop himpl
    · exact word h0 h1 hop himpl
    · obtain ⟨himpl, hpar, hn, ho⟩ := hreq
      have := word h0 h1 hop himpl
      rwa [hpar, hn, ho] at this

/-- Encoding a decoded command loses nothing, so `CMD` spells it after its accept. -/
theorem decode_encode_of_decode {w : Word} {i : Instr} (h : decode w = .ok i) : decode (encode i) = .ok i := by
  rw [encode_of_decode h, h]

end Sys2Proof

namespace Sys2Proof.Machine

/-! ### What one event does -/

/-- The ways an event answers a next state, from `s` (the event taken from the list) to the state given. -/
inductive EventMove (s : State) : Input → State → Prop where
  /-- Nothing but the host's side changes, and no buffer of an unfinished command is handed back: a register or memory read,
  a poll, a dropped register write, a turn of the waiting engine. -/
  | host (ev : Input) (side : HostSide) (hh : s.status.done = true ∨ side.handed = s.host.handed) :
      EventMove s ev { s with host := side }
  /-- A register write while the engine waits, to an operand register or to a register that ignores it. -/
  | operand (off bytes : Nat) (v : Word) (hb : s.status.busy = false) :
      EventMove s (.regWrite off bytes v) (s.writeOperand off v)
  /-- The accept of a command. -/
  | accept (off bytes : Nat) (w : Word) (i : Instr) (t : State) (hb : s.status.busy = false) (hd : decode w = .ok i)
      (h : accept i s = .next t) : EventMove s (.regWrite off bytes w) t
  /-- The accept of an illegal word. -/
  | illegal (off bytes : Nat) (w : Word) (hb : s.status.busy = false) :
      EventMove s (.regWrite off bytes w) (acceptIllegal w s)
  /-- A memory write that races with no command. -/
  | memWrite (a : Nat) (v : Byte) (ha : a < 2 ^ 32) (hr : ¬ s.writeRaces a) :
      EventMove s (.memWrite a v) { s with mem := s.mem.write a v }
  /-- A step of the running command. -/
  | engine (i : Instr) (b : Buffers) (t : State) (hb : s.status.busy = true) (hd : decode s.cmd = .ok i)
      (h : EngineMove i b s t) : EventMove s .engine t
  /-- Reset. -/
  | reset : EventMove s .reset s.afterReset

variable {s t : State} {ev : Input} {i : Instr} {b : Buffers}

/-- A read of a register changes the host's side only, and hands buffers back only when `DONE = 1`. -/
theorem EventMove.reply_handBack (r : Reply) (off : Nat) : EventMove s ev ((s.reply r).handBack off) := by
  unfold State.handBack
  split
  · rename_i h
    exact .host ev { s.host with replies := r :: s.host.replies, handed := [] } (.inl h.2)
  · exact .host ev { s.host with replies := r :: s.host.replies } (.inr rfl)

/-- Every way an event answers a next state. -/
theorem event_cases (h : event ev s = .next t) : EventMove s ev t := by
  cases ev with
  | regRead off bytes =>
    obtain ⟨-, rfl⟩ := hostRegRead_cases h
    exact .reply_handBack _ _
  | regWrite off bytes v =>
    rcases hostRegWrite_cases h with ⟨-, rfl⟩ | ⟨hb, -, h⟩ | ⟨hb, -, rfl⟩
    · exact .host _ t.host (.inr rfl)
    · rcases acceptWord_cases hb h with ⟨i, hd, h⟩ | ⟨e, -, rfl⟩
      · exact .accept off bytes v i t hb hd h
      · exact .illegal off bytes v hb
    · exact .operand off bytes v hb
  | poll =>
    simp only [event, hostPoll] at h
    split at h
    · cases h
      exact .reply_handBack _ _
    · rename_i hd
      cases h
      rw [handBack_of_not_done _ _ (by simpa using hd)]
      exact .host _ _ (.inr rfl)
  | memRead a =>
    obtain ⟨-, -, -, rfl⟩ := hostMemRead_cases h
    exact .host _ _ (.inr rfl)
  | memWrite a v =>
    obtain ⟨ha, -, hr, rfl⟩ := hostMemWrite_cases h
    exact .memWrite a v ha hr
  | engine =>
    rcases engineTurn_cases h with ⟨-, rfl⟩ | ⟨hb, i, b, hd, h⟩
    · exact .host _ t.host (.inr rfl)
    · exact .engine i b t hb hd h
  | reset =>
    cases h
    exact .reset

/-- A step is an event: the next one of the list, or the engine's turn when none is pending (log 3). -/
theorem step_event (h : step s = .next t) :
    ∃ ev rest, EventMove (s.withInputs rest) ev t ∧ (ev = .reset → s.host.inputs.head? = some .reset) := by
  cases hin : s.host.inputs with
  | nil =>
    have hs : s.withInputs [] = s := by rw [State.withInputs, ← hin]
    rw [step_nil hin] at h
    exact ⟨.engine, [], event_cases (by rwa [hs]), by simp⟩
  | cons ev rest =>
    rw [step_cons hin] at h
    exact ⟨ev, rest, event_cases h, by simp⟩

end Sys2Proof.Machine
end

section
/-! PROOFS. The sums of pass 1 (`45_requant.md` R223): what they read and their bounds (`10_state.md` R33). -/

namespace Sys2Proof.Machine

/-! ### Sums -/

theorem sumUpTo_eq_sum (n : Nat) (f : Nat → Int) : sumUpTo n f = ∑ i ∈ Finset.range n, f i := by
  induction n with
  | zero => rfl
  | succ n ih => rw [sumUpTo, ih, Finset.sum_range_succ]

/-- A sum depends on its first `n` terms only. -/
theorem sumUpTo_congr {n : Nat} {f g : Nat → Int} (h : ∀ i < n, f i = g i) : sumUpTo n f = sumUpTo n g := by
  rw [sumUpTo_eq_sum, sumUpTo_eq_sum]
  exact Finset.sum_congr rfl fun i hi => h i (Finset.mem_range.1 hi)

/-- A sum of terms of size at most `c` has size at most `c * n`. -/
theorem abs_sumUpTo_le {f : Nat → Int} {c : Int} (h : ∀ i, |f i| ≤ c) (n : Nat) : |sumUpTo n f| ≤ c * n := by
  rw [sumUpTo_eq_sum]
  calc |∑ i ∈ Finset.range n, f i| ≤ ∑ i ∈ Finset.range n, |f i| := Finset.abs_sum_le_sum_abs _ _
    _ ≤ ∑ _i ∈ Finset.range n, c := Finset.sum_le_sum fun i _ => h i
    _ = c * n := by rw [Finset.sum_const, Finset.card_range, nsmul_eq_mul, mul_comm]

theorem sumUpTo_nonneg {f : Nat → Int} (h : ∀ i, 0 ≤ f i) (n : Nat) : 0 ≤ sumUpTo n f := by
  rw [sumUpTo_eq_sum]
  exact Finset.sum_nonneg fun i _ => h i

/-! ### Samples -/

/-- A sample is an `s8` (R10). -/
theorem abs_toS8_le (b : Byte) : |toS8 b| ≤ 128 := by
  have := b.isLt
  rw [abs_le, toS8]
  split <;> omega

theorem abs_toS8_sq_le (b : Byte) : |toS8 b * toS8 b| ≤ 16384 := by
  rw [abs_mul]
  exact mul_le_mul (abs_toS8_le b) (abs_toS8_le b) (abs_nonneg _) (by decide)

/-! ### The sums of pass 1 -/

/-- The sums of `n` complex samples read the first `2*n` source bytes only (R69, R223). -/
theorem pass1_congr {f g : Nat → Byte} {n : Nat} (h : ∀ j < 2 * n, f j = g j) : pass1 f n = pass1 g n := by
  have hre : ∀ i < n, f (2 * i) = g (2 * i) := fun i hi => h _ (by omega)
  have him : ∀ i < n, f (2 * i + 1) = g (2 * i + 1) := fun i hi => h _ (by omega)
  simp only [pass1, Accumulators.mk.injEq]
  refine ⟨?_, ?_, ?_, ?_⟩ <;> refine sumUpTo_congr fun i hi => ?_ <;> simp only [hre i hi, him i hi]

/-- A unit of pass 1 takes the sums of the samples before it to the sums with it (R223). -/
theorem statUnit_acc {s : State} {n : Nat} (h : s.acc = pass1 s.srcByte n) :
    (statUnit n s).acc = pass1 s.srcByte (n + 1) := by
  simp only [statUnit, h]
  rfl

/-- `S1` of a channel (R33). -/
theorem abs_sum_samples_le (f : Nat → Byte) (n : Nat) : |sumUpTo n fun i => toS8 (f i)| ≤ 128 * n :=
  abs_sumUpTo_le (fun i => abs_toS8_le (f i)) n

/-- `S2` of a channel (R33). -/
theorem sum_squares_bounds (f : Nat → Byte) (n : Nat) :
    0 ≤ (sumUpTo n fun i => toS8 (f i) * toS8 (f i)) ∧ (sumUpTo n fun i => toS8 (f i) * toS8 (f i)) ≤ 16384 * n :=
  ⟨sumUpTo_nonneg (fun _ => mul_self_nonneg _) n,
    (le_abs_self _).trans (abs_sumUpTo_le (fun i => abs_toS8_sq_le (f i)) n)⟩

/-- A sum within R33's bounds is what its 64-bit register reads as. -/
theorem toInt_ofInt_of_abs_le {v : Int} {x : Nat} (hx : x < 2 ^ 31) (h : |v| ≤ 16384 * x) :
    (BitVec.ofInt 64 v).toInt = v := by
  rw [abs_le] at h
  exact BitVec.toInt_ofInt_eq_self (by decide) (by omega) (by omega)

/-- Settles O36: each sum is bounded term by term, and the bound at `X < 2^31` is below 2^63. -/
theorem statisticsFitTheirRegisters : Obligations.StatisticsFitTheirRegisters := by
  intro src x hx a r
  have re1 : |a.s1Re| ≤ 128 * x := abs_sum_samples_le (fun i => src (2 * i)) x
  have im1 : |a.s1Im| ≤ 128 * x := abs_sum_samples_le (fun i => src (2 * i + 1)) x
  have re2 : 0 ≤ a.s2Re ∧ a.s2Re ≤ 16384 * x := sum_squares_bounds (fun i => src (2 * i)) x
  have im2 : 0 ≤ a.s2Im ∧ a.s2Im ≤ 16384 * x := sum_squares_bounds (fun i => src (2 * i + 1)) x
  refine ⟨?_, toInt_ofInt_of_abs_le hx ?_, toInt_ofInt_of_abs_le hx ?_, toInt_ofInt_of_abs_le hx ?_,
    toInt_ofInt_of_abs_le hx ?_, re1, im1, re2.1, re2.2, im2.1, im2.2⟩
  · exact (BitVec.toNat_ofNat x 32).trans (Nat.mod_eq_of_lt (by omega))
  · omega
  · omega
  · rw [abs_of_nonneg re2.1]
    exact re2.2
  · rw [abs_of_nonneg im2.1]
    exact im2.2

end Sys2Proof.Machine
end

section
/-! PROOFS. Which steps change the registers (`10_state.md` R29, R31, R33) and how a step reaches a command's meaning. -/

namespace Sys2Proof.Machine

variable {s t : State} {ev : Input} {i : Instr} {b : Buffers}

/-! ### Commands and their registers -/

/-- Only the end of pass 1 of a `REQUANT` changes the statistics registers (R33, R224). -/
theorem engineMove_stats (h : EngineMove i b s t) :
    t.stats = s.stats ∨ (i = .requant ∧ s.seq.phase = .stat ∧ complexCount s.opnd.srcLen.toNat ≤ s.seq.unit ∧
      t.stats = StatRegs.ofSums (complexCount s.opnd.srcLen.toNat) s.acc) := by
  cases h with
  | write p u w s₀ bs hp hin hn hw hbs =>
    left
    rw [(nextUnit_some hn).2.1]
    simp
  | complete => exact .inl rfl
  | stat => exact .inl (by simp)
  | endStat hi hin hu => exact .inr ⟨hi, hin.2.1, hu, rfl⟩

/-- Only a work unit of pass 1 of a `REQUANT` changes the accumulators (R31, R223). -/
theorem engineMove_acc (hi : i ≠ .requant) (h : EngineMove i b s t) : t.acc = s.acc := by
  cases h with
  | write p u w s₀ bs hp hin hn hw hbs =>
    rw [(nextUnit_some hn).2.1]
    simp
  | complete => rfl
  | stat hr => exact absurd hr hi
  | endStat hr => exact absurd hr hi

/-- An accept leaves the statistics registers alone, and only that of a `REQUANT` zeroes the accumulators (R200, R254). -/
theorem accept_stats_acc (h : accept i s = .next t) : t.stats = s.stats ∧ (i ≠ .requant → t.acc = s.acc) := by
  rcases accept_cases h with ⟨e, -, rfl⟩ | ⟨b, -, -, -, rfl⟩
  · exact ⟨rfl, fun _ => rfl⟩
  · exact ⟨rfl, fun hi => by simp [hi]⟩

/-- Settles O40: no accept and no engine step writes an operand register; the others follow from what each engine step does. -/
theorem commandsKeepTheirOperandRegisters : Obligations.CommandsKeepTheirOperandRegisters := by
  intro i s t h
  refine ⟨exec_opnd h, fun hi => ?_⟩
  rcases exec_cases h with ⟨-, h⟩ | ⟨-, b, h⟩
  · exact ⟨(accept_stats_acc h).1, (accept_stats_acc h).2 hi⟩
  · have hs := (engineMove_stats h).resolve_right fun hr => hi hr.1
    exact ⟨hs, engineMove_acc hi h⟩

/-! ### Steps and the statistics registers -/

/-- An event that changes the statistics registers is reset or the engine's turn at the end of pass 1 (R33). -/
theorem eventMove_stats (h : EventMove s ev t) (hne : t.stats ≠ s.stats) :
    ev = .reset ∨ (s.status.busy = true ∧ decode s.cmd = .ok .requant ∧ s.seq.phase = .stat ∧
      complexCount s.opnd.srcLen.toNat ≤ s.seq.unit ∧
      t.stats = StatRegs.ofSums (complexCount s.opnd.srcLen.toNat) s.acc) := by
  cases h with
  | host => exact absurd rfl hne
  | operand => exact absurd (by simp) hne
  | accept off bytes w i _ hb hd h => exact absurd (accept_stats_acc h).1 hne
  | illegal => exact absurd rfl hne
  | memWrite => exact absurd rfl hne
  | engine i b _ hb hd h =>
    obtain ⟨rfl, hp, hu, hs⟩ := (engineMove_stats h).resolve_left hne
    exact .inr ⟨hb, hd, hp, hu, hs⟩
  | reset => exact .inl rfl

/-- Settles O41: of all events only reset and the end of pass 1 write the statistics registers. -/
theorem statisticsRegistersChangeOnlyAtTheEndOfPass1 : Obligations.StatisticsRegistersChangeOnlyAtTheEndOfPass1 := by
  intro s t h hne
  obtain ⟨ev, rest, hm, hreset⟩ := step_event h
  exact (eventMove_stats hm hne).imp hreset id

/-! ### Register accesses -/

/-- While a command runs every event but reset leaves `CMD` and the operand registers alone (R29). -/
theorem eventMove_busy_registers (hb : s.status.busy = true) (hr : ev ≠ .reset) (h : EventMove s ev t) :
    t.cmd = s.cmd ∧ t.opnd = s.opnd := by
  cases h with
  | host => exact ⟨rfl, rfl⟩
  | operand _ _ _ hb' => exact absurd (hb.symm.trans hb') (by decide)
  | accept _ _ _ _ _ hb' => exact absurd (hb.symm.trans hb') (by decide)
  | illegal _ _ _ hb' => exact absurd (hb.symm.trans hb') (by decide)
  | memWrite => exact ⟨rfl, rfl⟩
  | engine i b _ _ _ h =>
    obtain ⟨hcmd, -, hopnd, -⟩ := engineMove_frame h
    exact ⟨hcmd, hopnd⟩
  | reset => exact absurd rfl hr

/-- A read's answer and the handing back change the host's replies and its record of buffers only. -/
theorem reply_handBack_eq (r : Reply) (off : Nat) :
    (s.reply r).handBack off = { s with
      host := { s.host with
        replies := ((s.reply r).handBack off).host.replies
        handed := ((s.reply r).handBack off).host.handed } } := by
  unfold State.handBack
  split <;> rfl

/-- A whole write while `BUSY = 1` is dropped (R29 (c)). -/
theorem hostRegWrite_busy {off : Nat} (v : Word) (ho : off % 4 = 0) (hb : s.status.busy = true) :
    hostRegWrite off 4 v s = .next s := by
  simp [hostRegWrite, ho, hb]

/-- A whole write to an offset of no `RW` register is ignored (R29 (b)). -/
theorem hostRegWrite_ignored {off : Nat} (v : Word) (ho : off % 4 = 0) (hn : off ∉ [0x00, 0x0C, 0x10, 0x14, 0x18]) :
    hostRegWrite off 4 v s = .next s := by
  rw [List.mem_cons, not_or] at hn
  simp [hostRegWrite, ho, hn.1, writeOperand_other s off v hn.2]

/-- A whole write to `CMD` while the engine waits is the accept of the word (R25, R200). -/
theorem hostRegWrite_cmd (w : Word) (hb : s.status.busy = false) : hostRegWrite 0x00 4 w s = acceptWord w s := by
  simp [hostRegWrite, hb]

/-- Settles O38: the three rules of an access are the branches of a register transaction; the last clause goes over all events. -/
theorem registerAccessRules : Obligations.RegisterAccessRules := by
  refine ⟨fun s off rest ho hin => ?_, fun s off v rest ho hn hin => ?_, fun s off v rest ho hb hin => ?_,
    fun s t hb hr h => ?_⟩
  · refine ⟨((s.withInputs rest).reply (.reg (s.readReg off))).handBack off, ?_, by simp,
      reply_handBack_eq (s := s.withInputs rest) _ off⟩
    rw [step_cons hin]
    exact if_pos ⟨rfl, ho⟩
  · rw [step_cons hin]
    exact hostRegWrite_ignored v ho hn
  · rw [step_cons hin]
    exact hostRegWrite_busy v ho hb
  · obtain ⟨ev, rest, hm, hreset⟩ := step_event h
    exact eventMove_busy_registers (s := s.withInputs rest) hb (fun he => hr (hreset he)) hm

/-! ### Steps and meanings -/

/-- Settles O6: the event is a write to `CMD` while the engine waits, and the word decodes. -/
theorem stepAcceptsTheWrittenCommand : Obligations.StepAcceptsTheWrittenCommand := by
  intro s w i rest hb hin hd
  calc step s = hostRegWrite 0x00 4 w (s.withInputs rest) := step_cons hin
    _ = acceptWord w (s.withInputs rest) := hostRegWrite_cmd w hb
    _ = exec i (s.withInputs rest) := by rw [acceptWord, hd]

/-- Settles O7: either way the step is the engine's turn, which performs the command in `CMD` while `BUSY = 1`. -/
theorem stepRunsTheCommandInCmd : Obligations.StepRunsTheCommandInCmd := by
  intro s i hb hd
  constructor
  · intro hin
    rw [step_nil hin, engineTurn_busy hb hd]
  · intro rest hin
    rw [step_cons hin]
    exact engineTurn_busy (s := s.withInputs rest) hb hd

end Sys2Proof.Machine
end

section
/-! PROOFS. Every step keeps the machine's invariant: what the invariant says of a waiting and of a running machine, that a
running command's source bytes stay, and one lemma per way a step answers. -/

namespace Sys2Proof.Machine

variable {s t : State} {ev : Input} {i : Instr} {b : Buffers}

/-! ### The invariant of a waiting and of a running machine -/

/-- While the engine waits the sequencer is at rest (R30, R40). -/
theorem State.Inv.seq_of_waiting (h : s.Inv) (hb : s.status.busy = false) : s.seq = ⟨.idle, 0, []⟩ := by
  have hp := h.idlePhase.2 hb
  obtain ⟨hu, hd⟩ := h.idleUnits hp
  cases hq : s.seq
  simp_all

/-- While a command runs no outcome of an earlier one is left (R32, R200). -/
theorem State.Inv.running_registers (h : s.Inv) (hb : s.status.busy = true) :
    s.status = ⟨true, false, false⟩ ∧ s.errcode = 0 ∧ s.outLen = 0 := by
  have hs : s.status = ⟨true, false, false⟩ := by
    rcases h.statusLegal with hs | hs | hs | hs
    · simp [hs] at hb
    · exact hs
    · simp [hs] at hb
    · simp [hs] at hb
  refine ⟨hs, ?_, ?_⟩
  · by_contra hc
    have := h.errCode.2 hc
    simp [hs] at this
  · by_contra hc
    have := h.outLenSuccess hc
    simp [hs, Status.succeeded] at this

/-- The hidden state of a running command is in one of the command's own phases (R30). -/
theorem State.fits_phase (h : s.fits i) : s.seq.phase ≠ .idle := by
  unfold State.fits at h
  split at h
  · rcases h with ⟨hp, -⟩ | ⟨hp, -⟩ <;> simp [hp]
  · simp [h.1]

/-- The invariant of a machine that waits. -/
theorem inv_of_waiting (hm : t.mem.wf) (hl : t.status.legal) (hb : t.status.busy = false) (hq : t.seq = ⟨.idle, 0, []⟩)
    (hc : t.errcode.toNat ≤ 6) (he : t.status.err = true ↔ t.errcode ≠ 0)
    (ho : t.outLen ≠ 0 → t.status = Status.succeeded) : t.Inv where
  memWf := hm
  statusLegal := hl
  idlePhase := by simp [hq, hb]
  idleUnits := by simp [hq]
  codeRange := hc
  errCode := he
  outLenSuccess := ho
  running := by simp [hb]

/-- The invariant of a machine that runs command `i`. -/
theorem inv_of_running (hm : t.mem.wf) (hs : t.status = ⟨true, false, false⟩) (hc : t.errcode = 0) (ho : t.outLen = 0)
    (hd : decode t.cmd = .ok i) (hv : validate i t = .ok b) (hh : b ∈ t.host.handed) (hf : t.fits i) : t.Inv where
  memWf := hm
  statusLegal := .inr (.inl hs)
  idlePhase := by simp [hs, State.fits_phase hf]
  idleUnits := fun hp => absurd hp (State.fits_phase hf)
  codeRange := by simp [hc]
  errCode := by simp [hs, hc]
  outLenSuccess := fun h => absurd ho h
  running := fun _ => ⟨i, b, hd, hv, hh, hf⟩

/-! ### What fits a running command -/

/-- The hidden state of a command other than `REQUANT` (R204). -/
theorem fits_codec (hi : i ≠ .requant) :
    s.fits i ↔ s.seq.phase = .run ∧ s.seq.within (modeOfInstr i) (unitCount i s.opnd.srcLen.toNat) := by
  simp [State.fits, hi]

/-- The hidden state of a `REQUANT` in pass 1 (R223). -/
theorem fits_requant_stat (hp : s.seq.phase = .stat) :
    s.fits .requant ↔ s.seq.within .seq (complexCount s.opnd.srcLen.toNat) ∧ s.acc = pass1 s.srcByte s.seq.unit := by
  simp [State.fits, hp]

/-- The hidden state of a `REQUANT` in pass 2 (R224, R227). -/
theorem fits_requant_quant (hp : s.seq.phase = .quant) :
    s.fits .requant ↔ s.seq.within .seq (unitCount .requant s.opnd.srcLen.toNat) ∧
      s.acc = pass1 s.srcByte (complexCount s.opnd.srcLen.toNat) ∧
      s.stats = StatRegs.ofSums (complexCount s.opnd.srcLen.toNat) s.acc := by
  simp [State.fits, hp]

/-- The two states hold the same source bytes (R11, R203). -/
def State.sameSource (s t : State) : Prop := ∀ j < s.opnd.srcLen.toNat, t.srcByte j = s.srcByte j

/-- Sums over samples of the source are the same when the source is. -/
theorem State.sameSource.pass1_eq (h : s.sameSource t) {n : Nat} (hn : n ≤ complexCount s.opnd.srcLen.toNat) :
    pass1 t.srcByte n = pass1 s.srcByte n :=
  pass1_congr fun j hj => h j (by unfold complexCount at hn; omega)

/-- What fits a command depends on the sequencer, the accumulators, the statistics and operand registers and the source bytes. -/
theorem fits_congr (hq : t.seq = s.seq) (ha : t.acc = s.acc) (hst : t.stats = s.stats) (ho : t.opnd = s.opnd)
    (hsrc : s.sameSource t) (h : s.fits i) : t.fits i := by
  by_cases hi : i = .requant
  · subst hi
    have h' := h
    unfold State.fits at h'
    rw [if_pos rfl] at h'
    rcases h' with ⟨hp, -⟩ | ⟨hp, -⟩
    · rw [fits_requant_stat hp] at h
      obtain ⟨hw, hacc⟩ := h
      rw [fits_requant_stat (by rw [hq, hp]), hq, ho, ha, hsrc.pass1_eq hw.1]
      exact ⟨hw, hacc⟩
    · rw [fits_requant_quant hp] at h
      rw [fits_requant_quant (by rw [hq, hp]), hq, ho, ha, hst, hsrc.pass1_eq le_rfl]
      exact h
  · rw [fits_codec hi] at h ⊢
    rwa [hq, ho]

/-- A memory that agrees with the state's over the source leaves the source bytes alone. -/
theorem sameSource_of_mem {m : Memory} (h : ∀ a, s.source.has a → m.read a = s.mem.read a) (ho : t.opnd = s.opnd)
    (hm : t.mem = m) : s.sameSource t := by
  intro j hj
  rw [State.srcByte, hm, ho]
  exact h _ ⟨Nat.le_add_right _ _, Nat.add_lt_add_left hj _⟩

/-! ### Events of the host -/

/-- The invariant reads of the host's side the handed-over buffers only, and those while a command runs only. -/
theorem State.Inv.with_host (h : s.Inv) {side : HostSide}
    (hh : s.status.done = true ∨ side.handed = s.host.handed) : ({ s with host := side } : State).Inv where
  memWf := h.memWf
  statusLegal := h.statusLegal
  idlePhase := h.idlePhase
  idleUnits := h.idleUnits
  codeRange := h.codeRange
  errCode := h.errCode
  outLenSuccess := h.outLenSuccess
  running := fun hb => by
    obtain ⟨i, b, hd, hv, hmem, hf⟩ := h.running hb
    have hdone : s.status.done ≠ true := by simp [(h.running_registers hb).1]
    exact ⟨i, b, hd, (validate_congr i rfl).trans hv, hh.resolve_left hdone ▸ hmem,
      fits_congr rfl rfl rfl rfl (fun _ _ => rfl) hf⟩

theorem State.Inv.withInputs (h : s.Inv) (l : List Input) : (s.withInputs l).Inv := h.with_host (.inr rfl)

/-- A write to an operand register while the engine waits keeps the invariant. -/
theorem State.Inv.writeOperand (h : s.Inv) (hb : s.status.busy = false) (off : Nat) (v : Word) :
    (s.writeOperand off v).Inv :=
  inv_of_waiting (by simpa using h.memWf) (by simpa using h.statusLegal) (by simpa using hb)
    (by simpa using h.seq_of_waiting hb) (by simpa using h.codeRange) (by simpa using h.errCode)
    (by simpa using h.outLenSuccess)

/-- A memory write that races with no command leaves the bytes of every handed-over source alone. -/
theorem memWrite_sameSource {a : Nat} (v : Byte) (hv : validate i s = .ok b) (hh : b ∈ s.host.handed)
    (hr : ¬ s.writeRaces a) : s.sameSource { s with mem := s.mem.write a v } := by
  obtain ⟨rfl, -⟩ := validate_ok hv
  refine sameSource_of_mem (fun x hx => read_write_other _ v ?_) rfl rfl
  rintro rfl
  exact hr ⟨_, hh, .inl hx⟩

/-- A memory write that races with no command keeps the invariant. -/
theorem State.Inv.memWrite (h : s.Inv) {a : Nat} (v : Byte) (ha : a < 2 ^ 32) (hr : ¬ s.writeRaces a) :
    ({ s with mem := s.mem.write a v } : State).Inv where
  memWf := write_wf v h.memWf ha
  statusLegal := h.statusLegal
  idlePhase := h.idlePhase
  idleUnits := h.idleUnits
  codeRange := h.codeRange
  errCode := h.errCode
  outLenSuccess := h.outLenSuccess
  running := fun hb => by
    obtain ⟨i, b, hd, hv, hmem, hf⟩ := h.running hb
    exact ⟨i, b, hd, (validate_congr i rfl).trans hv, hmem,
      fits_congr (s := s) rfl rfl rfl rfl (memWrite_sameSource v hv hmem hr) hf⟩

/-- Reset puts the machine into a waiting state of the invariant. -/
theorem State.Inv.afterReset (h : s.Inv) : s.afterReset.Inv :=
  inv_of_waiting h.memWf (.inl rfl) rfl rfl (by simp) (by simp) (by simp)

/-! ### Accept -/

/-- The codes are 1 to 6 (R250). -/
theorem CmdError.code_range (e : CmdError) : 1 ≤ e.code ∧ e.code ≤ 6 := by
  cases e <;> decide

/-- A failing accept keeps the invariant (R254). -/
theorem State.Inv.fail_beginAccept (h : s.Inv) (hb : s.status.busy = false) (w : Word) (e : CmdError) :
    ((s.beginAccept w).fail e).Inv := by
  have hcode : (BitVec.ofNat 32 e.code).toNat = e.code := by
    have := e.code_range
    rw [BitVec.toNat_ofNat, Nat.mod_eq_of_lt (by omega)]
  have hne : BitVec.ofNat 32 e.code ≠ 0 := by
    intro hz
    rw [hz] at hcode
    have := e.code_range
    simp at hcode
    omega
  refine inv_of_waiting h.memWf (.inr (.inr (.inr rfl))) rfl ?_ ?_ ?_ ?_
  · simp [h.seq_of_waiting hb]
  · rw [fail_errcode, hcode]
    exact e.code_range.2
  · rw [fail_errcode, fail_status]
    exact ⟨fun _ => hne, fun _ => rfl⟩
  · exact fun ho => absurd rfl ho

/-- A phase starts with no unit performed (R200). -/
theorem within_start (p : Phase) (mode : Mode) (units : Nat) : Sequencer.within mode units ⟨p, 0, []⟩ := by
  cases mode <;> simp [Sequencer.within]

/-- The hidden state after a launch fits the command (R200). -/
theorem launch_fits (i : Instr) (b : Buffers) (s : State) : (s.launch i b).fits i := by
  by_cases hi : i = .requant
  · subst hi
    rw [fits_requant_stat rfl]
    exact ⟨within_start _ _ _, rfl⟩
  · rw [fits_codec hi]
    exact ⟨by simp [hi], within_start _ _ _⟩

/-- The launch of a command keeps the invariant, once `CMD` spells the command (R200). -/
theorem State.Inv.launch_beginAccept (h : s.Inv) (hb : s.status.busy = false) {w : Word} (hd : decode w = .ok i)
    (hv : validate i s = .ok b) : ((s.beginAccept w).launch i b).Inv := by
  refine inv_of_running h.memWf ?_ rfl rfl hd ((validate_congr i rfl).trans hv) List.mem_cons_self (launch_fits i b _)
  simp [hb, Status.running]

/-- The accept of a decoded command keeps the invariant. -/
theorem State.Inv.accept (h : s.Inv) (hb : s.status.busy = false) {w : Word} (hd : decode w = .ok i)
    (ha : accept i s = .next t) : t.Inv := by
  rcases accept_cases ha with ⟨e, -, rfl⟩ | ⟨b, hv, -, -, rfl⟩
  · exact h.fail_beginAccept hb _ e
  · exact h.launch_beginAccept hb (decode_encode_of_decode hd) hv

/-! ### Engine steps -/

/-- The command and the buffers of an engine step are those the invariant speaks of. -/
theorem State.Inv.command (h : s.Inv) (hb : s.status.busy = true) (hd : decode s.cmd = .ok i)
    (hv : validate i s = .ok b) : b ∈ s.host.handed ∧ s.fits i := by
  obtain ⟨i', b', hd', hv', hh, hf⟩ := h.running hb
  obtain rfl : i' = i := Except.ok.inj (hd'.symm.trans hd)
  obtain rfl : b' = b := Except.ok.inj (hv'.symm.trans hv)
  exact ⟨hh, hf⟩

/-- An engine step validated its command over the operand registers. -/
theorem EngineMove.validates (h : EngineMove i b s t) : validate i s = .ok b := by
  cases h with
  | write p u w s₀ bs hp hin => exact hin.2.2
  | complete p hp hin => exact hin.2.2
  | stat hi hin => exact hin.2.2
  | endStat hi hin => exact hin.2.2

/-- An engine step that does not complete the command keeps the invariant when the new hidden state fits the command. -/
theorem State.Inv.engine_running (h : s.Inv) (hb : s.status.busy = true) (hd : decode s.cmd = .ok i)
    (hmove : EngineMove i b s t) (hm : t.mem.wf) (hs : t.status = s.status) (ho : t.outLen = s.outLen)
    (hf : t.fits i) : t.Inv := by
  obtain ⟨hstatus, herr, hout⟩ := h.running_registers hb
  obtain ⟨hcmd, herr', hopnd, hhost⟩ := engineMove_frame hmove
  refine inv_of_running (i := i) (b := b) hm (hs.trans hstatus) (herr'.trans herr) (ho.trans hout) ?_ ?_ ?_ hf
  · rwa [hcmd]
  · exact (validate_congr i hopnd).trans hmove.validates
  · rw [hhost]
    exact (h.command hb hd hmove.validates).1

/-- The completion step keeps the invariant (R209). -/
theorem State.Inv.complete (h : s.Inv) (hb : s.status.busy = true) (outlen : Nat) : (s.complete outlen).Inv := by
  obtain ⟨-, herr, -⟩ := h.running_registers hb
  exact inv_of_waiting h.memWf (.inr (.inr (.inl rfl))) rfl rfl (by simp [herr]) (by simp [herr]) fun _ => rfl

/-- The bytes of a work unit lie in the destination, so data memory keeps its canonical form (R61, R69). -/
theorem writeUnit_wf {units u w : Nat} {bs : List Byte} (hm : s.mem.wf) (hdst : (s.destination i).legal) (hu : u < units)
    (hw : units * w = outLength i s.opnd.srcLen.toNat) (hbs : bs.length = w) :
    (s.mem.writeBytes (s.opnd.dstAddr.toNat + u * w) bs).wf := by
  have hunit : (u + 1) * w ≤ units * w := Nat.mul_le_mul_right w hu
  have hleg : s.opnd.dstAddr.toNat + outLength i s.opnd.srcLen.toNat ≤ 2 ^ 32 := hdst
  rw [Nat.add_mul] at hunit
  exact writeBytes_wf bs hm (by omega)

/-- Ranges that share an address overlap (R61). -/
theorem overlaps_of_has {r q : Region} {a : Nat} (hr : r.has a) (hq : q.has a) : r.overlaps q := by
  obtain ⟨hr1, hr2⟩ := hr
  obtain ⟨hq1, hq2⟩ := hq
  exact ⟨by omega, by omega, by omega, by omega⟩

/-- A running command leaves its source bytes alone, since its destination does not overlap them (R203). -/
theorem engineMove_sameSource (h : EngineMove i b s t) : s.sameSource t := by
  obtain ⟨rfl, -, -, hov⟩ := validate_ok h.validates
  obtain ⟨-, -, hopnd, -⟩ := engineMove_frame h
  exact sameSource_of_mem (fun a ha => engineMove_mem h a fun hdst => hov (overlaps_of_has ha hdst)) hopnd rfl

/-- After a work unit that writes, the hidden state fits the command (R206, R207). -/
theorem write_fits {p : Phase} {u : Nat} {s₀ r : State} (hp : p = if i = .requant then .quant else .run)
    (hsp : s.seq.phase = p) (hn : nextUnit (modeOfInstr i) (unitCount i s.opnd.srcLen.toNat) s = some (u, s₀))
    (hr : r = { s with mem := r.mem, sched := r.sched }) (hsrc : s.sameSource (r.markDone (modeOfInstr i) u))
    (hf : s.fits i) : (r.markDone (modeOfInstr i) u).fits i := by
  have hq : r.seq = s.seq := by rw [hr]
  have ho : r.opnd = s.opnd := by rw [hr]
  by_cases hi : i = .requant
  · subst hi
    have hquant : s.seq.phase = .quant := by rw [hsp, hp, if_pos rfl]
    rw [fits_requant_quant hquant] at hf
    obtain ⟨hw, hacc, hst⟩ := hf
    rw [fits_requant_quant (by rw [markDone_seq_phase, hq, hquant]), markDone_opnd, ho, markDone_acc, markDone_stats,
      hsrc.pass1_eq le_rfl]
    refine ⟨markDone_within hw hn r hq, ?_⟩
    rw [hr]
    exact ⟨hacc, hst⟩
  · rw [fits_codec hi] at hf ⊢
    rw [markDone_seq_phase, hq, markDone_opnd, ho]
    exact ⟨hf.1, markDone_within hf.2 hn r hq⟩

/-- After a unit of pass 1 the accumulators hold the sums of one more sample (R223). -/
theorem stat_fits (hp : s.seq.phase = .stat) (hu : s.seq.unit < complexCount s.opnd.srcLen.toNat) (hf : s.fits .requant) :
    ((statUnit s.seq.unit s).markDone .seq s.seq.unit).fits .requant := by
  rw [fits_requant_stat hp] at hf
  obtain ⟨hw, hacc⟩ := hf
  rw [fits_requant_stat (by rwa [markDone_seq_phase, statUnit_seq])]
  exact ⟨⟨hu, hw.2⟩, statUnit_acc hacc⟩

/-- After the end of pass 1 the statistics registers hold the sums of all samples (R224). -/
theorem endStat_fits (hp : s.seq.phase = .stat) (hu : complexCount s.opnd.srcLen.toNat ≤ s.seq.unit)
    (hf : s.fits .requant) : (s.endStat (complexCount s.opnd.srcLen.toNat)).fits .requant := by
  rw [fits_requant_stat hp] at hf
  obtain ⟨hw, hacc⟩ := hf
  rw [fits_requant_quant rfl]
  have hall : s.seq.unit = complexCount s.opnd.srcLen.toNat := le_antisymm hw.1 hu
  rw [hall] at hacc
  exact ⟨within_start _ _ _, hacc, rfl⟩

/-- Every engine step keeps the invariant. -/
theorem State.Inv.engineMove (h : s.Inv) (hb : s.status.busy = true) (hd : decode s.cmd = .ok i)
    (hmove : EngineMove i b s t) : t.Inv := by
  have running := fun hm hs ho hf => h.engine_running (t := t) hb hd hmove hm hs ho hf
  have hf := (h.command hb hd hmove.validates).2
  have hsrc := engineMove_sameSource hmove
  cases hmove with
  | write p u w s₀ bs hp hin hn hw hbs =>
    obtain ⟨hu, hs₀, -⟩ := nextUnit_some hn
    obtain ⟨rfl, -, hdst, -⟩ := validate_ok hin.2.2
    refine running ?_ ?_ ?_ (write_fits hp hin.2.1 hn ?_ hsrc hf)
    · rw [markDone_mem, hs₀]
      exact writeUnit_wf h.memWf hdst hu hw hbs
    · rw [markDone_status, hs₀]
      rfl
    · rw [markDone_outLen, hs₀]
      rfl
    · rw [hs₀]
      rfl
  | complete => exact h.complete hb _
  | stat hi hin hu =>
    subst hi
    exact running h.memWf rfl rfl (stat_fits hin.2.1 hu hf)
  | endStat hi hin hu =>
    subst hi
    exact running h.memWf rfl rfl (endStat_fits hin.2.1 hu hf)

/-! ### Every step -/

/-- Every event that answers a next state keeps the invariant. -/
theorem State.Inv.eventMove (h : s.Inv) (hmove : EventMove s ev t) : t.Inv := by
  cases hmove with
  | host ev side hh => exact h.with_host hh
  | operand off bytes v hb => exact h.writeOperand hb off v
  | accept off bytes w i _ hb hd ha => exact h.accept hb hd ha
  | illegal off bytes w hb => exact h.fail_beginAccept hb w _
  | memWrite a v ha hr => exact h.memWrite v ha hr
  | engine i b _ hb hd hm => exact h.engineMove hb hd hm
  | reset => exact h.afterReset

/-- Settles O51: a step takes an event from the list, which the invariant does not read, and every way an event answers keeps
the invariant. -/
theorem everyStepKeepsInv : Obligations.EveryStepKeepsInv := by
  intro s t h hstep
  obtain ⟨ev, rest, hmove, -⟩ := step_event hstep
  exact (h.withInputs rest).eventMove hmove

end Sys2Proof.Machine
end

section
/-! PROOFS. Address ranges and the launch over them (`20_memory.md` R61, R68), and the bytes a command writes and reads
(R69). -/

namespace Sys2Proof.Machine

variable {s t : State} {m : Memory} {i : Instr}

/-! ### Ranges -/

/-- Overlapping ranges share an address: the larger of the two bases (R61). -/
theorem exists_has_of_overlaps {r q : Region} (h : r.overlaps q) : ∃ a, r.has a ∧ q.has a := by
  obtain ⟨hr, hq, hrq, hqr⟩ := h
  exact ⟨max r.base q.base, ⟨le_max_left _ _, max_lt (by omega) hqr⟩, le_max_right _ _, max_lt hrq (by omega)⟩

/-- A range with addresses is legal exactly when data memory has all of them; the last one decides (R61). -/
theorem legal_iff_has_lt {r : Region} (hr : 0 < r.len) : r.legal ↔ ∀ a, r.has a → a < 2 ^ 32 := by
  constructor
  · rintro hleg a ⟨-, ha⟩
    exact lt_of_lt_of_le ha hleg
  · intro h
    have hlast := h (r.base + r.len - 1) ⟨by omega, by omega⟩
    show r.base + r.len ≤ 2 ^ 32
    omega

/-- Settles O14: overlapping ranges share the larger base, and the last address of a range decides its legality. -/
theorem rangesOverlapExactlyWhenTheyShareAnAddress : Obligations.RangesOverlapExactlyWhenTheyShareAnAddress :=
  ⟨fun _ _ => ⟨exists_has_of_overlaps, fun ⟨_, hr, hq⟩ => overlaps_of_has hr hq⟩, fun _ => legal_iff_has_lt⟩

/-! ### Launch over unbacked ranges -/

/-- The platform leaves a byte of one of two ranges unbacked exactly when an unbacked range overlaps one of them (R68). -/
theorem not_backs_iff (r q : Region) :
    ¬ (s.backs r ∧ s.backs q) ↔ ∃ u ∈ s.host.unbacked, u.overlaps r ∨ u.overlaps q := by
  rw [not_and_or, not_forall₂, not_forall₂]
  simp only [not_not, exists_prop, and_or_left, exists_or]

/-- Settles O10: the accept of a command that passes validation launches it or is refused, as its ranges are backed or not. -/
theorem launchRefusedOnlyForUnbackedRanges : Obligations.LaunchRefusedOnlyForUnbackedRanges := by
  intro i b s hb hv
  rw [exec_idle i hb, ← not_backs_iff]
  by_cases hback : s.backs b.src ∧ s.backs b.dst
  · rw [accept_ok hv hback]
    exact iff_of_false (by simp) (not_not_intro hback)
  · exact iff_of_true (accept_unbacked hv hback) hback

/-! ### What a command writes -/

/-- An accept leaves data memory alone (R200, R254). -/
theorem accept_mem (h : accept i s = .next t) : t.mem = s.mem := by
  rcases accept_cases h with ⟨e, -, rfl⟩ | ⟨b, -, -, -, rfl⟩ <;> rfl

/-- Settles O48: an accept writes no byte, and an engine step only bytes of the destination. -/
theorem commandsWriteOnlyTheirDestination : Obligations.CommandsWriteOnlyTheirDestination := by
  intro i s t h
  rcases exec_cases h with ⟨-, h⟩ | ⟨hb, b, h⟩
  · exact ⟨fun _ => accept_mem h, fun a _ => by rw [accept_mem h]⟩
  · exact ⟨fun hb' => absurd (hb.symm.trans hb') (by decide), engineMove_mem h⟩

/-! ### What a command reads -/

/-- `t` and `t'`, reached from `s` and from `s` with memory `m`, differ in data memory only, and each byte is unchanged in
both or equal in both. -/
def sameEffect (s : State) (m : Memory) (t t' : State) : Prop :=
  t' = { t with mem := t'.mem } ∧
    ∀ a, (t.mem.read a = s.mem.read a ∧ t'.mem.read a = m.read a) ∨ t'.mem.read a = t.mem.read a

/-- The update writes the same bytes to the same place of the destination from `s` and from `s` with memory `m`. -/
def writesSameBytes (f : State → State) (s : State) (m : Memory) : Prop :=
  ∃ k bs, f s = s.writeOut k bs ∧ f { s with mem := m } = State.writeOut { s with mem := m } k bs

/-- What leaves memory alone has the same effect over every memory. -/
theorem sameEffect_of_mem_eq (h : t.mem = s.mem) : sameEffect s m t { t with mem := m } :=
  ⟨rfl, fun _ => .inl ⟨by rw [h], rfl⟩⟩

/-- The same bytes written to the same place are equal there and leave the rest alone. -/
theorem read_writeBytes_of_two (m m' : Memory) (a : Nat) (bs : List Byte) (x : Nat) :
    ((m.writeBytes a bs).read x = m.read x ∧ (m'.writeBytes a bs).read x = m'.read x) ∨
      (m'.writeBytes a bs).read x = (m.writeBytes a bs).read x := by
  by_cases hx : a ≤ x ∧ x < a + bs.length
  · obtain ⟨p, rfl⟩ := Nat.exists_eq_add_of_le hx.1
    have hp : p < bs.length := by omega
    exact .inr ((read_writeBytes_inside m' bs hp).trans (read_writeBytes_inside m bs hp).symm)
  · exact .inl ⟨read_writeBytes_outside m bs hx, read_writeBytes_outside m' bs hx⟩

/-- A work unit that writes the same bytes has the same effect once it is recorded, whatever free choice came before it. -/
theorem sameEffect_markDone {f : State → State} {c : Schedule} (mode : Mode) (u : Nat)
    (h : writesSameBytes f { s with sched := c } m) :
    sameEffect s m ((f { s with sched := c }).markDone mode u)
      ((f { s with mem := m, sched := c }).markDone mode u) := by
  obtain ⟨k, bs, hs, hm⟩ := h
  rw [hs, hm]
  refine ⟨by cases mode <;> rfl, fun a => ?_⟩
  simp only [markDone_mem]
  exact read_writeBytes_of_two _ _ _ bs a

/-! ### The bytes of a work unit -/

/-- Bytes read from two memories that agree over them are the same. -/
theorem readBytes_congr {m m' : Memory} {a n : Nat} (h : ∀ j < n, m'.read (a + j) = m.read (a + j)) :
    m'.readBytes a n = m.readBytes a n := by
  induction n generalizing a with
  | zero => rfl
  | succ n ih =>
    have htail : ∀ j < n, m'.read (a + 1 + j) = m.read (a + 1 + j) := fun j hj => by
      rw [Nat.add_assoc, Nat.add_comm 1 j]
      exact h (j + 1) (by omega)
    rw [Memory.readBytes, Memory.readBytes, ih htail, ← Nat.add_zero a, h 0 (by omega)]

/-- An unpack unit reads its own source byte only (R146). -/
theorem unpackUnit_writesSameBytes (c : Codec) {u : Nat} (hu : u < s.opnd.srcLen.toNat)
    (hsrc : s.sameSource { s with mem := m }) : writesSameBytes (unpackUnit c u) s m :=
  ⟨u * c.elements, unpackByte c (s.srcByte u), rfl, by rw [unpackUnit, hsrc u hu]⟩

/-- A lookup unpack unit reads its own source byte only (R183). -/
theorem lookupUnit_writesSameBytes (c : Codec) {u : Nat} (hu : u < s.opnd.srcLen.toNat)
    (hsrc : s.sameSource { s with mem := m }) : writesSameBytes (lookupUnit c u) s m := by
  rw [funext (lookupUnit_eq c u)]
  exact unpackUnit_writesSameBytes c hu hsrc

/-- The bytes of a whole group are bytes of the buffer. -/
theorem group_in_source {u e len j : Nat} (hu : u < len / e) (hj : j < e) : u * e + j < len :=
  lt_of_lt_of_le (unit_in_destination hu rfl hj) (Nat.div_mul_le_self len e)

/-- A pack unit reads the bytes of its own group only (R167). -/
theorem packUnit_writesSameBytes {n o : Nat} {c : Codec} (hc : resolve n o = .ok c) {u : Nat}
    (hu : u < s.opnd.srcLen.toNat / (8 / n)) (hsrc : s.sameSource { s with mem := m }) :
    writesSameBytes (packUnit c u) s m := by
  obtain ⟨-, -, -, hel, -⟩ := resolve_ok hc
  rw [← hel] at hu
  refine ⟨u, [_], rfl, ?_⟩
  have hgroup : m.readBytes (s.opnd.srcAddr.toNat + u * c.elements) c.elements =
      s.mem.readBytes (s.opnd.srcAddr.toNat + u * c.elements) c.elements := readBytes_congr fun j hj => by
    rw [Nat.add_assoc]
    exact hsrc _ (group_in_source hu hj)
  rw [packUnit, hgroup]

/-- A unit of pass 2 reads its own four source bytes and the accumulators (R227). -/
theorem quantUnit_writesSameBytes (x : Nat) {u : Nat} (hu : u < s.opnd.srcLen.toNat / 4)
    (hsrc : s.sameSource { s with mem := m }) : writesSameBytes (quantUnit x u) s m := by
  refine ⟨u, [_], rfl, ?_⟩
  rw [quantUnit, hsrc (4 * u) (by omega), hsrc (4 * u + 1) (by omega), hsrc (4 * u + 2) (by omega),
    hsrc (4 * u + 3) (by omega)]

/-- A unit of pass 1 reads its own two source bytes, and only the accumulators take them (R223). -/
theorem statUnit_withMem {u : Nat} (hu : u < complexCount s.opnd.srcLen.toNat) (hsrc : s.sameSource { s with mem := m }) :
    statUnit u { s with mem := m } = { statUnit u s with mem := m } := by
  unfold complexCount at hu
  rw [statUnit, hsrc (2 * u) (by omega), hsrc (2 * u + 1) (by omega)]
  rfl

/-! ### The steps of a command over two memories -/

/-- The choice of the next unit does not look at data memory (R206, R207). -/
theorem nextUnit_withMem (mode : Mode) (units : Nat) (s : State) (m : Memory) :
    nextUnit mode units { s with mem := m } = (nextUnit mode units s).map fun p => (p.1, { p.2 with mem := m }) := by
  cases mode <;> simp only [nextUnit] <;> split_ifs <;> rfl

/-- An accept does not look at data memory (R200). -/
theorem accept_withMem (m : Memory) (h : accept i s = .next t) :
    accept i { s with mem := m } = .next { t with mem := m } := by
  have hval : validate i { s with mem := m } = validate i s := validate_congr i rfl
  rcases accept_cases h with ⟨e, hv, rfl⟩ | ⟨b, hv, hsrc, hdst, rfl⟩
  · exact accept_error (hval.trans hv)
  · exact accept_ok (hval.trans hv) ⟨hsrc, hdst⟩

/-- A command that accepts has the same effect over every memory. -/
theorem exec_accept_sameEffect (m : Memory) (hb : s.status.busy = false) (h : accept i s = .next t) :
    ∃ t', exec i { s with mem := m } = .next t' ∧ sameEffect s m t t' :=
  ⟨_, (exec_idle (s := { s with mem := m }) i hb).trans (accept_withMem m h), sameEffect_of_mem_eq (accept_mem h)⟩

/-- A step of a last phase has the same effect over two memories when each of its units writes the same bytes. -/
theorem unitOrComplete_sameEffect {mode : Mode} {units outlen : Nat} {f : Nat → State → State}
    (hf : ∀ u < units, ∀ c, writesSameBytes (f u) { s with sched := c } m)
    (h : unitOrComplete mode units outlen f s = .next t) :
    ∃ t', unitOrComplete mode units outlen f { s with mem := m } = .next t' ∧ sameEffect s m t t' := by
  have hnext := nextUnit_withMem mode units s m
  rcases unitOrComplete_cases h with ⟨u, s₀, hn, rfl⟩ | ⟨hn, rfl⟩
  · obtain ⟨hu, hs₀, -⟩ := nextUnit_some hn
    rw [hn] at hnext
    rw [hs₀] at hnext ⊢
    exact ⟨_, unitOrComplete_some hnext, sameEffect_markDone mode u (hf u hu _)⟩
  · rw [hn] at hnext
    exact ⟨_, unitOrComplete_none hnext, sameEffect_of_mem_eq rfl⟩

/-- While samples are left, a step of phase `STAT` performs the next unit of pass 1 (R206, R223). -/
theorem statUnitOrEnd_of_lt {x : Nat} (h : s.seq.unit < x) :
    statUnitOrEnd x s = .next ((statUnit s.seq.unit s).markDone .seq s.seq.unit) := by
  simp [statUnitOrEnd, nextUnit, h]

/-- With no sample left, a step of phase `STAT` ends pass 1 (R224). -/
theorem statUnitOrEnd_of_le {x : Nat} (h : x ≤ s.seq.unit) : statUnitOrEnd x s = .next (s.endStat x) := by
  simp [statUnitOrEnd, nextUnit, Nat.not_lt.2 h]

/-- A step of phase `STAT` has the same effect over memories with the same source bytes. -/
theorem statUnitOrEnd_sameEffect (hsrc : s.sameSource { s with mem := m })
    (h : statUnitOrEnd (complexCount s.opnd.srcLen.toNat) s = .next t) :
    ∃ t', statUnitOrEnd (complexCount s.opnd.srcLen.toNat) { s with mem := m } = .next t' ∧ sameEffect s m t t' := by
  rcases statUnitOrEnd_cases h with ⟨hu, rfl⟩ | ⟨hu, rfl⟩
  · refine ⟨_, statUnitOrEnd_of_lt hu, ?_⟩
    rw [statUnit_withMem hu hsrc]
    exact sameEffect_of_mem_eq rfl
  · exact ⟨_, statUnitOrEnd_of_le hu, sameEffect_of_mem_eq rfl⟩

/-- Whether a command is in a phase is not a matter of data memory. -/
theorem State.inPhase.withMem {p : Phase} {b : Buffers} (h : s.inPhase i p b) (m : Memory) :
    State.inPhase i p b { s with mem := m } := by
  obtain ⟨hb, hp, hv⟩ := h
  exact ⟨hb, hp, (validate_congr i rfl).trans hv⟩

/-- Each command but `REQUANT` is the shared step relation over a work unit that reads source bytes only (R69). -/
theorem exec_eq_codecStep_of_source (hi : i ≠ .requant) :
    ∃ n o work, (∀ s, exec i s = codecStep i n o (modeOfInstr i) work s) ∧
      ∀ c, resolve n o = .ok c → ∀ (u : Nat) (s : State) (m : Memory), u < unitCount i s.opnd.srcLen.toNat →
        s.sameSource { s with mem := m } → writesSameBytes (work c u) s m := by
  cases i with
  | unpackD n o mode => exact ⟨n, o, unpackUnit, fun _ => rfl, fun c _ _ _ _ => unpackUnit_writesSameBytes c⟩
  | unpackL n o mode => exact ⟨n, o, lookupUnit, fun _ => rfl, fun c _ _ _ _ => lookupUnit_writesSameBytes c⟩
  | unpackbD n o mode => exact ⟨n, o, unpackUnit, fun _ => rfl, fun c _ _ _ _ => unpackUnit_writesSameBytes c⟩
  | unpackbL n o mode => exact ⟨n, o, lookupUnit, fun _ => rfl, fun c _ _ _ _ => lookupUnit_writesSameBytes c⟩
  | pack n o mode => exact ⟨n, o, packUnit, fun _ => rfl, fun _ hc _ _ _ => packUnit_writesSameBytes hc⟩
  | packb n o mode => exact ⟨n, o, packUnit, fun _ => rfl, fun _ hc _ _ _ => packUnit_writesSameBytes hc⟩
  | requant => exact absurd rfl hi

/-- A `REQUANT` has the same effect over memories with the same source bytes. -/
theorem execRequant_sameEffect (hsrc : s.sameSource { s with mem := m }) (h : execRequant s = .next t) :
    ∃ t', execRequant { s with mem := m } = .next t' ∧ sameEffect s m t t' := by
  rcases execRequant_cases h with ⟨hb, h⟩ | ⟨b, hin, h⟩ | ⟨b, hin, h⟩
  · exact exec_accept_sameEffect m hb h
  · rw [execRequant_stat (hin.withMem m)]
    exact statUnitOrEnd_sameEffect hsrc h
  · rw [execRequant_quant (hin.withMem m)]
    exact unitOrComplete_sameEffect (fun u hu c => quantUnit_writesSameBytes _ hu hsrc) h

/-- Settles O49: every byte a work unit reads is a source byte, and nothing else of a command looks at data memory. -/
theorem commandsReadOnlyTheirSource : Obligations.CommandsReadOnlyTheirSource := by
  intro i s t m h hm
  have hsrc : s.sameSource { s with mem := m } := sameSource_of_mem hm rfl rfl
  by_cases hi : i = .requant
  · subst hi
    exact execRequant_sameEffect hsrc h
  · obtain ⟨n, o, work, hexec, hwork⟩ := exec_eq_codecStep_of_source hi
    rw [hexec] at h
    rcases codecStep_cases h with ⟨hb, h⟩ | ⟨c, b, hin, hc, h⟩
    · exact exec_accept_sameEffect m hb h
    · rw [hexec, codecStep_busy (hin.withMem m) hc]
      exact unitOrComplete_sameEffect (fun u hu d => hwork c hc u { s with sched := d } m hu hsrc) h

end Sys2Proof.Machine
end

section
/-! PROOFS. The decoder against the opcode map (`30_encoding.md` R97 to R99), the accept of an illegal word (R98) and the poll of
`STATUS` (R108). -/

namespace Sys2Proof

variable {w : Word} {i : Instr}

/-! ### The operands of a decoded command -/

/-- The free fields of a command's word, `NBITS`, `ORDTOK` and `PAR`, that the command holds; `REQUANT` has none (R97). -/
def Instr.operands : Instr → Option (Nat × Nat × Mode)
  | .unpackD n o m => some (n, o, m)
  | .unpackL n o m => some (n, o, m)
  | .unpackbD n o m => some (n, o, m)
  | .unpackbL n o m => some (n, o, m)
  | .pack n o m => some (n, o, m)
  | .packb n o m => some (n, o, m)
  | .requant => none

/-- The six pack and unpack commands over given operands hold those. -/
theorem operands_of_mem {n o : Nat} {m : Mode}
    (h : i ∈ [Instr.unpackD n o m, .unpackL n o m, .unpackbD n o m, .unpackbL n o m, .pack n o m, .packb n o m]) :
    i.operands = some (n, o, m) := by
  simp only [List.mem_cons, List.not_mem_nil, or_false] at h
  rcases h with rfl | rfl | rfl | rfl | rfl | rfl <;> rfl

/-- A decoded command holds the fields of its word (R99). -/
theorem operands_of_decode (h : decode w = .ok i) :
    ∀ p ∈ i.operands, p = (slice w.toNat 15 8, slice w.toNat 23 16, modeOf (slice w.toNat 5 5)) := by
  dsimp only [decode] at h
  split_ifs at h <;> cases h <;> simp [Instr.operands]

/-- A command whose operands fit their fields is well formed (R94, R95). -/
theorem wellFormed_of_operands (h : ∀ p ∈ i.operands, p.1 < 256 ∧ p.2.1 < 256) : i.WellFormed := by
  cases i with
  | requant => rfl
  | _ => simpa [Instr.operands, Instr.WellFormed, Instr.wellFormed, nbitsFits, ordtokFits] using h

/-- A decoded command is well formed: its immediates are 8-bit slices of the word. -/
theorem wellFormed_of_decode (h : decode w = .ok i) : i.WellFormed :=
  wellFormed_of_operands fun p hp => by
    rw [operands_of_decode h p hp]
    exact ⟨Nat.mod_lt _ (by decide), Nat.mod_lt _ (by decide)⟩

/-! ### Rows of the opcode map -/

/-- Every well-formed command's word lies in its row, a row of the map (R97). -/
theorem encode_in_row (i : Instr) : Laws.OpcodeRow.Statement i := by
  cases i with
  | unpackD n o m => exact Laws.OpcodeRow.unpackD n o m
  | unpackL n o m => exact Laws.OpcodeRow.unpackL n o m
  | unpackbD n o m => exact Laws.OpcodeRow.unpackbD n o m
  | unpackbL n o m => exact Laws.OpcodeRow.unpackbL n o m
  | pack n o m => exact Laws.OpcodeRow.pack n o m
  | packb n o m => exact Laws.OpcodeRow.packb n o m
  | requant => exact Laws.OpcodeRow.requant

/-- A word that decodes satisfies the row of its command. -/
theorem row_of_decode (h : decode w = .ok i) : i.row.spells w ∧ i.row ∈ opcodeRows := by
  have hrow := encode_in_row i (wellFormed_of_decode h)
  rwa [encode_of_decode h] at hrow

/-- The two kinds of rows: those of pack and unpack fix `OP`, `IMPL` and the reserved fields, that of `REQUANT` the whole
word (R97). -/
theorem opcodeRows_kinds : ∀ r ∈ opcodeRows,
    (r.mask = 0xFF0000DF#32 ∧ r.pattern.toNat ∈ [1, 17, 2, 18, 3, 4]) ∨ (r.mask = 0xFFFFFFFF#32 ∧ r.pattern = 5#32) := by
  decide

/-- No two rows have the same pattern (R97). -/
theorem opcodeRows_pattern_inj : ∀ r ∈ opcodeRows, ∀ q ∈ opcodeRows, r.pattern.toNat = q.pattern.toNat → r = q := by
  decide

/-- A word of a row has the row's pattern in its fixed fields, and it is a pack or unpack by these, or the one word of
`REQUANT`. -/
theorem fixedFields_of_spells {r : OpcodeRow} (hr : r ∈ opcodeRows) (h : r.spells w) :
    fixedFields w.toNat = r.pattern.toNat ∧ (fixedFields w.toNat ∈ [1, 17, 2, 18, 3, 4] ∨ w = 5#32) := by
  unfold OpcodeRow.spells at h
  rcases opcodeRows_kinds r hr with ⟨hmask, hpat⟩ | ⟨hmask, hpat⟩
  · have hfields : fixedFields w.toNat = r.pattern.toNat := by
      rw [hmask] at h
      exact (masked_word_eq_iff w _ r.pattern.isLt).1 (by rw [h, BitVec.ofNat_toNat, BitVec.setWidth_eq])
    exact ⟨hfields, .inl (hfields ▸ hpat)⟩
  · have hw : w = 5#32 := by
      rwa [hmask, hpat, show (0xFFFFFFFF#32 : Word) = BitVec.allOnes 32 from rfl, BitVec.and_allOnes] at h
    subst hw
    exact ⟨by rw [hpat]; decide, .inr rfl⟩

/-- A word satisfies at most one row: its fixed fields are the pattern of each row it satisfies (R99). -/
theorem row_unique {r q : OpcodeRow} (hr : r ∈ opcodeRows) (hq : q ∈ opcodeRows) (h : r.spells w) (h' : q.spells w) :
    r = q :=
  opcodeRows_pattern_inj r hr q hq ((fixedFields_of_spells hr h).1.symm.trans (fixedFields_of_spells hq h').1)

/-! ### Illegal words -/

/-- The word is illegal by one of the four cases (a) to (d) of R98. -/
abbrev isIllegal (w : Word) : Prop :=
  (slice w.toNat 3 0 = 0 ∨ 6 ≤ slice w.toNat 3 0) ∨
  (slice w.toNat 7 6 ≠ 0 ∨ slice w.toNat 31 24 ≠ 0) ∨
  ((slice w.toNat 3 0 = 3 ∨ slice w.toNat 3 0 = 4) ∧ slice w.toNat 4 4 = 1) ∨
  (slice w.toNat 3 0 = 5 ∧
    (slice w.toNat 4 4 ≠ 0 ∨ slice w.toNat 5 5 ≠ 0 ∨ slice w.toNat 15 8 ≠ 0 ∨ slice w.toNat 23 16 ≠ 0))

/-- The decoder rejects a word only for one of the four cases. -/
theorem isIllegal_of_decode {e : DecodeError} (h : decode w = .error e) : isIllegal w := by
  dsimp only [decode] at h
  split_ifs at h with hrsv op1 impl1 op2 impl2 op3 impl3 op4 impl4 op5 hreq
  · exact .inr (.inl hrsv)
  · exact .inr (.inr (.inl ⟨.inl op3, impl_eq_one impl3⟩))
  · exact .inr (.inr (.inl ⟨.inr op4, impl_eq_one impl4⟩))
  · exact .inr (.inr (.inr ⟨op5, by omega⟩))
  · exact .inl (by omega)

/-- A word that satisfies a row is in none of the four cases. -/
theorem not_isIllegal_of_spells {r : OpcodeRow} (hr : r ∈ opcodeRows) (h : r.spells w) : ¬ isIllegal w := by
  rcases (fixedFields_of_spells hr h).2 with hfields | rfl
  · have hop : slice w.toNat 3 0 < 16 := Nat.mod_lt _ (by decide)
    have himpl : slice w.toNat 4 4 < 2 := Nat.mod_lt _ (by decide)
    have hrsv : slice w.toNat 7 6 < 4 := Nat.mod_lt _ (by decide)
    simp only [fixedFields, List.mem_cons, List.not_mem_nil, or_false] at hfields
    omega
  · decide

/-- A word is illegal exactly when it satisfies no row (R99). -/
theorem no_row_iff_decode_error : (∀ r ∈ opcodeRows, ¬ r.spells w) ↔ ∃ e, decode w = .error e := by
  refine ⟨fun h => ?_, fun ⟨e, h⟩ r hr hspells => not_isIllegal_of_spells hr hspells (isIllegal_of_decode h)⟩
  cases hd : decode w with
  | error e => exact ⟨e, rfl⟩
  | ok i =>
    obtain ⟨hspells, hrow⟩ := row_of_decode hd
    exact absurd hspells (h _ hrow)

/-- A word is illegal exactly in the four cases of R98, since these are the words of no row. -/
theorem decode_error_iff_isIllegal : (∃ e, decode w = .error e) ↔ isIllegal w :=
  ⟨fun ⟨_, h⟩ => isIllegal_of_decode h,
    fun h => no_row_iff_decode_error.1 fun _ hr hspells => not_isIllegal_of_spells hr hspells h⟩

/-- Settles O4: a decoded command's word satisfies its row, rows do not overlap, and a word of a row is not illegal. -/
theorem decodeFindsTheUniqueRow : Obligations.DecodeFindsTheUniqueRow := by
  refine fun w => ⟨fun i h => ?_, no_row_iff_decode_error⟩
  obtain ⟨hspells, hrow⟩ := row_of_decode h
  refine ⟨hrow, hspells, fun r hr hr' => row_unique hr hrow hr' hspells, fun n o m hi => ?_⟩
  have hoperands := operands_of_decode h _ (operands_of_mem hi)
  simpa only [Prod.mk.injEq] using hoperands

end Sys2Proof

namespace Sys2Proof.Machine

/-- The accept of an illegal word fails at once with code 6 and leaves data memory alone (R98, R254). -/
theorem acceptIllegal_eq (w : Word) (s : State) :
    acceptIllegal w s = { s with
      cmd := w, status := ⟨false, true, true⟩, errcode := 6, outLen := 0, seq := { s.seq with phase := .idle } } :=
  rfl

/-- Settles O5: the four cases are those in which no row matches, and the write is the accept of a word that does not
decode. -/
theorem illegalWordsFailWithIllegalCommand : Obligations.IllegalWordsFailWithIllegalCommand := by
  refine ⟨fun w => decode_error_iff_isIllegal, fun w e s rest hd hb hin => ?_⟩
  calc step s = hostRegWrite 0x00 4 w (s.withInputs rest) := step_cons hin
    _ = acceptWord w (s.withInputs rest) := hostRegWrite_cmd w hb
    _ = .next (acceptIllegal w (s.withInputs rest)) := by rw [acceptWord, hd]
    _ = _ := congrArg Host.Outcome.next (acceptIllegal_eq w (s.withInputs rest))

/-- A poll is one read of `STATUS`; with `DONE = 0` it puts the engine's turn and itself in front (R108, log 3). -/
theorem hostPoll_eq (s : State) : hostPoll s = .next { s with
    host := { s.host with
      inputs := if s.status.done then s.host.inputs else .engine :: .poll :: s.host.inputs
      replies := .reg s.status.word :: s.host.replies
      handed := if s.status.done then [] else s.host.handed } } := by
  cases hd : s.status.done <;> simp [hostPoll, State.handBack, State.reply, State.readReg, hd]

/-- Settles O44: the step is the poll's one read of `STATUS`. -/
theorem pollWaitsForDone : Obligations.PollWaitsForDone := by
  intro s rest hin
  exact ⟨_, (step_cons hin).trans (hostPoll_eq _), rfl, rfl, rfl⟩

end Sys2Proof.Machine
end

section
/-! PROOFS. The catalog as a function of its two tokens (`40_catalog.md` R121 to R126). -/

namespace Sys2Proof

/-- `widthIndex` from the width as a number (R125). -/
theorem Width.index_eq (w : Width) : w.index = if w.bits = 1 then 0 else if w.bits = 2 then 1 else 2 := by
  cases w <;> rfl

end Sys2Proof

namespace Sys2Proof.Machine

variable {n o : Nat}

/-- The width check passes every legal width (R121). -/
theorem resolveWidth_ok (h : n = 1 ∨ n = 2 ∨ n = 4) : ∃ w, resolveWidth n = .ok w := by
  rcases h with rfl | rfl | rfl
  · exact ⟨.w1, rfl⟩
  · exact ⟨.w2, rfl⟩
  · exact ⟨.w4, rfl⟩

/-- The width check rejects every other width (R121). -/
theorem resolveWidth_error (h : n ≠ 1 ∧ n ≠ 2 ∧ n ≠ 4) : resolveWidth n = .error .invalidBitWidth := by
  obtain ⟨h1, h2, h4⟩ := h
  rw [resolveWidth, if_neg h1, if_neg h2, if_neg h4]

/-- The order check passes every legal token (R123). -/
theorem resolveOrder_ok (h : o = 0x62 ∨ o = 0x6C ∨ o = 0x00) : ∃ d, resolveOrder o = .ok d := by
  rcases h with rfl | rfl | rfl
  · exact ⟨.big, rfl⟩
  · exact ⟨.little, rfl⟩
  · exact ⟨.big, rfl⟩

/-- The order check rejects every other token (R123). -/
theorem resolveOrder_error (h : o ≠ 0x62 ∧ o ≠ 0x6C ∧ o ≠ 0x00) : resolveOrder o = .error .invalidBitOrder := by
  obtain ⟨hb, hl, h0⟩ := h
  rw [resolveOrder, if_neg hb, if_neg hl, if_neg h0]

/-- The width is checked first: its error is the catalog's, whatever the order token is (R126). -/
theorem resolve_of_width_error {e : CmdError} (h : resolveWidth n = .error e) (o : Nat) : resolve n o = .error e := by
  rw [resolve, h]

/-- With a legal width the order check decides (R126). -/
theorem resolve_of_width_ok {w : Width} (h : resolveWidth n = .ok w) (o : Nat) :
    resolve n o = (resolveOrder o).map (Codec.mk w) := by
  rw [resolve, h]
  cases resolveOrder o <;> rfl

/-- Settles O13: the width check decides alone when it fails, and the order check decides otherwise; what a success holds is
`resolve_ok`. -/
theorem catalogResolution : Obligations.CatalogResolution := by
  refine fun n o => ⟨fun hn => resolve_of_width_error (resolveWidth_error hn) o, fun hn ho => ?_, fun hn ho => ?_⟩
  · obtain ⟨w, hw⟩ := resolveWidth_ok hn
    rw [resolve_of_width_ok hw, resolveOrder_error ho]
    rfl
  · obtain ⟨w, hw⟩ := resolveWidth_ok hn
    obtain ⟨d, hd⟩ := resolveOrder_ok ho
    have hc : resolve n o = .ok ⟨w, d⟩ := by
      rw [resolve_of_width_ok hw, hd]
      rfl
    obtain ⟨-, -, hbw, hel, hord⟩ := resolve_ok hc
    refine ⟨⟨w, d⟩, hc, hbw, hel, ?_, hord, ?_, ?_⟩
    · rw [Codec.fmask, hbw]
    · rw [Width.index_eq, show w.bits = n from hbw]
    · rw [hord]
      split <;> rfl

end Sys2Proof.Machine
end

section
/-! PROOFS. Direct unpack: the samples of one byte as slices of it (`41_unpack.md` R140 to R143). -/

namespace Sys2Proof.Machine

/-- The samples of a byte as numbers are its slices, in output order (R140, R141). -/
theorem unpackByte_map_toNat (c : Codec) (b : Byte) :
    (unpackByte c b).map BitVec.toNat = (List.range c.elements).map fun p =>
      slice b.toNat (c.fieldAt p * c.bw + c.bw - 1) (c.fieldAt p * c.bw) := by
  refine List.ext_getElem (by simp) fun p _ _ => ?_
  rw [List.getElem_map, unpackByte_getElem_toNat, field_eq_slice, List.getElem_map, List.getElem_range]

/-- Settles O18: for each width and order the slices of `unpackByte_map_toNat` are those of the table's row. -/
theorem unpackOfOneByte : Obligations.UnpackOfOneByte := by
  intro b
  simp only [unpackByte_map_toNat]
  exact ⟨rfl, rfl, rfl, rfl, rfl, rfl⟩

end Sys2Proof.Machine
end

section
/-! PROOFS. Direct pack: the bits of a packed group, and when pack and unpack undo each other (`42_pack.md` R161,
R166). -/

namespace Sys2Proof.Machine

/-! ### Fields and positions -/

/-- The map of positions to fields is its own inverse (R160). -/
theorem fieldAt_fieldAt {c : Codec} {p : Nat} (h : p < c.elements) : c.fieldAt (c.fieldAt p) = p := by
  obtain ⟨w, o⟩ := c
  cases o with
  | little => rfl
  | big =>
    change Codec.elements _ - 1 - (Codec.elements _ - 1 - p) = p
    omega

theorem fieldAt_inj {c : Codec} {p q : Nat} (hp : p < c.elements) (hq : q < c.elements)
    (h : c.fieldAt p = c.fieldAt q) : p = q := by
  rw [← fieldAt_fieldAt hp, h, fieldAt_fieldAt hq]

theorem field_testBit (c : Codec) (b : Byte) (j i : Nat) :
    (Codec.field c b j).testBit i = (decide (i < c.bw) && b.toNat.testBit (j * c.bw + i)) := by
  unfold Codec.field Codec.fmask
  rw [Nat.testBit_and, Nat.testBit_shiftRight, Nat.testBit_two_pow_sub_one, Bool.and_comm]

/-- Every bit of a byte lies in the field that some position shows, so the unpacked samples determine the byte. -/
theorem unpackByte_injective (c : Codec) : Function.Injective (unpackByte c) := by
  intro a b h
  refine BitVec.eq_of_getLsbD_eq fun k hk => ?_
  have hj : k / c.bw < c.elements := Nat.div_lt_of_lt_mul (by rwa [Nat.mul_comm, elements_mul_bw])
  have hp := fieldAt_lt hj
  have hf : Codec.field c a (k / c.bw) = Codec.field c b (k / c.bw) := by
    rw [← fieldAt_fieldAt hj, ← unpackByte_getElem_toNat c a _ (by simpa using hp),
      ← unpackByte_getElem_toNat c b _ (by simpa using hp)]
    simp only [h]
  have hbit := congrArg (·.testBit (k % c.bw)) hf
  rw [← BitVec.testBit_toNat, ← BitVec.testBit_toNat]
  simpa [field_testBit, Nat.mod_lt _ (bw_pos c), Nat.div_add_mod'] using hbit

/-! ### The bits of a packed group -/

/-- A bit of the OR is a bit of some sample, shifted to its place (R161). -/
theorem packFrom_testBit (c : Codec) (k : Nat) (g : List Byte) (j : Nat) :
    (packFrom c j g).testBit k = true ↔
      ∃ p, ∃ h : p < g.length, c.shift (j + p) ≤ k ∧ g[p].toNat.testBit (k - c.shift (j + p)) = true := by
  induction g generalizing j with
  | nil => simp [packFrom]
  | cons b bs ih =>
    rw [packFrom, Nat.testBit_or, Nat.testBit_shiftLeft, Bool.or_eq_true, ih, Bool.and_eq_true, decide_eq_true_iff]
    constructor
    · rintro (h | ⟨p, hp, h⟩)
      · exact ⟨0, by simp, h⟩
      · exact ⟨p + 1, by simpa using hp, by simpa [Nat.add_assoc, Nat.add_comm 1] using h⟩
    · rintro ⟨p, hp, h⟩
      cases p with
      | zero => exact .inl h
      | succ p => exact .inr ⟨p, by simpa using hp, by simpa [Nat.add_assoc, Nat.add_comm 1] using h⟩

/-- Samples below `2^BW` do not reach into each other's fields, so a field of the packed byte is its sample. -/
theorem field_packGroup {c : Codec} {g : List Byte} (hg : g.length = c.elements)
    (hs : ∀ x ∈ g, x.toNat < 2 ^ c.bw) {p : Nat} (hp : p < g.length) :
    Codec.field c (packGroup c g) (c.fieldAt p) = g[p].toNat := by
  refine Nat.eq_of_testBit_eq fun i => ?_
  rw [field_testBit]
  by_cases hi : i < c.bw
  · have hk : c.fieldAt p * c.bw + i < 8 := by
      have := fieldAt_lt (hg ▸ hp)
      have := elements_mul_bw c
      nlinarith
    rw [packGroup, BitVec.toNat_ofNat, Nat.testBit_mod_two_pow, decide_eq_true hi, decide_eq_true hk, Bool.true_and,
      Bool.true_and, Bool.eq_iff_iff, packFrom_testBit]
    simp only [Nat.zero_add, Codec.shift]
    constructor
    · rintro ⟨q, hq, hle, hbit⟩
      have hlt : c.fieldAt p * c.bw + i - c.fieldAt q * c.bw < c.bw :=
        (Nat.pow_lt_pow_iff_right (by decide)).1
          ((Nat.ge_two_pow_of_testBit hbit).trans_lt (hs _ (List.getElem_mem hq)))
      have hdp : (c.fieldAt p * c.bw + i) / c.bw = c.fieldAt p :=
        Nat.div_eq_of_lt_le (by omega) (by rw [Nat.succ_mul]; omega)
      have hdq : (c.fieldAt p * c.bw + i) / c.bw = c.fieldAt q :=
        Nat.div_eq_of_lt_le hle (by rw [Nat.succ_mul]; omega)
      obtain rfl := fieldAt_inj (hg ▸ hp) (hg ▸ hq) (hdp.symm.trans hdq)
      simpa using hbit
    · exact fun hbit => ⟨p, hp, by omega, by simpa using hbit⟩
  · rw [decide_eq_false hi, Bool.false_and, Nat.testBit_lt_two_pow]
    exact (hs _ (List.getElem_mem hp)).trans_le (Nat.pow_le_pow_right (by decide) (by omega))

/-! ### Pack and unpack undo each other -/

theorem unpackByte_sample_lt (c : Codec) (b : Byte) : ∀ x ∈ unpackByte c b, x.toNat < 2 ^ c.bw := by
  intro x hx
  obtain ⟨p, hp, rfl⟩ := List.getElem_of_mem hx
  rw [unpackByte_getElem_toNat]
  exact field_lt ..

theorem unpackByte_packGroup {c : Codec} {g : List Byte} (hg : g.length = c.elements)
    (hs : ∀ x ∈ g, x.toNat < 2 ^ c.bw) : unpackByte c (packGroup c g) = g :=
  List.ext_getElem (by rw [unpackByte_length, hg]) fun p h hp =>
    BitVec.eq_of_toNat_eq (by rw [unpackByte_getElem_toNat, field_packGroup hg hs hp])

theorem packGroup_unpackByte (c : Codec) (b : Byte) : packGroup c (unpackByte c b) = b :=
  unpackByte_injective c (unpackByte_packGroup (unpackByte_length c b) (unpackByte_sample_lt c b))

/-- Group `k` of an unpacked buffer is the unpacked byte `k` of its source (R144). -/
theorem unpackedAt_group (c : Codec) (src : Nat → Byte) (k : Nat) :
    (List.range c.elements).map (fun j => unpackedAt c src (k * c.elements + j)) = unpackByte c (src k) := by
  refine List.map_congr_left fun j hj => ?_
  have hj := List.mem_range.1 hj
  rw [unpackedAt, Nat.mul_comm, Nat.mul_add_div (elements_pos c), Nat.div_eq_of_lt hj, Nat.add_zero, Nat.mul_add_mod,
    Nat.mod_eq_of_lt hj]

/-- Settles O24: small samples survive pack and unpack by `unpackByte_packGroup`, and unpacked samples are small. -/
theorem packUndoesUnpack : Obligations.PackUndoesUnpack := by
  refine ⟨packGroup_unpackByte, fun c g hg => ⟨fun h => ?_, unpackByte_packGroup hg⟩, fun c src k => ?_⟩
  · exact h ▸ unpackByte_sample_lt c (packGroup c g)
  · rw [packedAt, unpackedAt_group, packGroup_unpackByte]

end Sys2Proof.Machine
end

section
/-! PROOFS. The lookup ROM: its content, its layout, and that the tables fill it (`43_lookup.md` R180, R181). -/

namespace Sys2Proof.Machine

/-- A ROM entry is the field of its row's byte that its position shows, as a number too (R180). -/
theorem lutRead_field (c : Codec) {i p : Nat} {a : Fin lutSize} (hi : i < 256) (hp : p < c.elements)
    (ha : a.val = Codec.base c + (i * c.elements + p)) :
    lutRead a = BitVec.ofNat 8 (Codec.field c (BitVec.ofNat 8 i) (c.fieldAt p)) ∧
      (lutRead a).toNat = (i >>> (c.fieldAt p * c.bw)) &&& (2 ^ c.bw - 1) := by
  have hbyte : (BitVec.ofNat 8 i).toNat = i := by rw [BitVec.toNat_ofNat, Nat.mod_eq_of_lt hi]
  have hread : lutRead a = BitVec.ofNat 8 (Codec.field c (BitVec.ofNat 8 i) (c.fieldAt p)) := by
    rw [lutRead_row c i p a hi hp ha, ← tableEntry_eq, hbyte]
  refine ⟨hread, ?_⟩
  have hfield := (field_lt c (BitVec.ofNat 8 i) (c.fieldAt p)).trans_le (two_pow_bw_le c)
  rw [hread, BitVec.toNat_ofNat, Nat.mod_eq_of_lt hfield, Codec.field, hbyte, Codec.fmask]

/-- Every ROM address lies in the table that `lutTable` names: 256 rows from its base (R181). -/
theorem lutTable_covers {a : Nat} (ha : a < lutSize) :
    Codec.base (lutTable a) ≤ a ∧ a < Codec.base (lutTable a) + 256 * (lutTable a).elements := by
  unfold lutSize at ha
  unfold lutTable
  split_ifs <;>
    simp only [Codec.base, lutBase, Width.index, Order.index, Codec.elements, Codec.bw, Width.bits, Nat.reduceDiv] <;>
    omega

/-- The field a position shows, in the words of R180. -/
theorem fieldAt_eq (c : Codec) (p : Nat) : c.fieldAt p = if c.order = .little then p else c.elements - 1 - p := by
  unfold Codec.fieldAt
  cases c.order <;> rfl

/-- Settles O21: a ROM entry is the unpacked byte's by `lutRead_field`, and an address's row and position are the quotient
and remainder of its place in its table. -/
theorem lookupRomContent : Obligations.LookupRomContent := by
  refine ⟨fun c i p a hi hp ha => ?_, by decide, fun a => ?_, fun c i p hi hp => ?_⟩
  · obtain ⟨hread, hnat⟩ := lutRead_field c hi hp (ha.trans (Nat.add_assoc _ _ _))
    have hlen : p < (unpackByte c (BitVec.ofNat 8 i)).length := by rwa [unpackByte_length]
    rw [List.getElem?_eq_getElem hlen, unpackByte_getElem, ← fieldAt_eq]
    exact ⟨congrArg some hread.symm, hnat⟩
  · obtain ⟨hlo, hhi⟩ := lutTable_covers a.isLt
    refine ⟨lutTable a, (a - Codec.base (lutTable a)) / (lutTable a).elements,
      (a - Codec.base (lutTable a)) % (lutTable a).elements, Nat.div_lt_of_lt_mul ?_, Nat.mod_lt _ (elements_pos _), ?_⟩
    · rw [Nat.mul_comm]
      omega
    · have hdiv := Nat.div_add_mod' (a - Codec.base (lutTable a)) (lutTable a).elements
      change a.val = Codec.base (lutTable a) + _ + _
      omega
  · have hrow := lutAddress_lt c (BitVec.ofNat 8 i) ⟨p, hp⟩
    rwa [BitVec.toNat_ofNat, Nat.mod_eq_of_lt hi] at hrow

end Sys2Proof.Machine
end

section
/-! PROOFS. The decoder reads back the word of a well-formed command (`30_encoding.md` R90 to R93). -/

namespace Sys2Proof

@[simp] theorem modeOf_mode_bit (m : Mode) : modeOf m.bit = m := by cases m <;> rfl

/-- The fields of a command word are those it was built from (R90). -/
theorem commandWord_fields {op impl n o : Nat} (m : Mode) (hop : op < 16) (himpl : impl < 2)
    (hf : (nbitsFits n && ordtokFits o) = true) :
    let v := (commandWord op impl m.bit n o).toNat
    slice v 3 0 = op ∧ slice v 4 4 = impl ∧ slice v 5 5 = m.bit ∧ slice v 7 6 = 0 ∧ slice v 15 8 = n ∧
      slice v 23 16 = o ∧ slice v 31 24 = 0 := by
  obtain ⟨hn, ho⟩ := fits_of_and hf
  have hpar := m.bit_lt
  simp only [commandWord_toNat hop himpl hpar hn ho, slice]
  omega

/-- The decoder undoes the encoder. -/
theorem decode_encode_of_wellFormed {i : Instr} (h : i.WellFormed) : decode (encode i) = .ok i := by
  cases i with
  | unpackD n o m => simp [decode, encode, commandWord_fields m (show 1 < 16 by decide) (show 0 < 2 by decide) h]
  | unpackL n o m => simp [decode, encode, commandWord_fields m (show 1 < 16 by decide) (show 1 < 2 by decide) h]
  | unpackbD n o m => simp [decode, encode, commandWord_fields m (show 2 < 16 by decide) (show 0 < 2 by decide) h]
  | unpackbL n o m => simp [decode, encode, commandWord_fields m (show 2 < 16 by decide) (show 1 < 2 by decide) h]
  | pack n o m => simp [decode, encode, commandWord_fields m (show 3 < 16 by decide) (show 0 < 2 by decide) h]
  | packb n o m => simp [decode, encode, commandWord_fields m (show 4 < 16 by decide) (show 0 < 2 by decide) h]
  | requant => decide

end Sys2Proof
end

section
/-! PROOFS. A whole run of a pack or unpack command, whatever order its units run in: how far a running command has come, that
each step brings it one unit further, and the state at its completion (`44_dispatch.md` R204 to R209). -/

namespace Sys2Proof.Machine

variable {s t t₀ : State} {i : Instr} {b : Buffers} {mode : Mode} {f : Nat → State → State} {w units u v k : Nat}
  {out : Nat → Byte}

/-! ### Several steps -/

theorem thenSteps_zero (r : Out) : thenSteps r 0 = r := by cases r <;> rfl

/-- A run of `k + 1` steps is one step and then `k` steps. -/
theorem runSteps_succ (k : Nat) (s : State) : runSteps (k + 1) s = thenSteps (step s) k := by
  cases h : step s <;> exact (Host.Core.run.eq_2 core s k).trans (by rw [show core.step s = _ from h]; rfl)

/-- One step after `k` steps is `k + 1` steps. -/
theorem runSteps_succ_of_next (h : runSteps k s = .next t) : runSteps (k + 1) s = step t := by
  induction k generalizing s with
  | zero =>
    obtain rfl : s = t := Host.Outcome.next.inj h
    rw [runSteps_succ, thenSteps_zero]
  | succ k ih =>
    rw [runSteps_succ] at h ⊢
    cases hs : step s with
    | next r =>
      rw [hs] at h
      exact ih h
    | fault r =>
      rw [hs] at h
      cases h
    | refused r =>
      rw [hs] at h
      cases h

/-! ### The record of performed units -/

/-- How many units are recorded as performed (R30). -/
def Sequencer.count (mode : Mode) (q : Sequencer) : Nat :=
  match mode with
  | .seq => q.unit
  | .par => q.done.length

/-- Unit `u` is recorded as performed (R30). -/
def Sequencer.performed (mode : Mode) (q : Sequencer) (u : Nat) : Prop :=
  match mode with
  | .seq => u < q.unit
  | .par => u ∈ q.done

/-- With no next unit, every unit has been performed. -/
theorem performed_of_nextUnit_none (hw : s.seq.within mode units) (hn : nextUnit mode units s = none) (hu : u < units) :
    s.seq.performed mode u := by
  rcases unitLeft_or_allPerformed hw with h | ⟨-, h⟩
  · obtain ⟨v, t, hv⟩ := nextUnit_of_left h
    exact absurd (hn.symm.trans hv) (by simp)
  · cases mode with
    | seq => exact hu.trans_eq h.symm
    | par => exact h u hu

/-- The next unit is recorded beside those performed before it, and it is one more (R206, R207). -/
theorem markDone_performed (hn : nextUnit mode units s = some (u, t₀)) (hq : t.seq = s.seq) :
    (∀ v, (t.markDone mode u).seq.performed mode v ↔ v = u ∨ s.seq.performed mode v) ∧
      (t.markDone mode u).seq.count mode = s.seq.count mode + 1 := by
  obtain ⟨-, -, hu⟩ := nextUnit_some hn
  cases mode with
  | seq =>
    obtain ⟨rfl, -⟩ := hu
    simp only [State.markDone, Sequencer.performed, Sequencer.count, hq, and_true]
    omega
  | par =>
    simp only [State.markDone, Sequencer.performed, Sequencer.count, hq]
    exact ⟨fun v => mem_insertUnit, insertUnit_length hu⟩

/-! ### A running command and how far it has come -/

/-- Command `i` has just been launched in state `s`, with no event pending; its unit `u`, over the source bytes of `s`, writes
the `w` destination bytes `out (u * w), out (u * w + 1), …`. -/
structure State.starts (i : Instr) (b : Buffers) (f : Nat → State → State) (w : Nat) (out : Nat → Byte) (s : State) :
    Prop where
  inputs : s.host.inputs = []
  inPhase : s.inPhase i .run b
  sequencer : s.seq = ⟨.run, 0, []⟩
  decodes : decode s.cmd = .ok i
  exec_eq : ∀ t, t.inPhase i .run b →
    exec i t = unitOrComplete (modeOfInstr i) (unitCount i t.opnd.srcLen.toNat) b.dst.len f t
  size : unitCount i s.opnd.srcLen.toNat * w = outLength i s.opnd.srcLen.toNat
  unit : ∀ u < unitCount i s.opnd.srcLen.toNat, ∀ t : State, t.opnd = s.opnd → s.sameSource t →
    f u t = t.writeOut (u * w) ((List.range w).map fun p => out (u * w + p))

/-- `t` is a point of the run of command `i` from its launch in `s`: the bytes of the performed units hold their values, no byte
outside the destination has changed, and beside data memory only the record of units and the free choices have. -/
structure State.partway (i : Instr) (w : Nat) (out : Nat → Byte) (s t : State) : Prop where
  frame : t = { s with mem := t.mem, seq := t.seq, sched := t.sched }
  phase : t.seq.phase = .run
  within : t.seq.within (modeOfInstr i) (unitCount i s.opnd.srcLen.toNat)
  written : ∀ u p, t.seq.performed (modeOfInstr i) u → p < w →
    t.mem.find? (s.opnd.dstAddr.toNat + u * w + p) = some (out (u * w + p))
  outside : ∀ a, ¬ (s.destination i).has a → t.mem.find? a = s.mem.find? a
  sched : modeOfInstr i = .seq → t.sched = s.sched

/-- At its launch a command is partway with no unit performed. -/
theorem State.starts.partway (h : s.starts i b f w out) : s.partway i w out s where
  frame := rfl
  phase := by rw [h.sequencer]
  within := by
    rw [h.sequencer]
    exact within_start ..
  written := by
    intro u p hu
    rw [h.sequencer] at hu
    cases hm : modeOfInstr i <;> simp [Sequencer.performed, hm] at hu
  outside := fun _ _ => rfl
  sched := fun _ => rfl

/-- The next step of a run is the next unit or the completion. -/
theorem State.partway.step_eq (h : s.starts i b f w out) (ht : s.partway i w out t) :
    step t = unitOrComplete (modeOfInstr i) (unitCount i s.opnd.srcLen.toNat) b.dst.len f t := by
  have hopnd : t.opnd = s.opnd := by rw [ht.frame]
  have hphase : t.inPhase i .run b := by
    obtain ⟨hb, -, hv⟩ := h.inPhase
    exact ⟨by rwa [ht.frame], ht.phase, (validate_congr i hopnd).trans hv⟩
  have hin : t.host.inputs = [] := by
    rw [ht.frame]
    exact h.inputs
  have hd : decode t.cmd = .ok i := by
    rw [ht.frame]
    exact h.decodes
  rw [step_nil hin, engineTurn_busy hphase.1 hd, h.exec_eq t hphase, hopnd]

/-- The source bytes stay, since the destination does not overlap them (R203). -/
theorem State.partway.sameSource (h : s.starts i b f w out) (ht : s.partway i w out t) : s.sameSource t := by
  obtain ⟨rfl, -, -, hov⟩ := validate_ok h.inPhase.2.2
  refine sameSource_of_mem (fun a ha => ?_) (by rw [ht.frame]) rfl
  rw [Memory.read, ht.outside a fun hdst => hov (overlaps_of_has ha hdst), Memory.read]

/-- Different units have no destination byte in common. -/
theorem unit_bytes_disjoint {p : Nat} (huv : u ≠ v) (hp : p < w) : ¬ (u * w ≤ v * w + p ∧ v * w + p < u * w + w) := by
  have step : ∀ {x y : Nat}, x < y → x * w + w ≤ y * w := fun h => by
    rw [← Nat.succ_mul]
    exact Nat.mul_le_mul_right w h
  rcases Nat.lt_or_gt_of_ne huv with h | h
  · have := step h
    omega
  · have := step h
    omega

/-- The next work unit writes its bytes and leaves all else but the free choices alone. -/
theorem State.partway.unit_eq (h : s.starts i b f w out) (ht : s.partway i w out t)
    (hn : nextUnit (modeOfInstr i) (unitCount i s.opnd.srcLen.toNat) t = some (u, t₀)) :
    f u t₀ = { t with
      mem := t.mem.writeBytes (s.opnd.dstAddr.toNat + u * w) ((List.range w).map fun p => out (u * w + p))
      sched := t₀.sched } := by
  obtain ⟨hu, ht₀, -⟩ := nextUnit_some hn
  have hopnd : t.opnd = s.opnd := by rw [ht.frame]
  have hsrc : s.sameSource t₀ := by
    rw [ht₀]
    exact fun j hj => ht.sameSource h j hj
  rw [h.unit u hu t₀ (by rw [ht₀, hopnd]) hsrc, ht₀, State.writeOut, hopnd]

/-- A work unit brings the run one unit further (R206, R207). -/
theorem State.partway.unit (h : s.starts i b f w out) (ht : s.partway i w out t)
    (hn : nextUnit (modeOfInstr i) (unitCount i s.opnd.srcLen.toNat) t = some (u, t₀)) :
    s.partway i w out ((f u t₀).markDone (modeOfInstr i) u) ∧
      ((f u t₀).markDone (modeOfInstr i) u).seq.count (modeOfInstr i) = t.seq.count (modeOfInstr i) + 1 := by
  obtain ⟨hu, -, -⟩ := nextUnit_some hn
  have hunit := ht.unit_eq h hn
  have hseq : (f u t₀).seq = t.seq := by rw [hunit]
  have hmem : (f u t₀).mem =
      t.mem.writeBytes (s.opnd.dstAddr.toNat + u * w) ((List.range w).map fun p => out (u * w + p)) := by rw [hunit]
  obtain ⟨hperf, hcount⟩ := markDone_performed hn hseq
  refine ⟨⟨?_, ?_, markDone_within ht.within hn _ hseq, fun v p hv hp => ?_, fun a ha => ?_, fun hm => ?_⟩, hcount⟩
  · rw [hunit, ht.frame]
    cases modeOfInstr i <;> rfl
  · rw [markDone_seq_phase, hseq, ht.phase]
  · rw [markDone_mem, hmem]
    by_cases huv : u = v
    · subst huv
      rw [find_writeBytes_inside _ _ (by simpa using hp), List.getElem_map, List.getElem_range]
    · have hdisj := unit_bytes_disjoint huv hp
      rw [find_writeBytes_outside _ _ (by rw [List.length_map, List.length_range]; omega)]
      exact ht.written v p (((hperf v).1 hv).resolve_left (Ne.symm huv)) hp
  · rw [markDone_mem, hmem, find_writeBytes_outside, ht.outside a ha]
    rintro ⟨hlo, hhi⟩
    rw [List.length_map, List.length_range] at hhi
    have hlt := unit_in_destination (p := a - (s.opnd.dstAddr.toNat + u * w)) hu h.size (by omega)
    refine ha ⟨?_, ?_⟩ <;> simp only [State.destination] <;> omega
  · rw [markDone_sched, hunit, ← ht.sched hm]
    rw [hm] at hn
    obtain ⟨-, -, -, rfl⟩ := nextUnit_some hn
    rfl

/-! ### The whole run -/

/-- After as many steps as units, or fewer, the run is partway with so many units performed. -/
theorem State.starts.run (h : s.starts i b f w out) (hk : k ≤ unitCount i s.opnd.srcLen.toNat) :
    ∃ t, runSteps k s = .next t ∧ s.partway i w out t ∧ t.seq.count (modeOfInstr i) = k := by
  induction k with
  | zero => exact ⟨s, rfl, h.partway, by rw [h.sequencer]; cases modeOfInstr i <;> rfl⟩
  | succ k ih =>
    obtain ⟨t, hrun, ht, hcount⟩ := ih (Nat.le_of_succ_le hk)
    cases hn : nextUnit (modeOfInstr i) (unitCount i s.opnd.srcLen.toNat) t with
    | none =>
      have hle : unitCount i s.opnd.srcLen.toNat ≤ t.seq.count (modeOfInstr i) := nextUnit_none.1 hn
      omega
    | some next =>
      obtain ⟨hpart, hcount'⟩ := ht.unit h hn
      refine ⟨_, ?_, hpart, hcount'.trans (by rw [hcount])⟩
      rw [runSteps_succ_of_next hrun, ht.step_eq h, unitOrComplete_some hn]

/-- With every unit performed, the whole destination holds its values. -/
theorem State.partway.find_of_finished (h : s.starts i b f w out) (ht : s.partway i w out t)
    (hn : nextUnit (modeOfInstr i) (unitCount i s.opnd.srcLen.toNat) t = none) (a : Nat) :
    t.mem.find? a =
      (s.mem.writeBytes (s.destination i).base ((List.range (s.destination i).len).map out)).find? a := by
  by_cases ha : (s.destination i).has a
  · obtain ⟨k, rfl⟩ := Nat.exists_eq_add_of_le ha.1
    have hk : k < outLength i s.opnd.srcLen.toNat := Nat.lt_of_add_lt_add_left ha.2
    have hw : 0 < w := Nat.pos_of_ne_zero fun h0 => by
      have := h.size
      rw [h0] at this
      omega
    have hu : k / w < unitCount i s.opnd.srcLen.toNat := Nat.div_lt_of_lt_mul (by rwa [Nat.mul_comm, h.size])
    have hread := ht.written (k / w) (k % w) (performed_of_nextUnit_none ht.within hn hu) (Nat.mod_lt _ hw)
    rw [Nat.add_assoc, Nat.div_add_mod'] at hread
    rw [find_writeBytes_inside _ _ (by rwa [List.length_map, List.length_range]), List.getElem_map,
      List.getElem_range]
    exact hread
  · rw [ht.outside a ha, find_writeBytes_outside]
    simpa using ha

/-- A launched command reaches, in one step more than it has units, its completion: the bytes of its rule stand in the
destination, and else only the free choices may differ, in parallel mode (R208, R209). -/
theorem State.starts.run_to_completion (h : s.starts i b f w out) :
    ∃ t, runSteps (unitCount i s.opnd.srcLen.toNat + 1) s = .next t ∧
      t = { s.complete b.dst.len with mem := t.mem, sched := t.sched } ∧
      (∀ a, t.mem.find? a = (s.mem.writeBytes b.dst.base ((List.range b.dst.len).map out)).find? a) ∧
      (modeOfInstr i = .seq → t.sched = s.sched) := by
  obtain ⟨rfl, -⟩ := validate_ok h.inPhase.2.2
  obtain ⟨t, hrun, ht, hcount⟩ := h.run le_rfl
  have hn : nextUnit (modeOfInstr i) (unitCount i s.opnd.srcLen.toNat) t = none := nextUnit_none.2 hcount.ge
  have hmem := ht.find_of_finished h hn
  refine ⟨t.complete (s.destination i).len, ?_, ?_, hmem, ht.sched⟩
  · change _ = Host.Outcome.next (t.complete (s.buffers i).dst.len)
    rw [runSteps_succ_of_next hrun, ht.step_eq h, unitOrComplete_none hn]
  · rw [ht.frame]
    rfl

end Sys2Proof.Machine
end

section
/-! PROOFS. The four unpack commands: one step relation over one work unit (`43_lookup.md` R183, R186), and a whole run ends in
the state that the rule of unpack gives (`44_dispatch.md` R208). -/

namespace Sys2Proof.Machine

variable {s : State} {i : Instr} {b : Buffers} {n o : Nat} {m : Mode} {c : Codec}

/-! ### The four unpack commands -/

/-- What the unpack commands share: the step relation over the direct work unit, and their units and lengths. -/
structure UnpackView (i : Instr) (n o : Nat) (m : Mode) : Prop where
  notRequant : i ≠ .requant
  mode : modeOfInstr i = m
  exec_eq : ∀ s, exec i s = codecStep i n o m unpackUnit s
  units : ∀ len, unitCount i len = len
  outLen : ∀ len, outLength i len = len * (8 / n)
  resolves : ∀ s b, validate i s = .ok b → ∃ c, resolve n o = .ok c
  wellFormed : nbitsFits n && ordtokFits o → i.WellFormed

theorem lookupUnit_eq_unpackUnit : lookupUnit = unpackUnit := by
  funext c u s
  exact lookupUnit_eq c u s

theorem unpackView_unpackD : UnpackView (.unpackD n o m) n o m :=
  ⟨by simp, rfl, fun _ => rfl, fun _ => rfl, fun _ => rfl, fun _ _ => checkAllocating_resolves, id⟩

theorem unpackView_unpackbD : UnpackView (.unpackbD n o m) n o m :=
  ⟨by simp, rfl, fun _ => rfl, fun _ => rfl, fun _ => rfl, fun _ _ => checkBuffered_resolves, id⟩

theorem unpackView_unpackL : UnpackView (.unpackL n o m) n o m :=
  ⟨by simp, rfl, fun s => by rw [← lookupUnit_eq_unpackUnit]; rfl, fun _ => rfl, fun _ => rfl,
    fun _ _ => checkAllocating_resolves, id⟩

theorem unpackView_unpackbL : UnpackView (.unpackbL n o m) n o m :=
  ⟨by simp, rfl, fun s => by rw [← lookupUnit_eq_unpackUnit]; rfl, fun _ => rfl, fun _ => rfl,
    fun _ _ => checkBuffered_resolves, id⟩

/-- The word of an unpack command with a codec spells it. -/
theorem UnpackView.decode_encode (v : UnpackView i n o m) (hc : resolve n o = .ok c) : decode (encode i) = .ok i := by
  obtain ⟨hn, ho, -⟩ := resolve_ok hc
  refine decode_encode_of_wellFormed (v.wellFormed ?_)
  simp only [nbitsFits, ordtokFits, Bool.and_eq_true, decide_eq_true_eq]
  omega

/-! ### The whole run of an unpack command -/

/-- The launch of an unpack command starts the run that writes the bytes of its rule (R141, R146, R183). -/
theorem UnpackView.starts (v : UnpackView i n o m) (hc : resolve n o = .ok c) (hl : s.launches i b)
    (hin : s.host.inputs = []) :
    ((s.beginAccept (encode i)).launch i b).starts i b (unpackUnit c) c.elements (unpackedAt c s.srcByte) := by
  obtain ⟨hb, hv, -, -⟩ := hl
  obtain ⟨-, -, -, hel, -⟩ := resolve_ok hc
  have hseq : ((s.beginAccept (encode i)).launch i b).seq = ⟨.run, 0, []⟩ := by rw [launch_seq, if_neg v.notRequant]
  refine ⟨hin, ⟨rfl, by rw [hseq], (validate_congr i rfl).trans hv⟩, hseq, v.decode_encode hc, fun t ht => ?_, ?_,
    fun u hu t hopnd hsrc => ?_⟩
  · rw [v.exec_eq, v.mode, codecStep_busy ht hc]
  · rw [v.units, v.outLen, hel]
  · rw [v.units] at hu
    rw [unpackedAt_group, unpackUnit, hsrc u hu]
    rfl

/-- From launch an unpack command completes, in one step more than it has source bytes, with the bytes of the rule, whatever
order its units run in (R208). -/
theorem UnpackView.run_to_completion (v : UnpackView i n o m) (hc : resolve n o = .ok c) (hl : s.launches i b)
    (hin : s.host.inputs = []) :
    ∃ t, thenSteps (exec i s) (s.opnd.srcLen.toNat + 1) = .next t ∧
      t = { s.completed i b (unpackedAt c s.srcByte) with mem := t.mem, sched := t.sched } ∧
      (∀ a, t.mem.find? a = (s.completed i b (unpackedAt c s.srcByte)).mem.find? a) ∧ (m = .seq → t.sched = s.sched) := by
  obtain ⟨t, hrun, ht, hmem, hsched⟩ := (v.starts hc hl hin).run_to_completion
  obtain ⟨hb, hv, hbacks⟩ := hl
  refine ⟨t, ?_, ?_, hmem, fun hm => hsched (v.mode.trans hm)⟩
  · rw [v.units] at hrun
    rw [exec_idle i hb, accept_ok hv hbacks]
    exact hrun
  · rw [ht]
    simp [State.complete, State.launch, State.completed, State.beginAccept, v.notRequant, Status.succeeded]

end Sys2Proof.Machine
end

section
/-! PROOFS. A lookup unpack against the direct one (`43_lookup.md` R186): step by step under the same free choices, and at
completion under any. -/

namespace Sys2Proof.Machine

variable {s t : State} {l d : Instr} {b : Buffers} {n o k : Nat} {m : Mode} {w : Word}

/-- A lookup unpack `l` and the direct one `d` with the same operands and the same checks. -/
structure UnpackTwins (l d : Instr) (n o : Nat) (m : Mode) : Prop where
  lookup : UnpackView l n o m
  direct : UnpackView d n o m
  validate_eq : ∀ s, validate l s = validate d s

theorem unpackTwins_unpack : UnpackTwins (.unpackL n o m) (.unpackD n o m) n o m :=
  ⟨unpackView_unpackL, unpackView_unpackD, fun _ => rfl⟩

theorem unpackTwins_unpackb : UnpackTwins (.unpackbL n o m) (.unpackbD n o m) n o m :=
  ⟨unpackView_unpackbL, unpackView_unpackbD, fun _ => rfl⟩

/-! ### Outcomes that differ in `CMD` -/

/-- The outcome with another word in `CMD`. -/
def putCmd (w : Word) (r : Out) : Out :=
  match r with
  | .next t => .next { t with cmd := w }
  | .fault f => .fault f
  | .refused f => .refused f

theorem eraseCmd_putCmd (w : Word) (r : Out) : eraseCmd (putCmd w r) = eraseCmd r := by cases r <;> rfl

/-- The choice of the next unit does not look at `CMD` (R206, R207). -/
theorem nextUnit_withCmd (mode : Mode) (units : Nat) (s : State) (w : Word) :
    nextUnit mode units { s with cmd := w } = (nextUnit mode units s).map fun p => (p.1, { p.2 with cmd := w }) := by
  cases mode <;> simp only [nextUnit] <;> split_ifs <;> rfl

/-- Neither an unpack unit nor the completion looks at `CMD`. -/
theorem unitOrComplete_withCmd (mode : Mode) (units outlen : Nat) (c : Codec) (s : State) (w : Word) :
    unitOrComplete mode units outlen (unpackUnit c) { s with cmd := w } =
      putCmd w (unitOrComplete mode units outlen (unpackUnit c) s) := by
  have hnext := nextUnit_withCmd mode units s w
  cases hn : nextUnit mode units s with
  | none =>
    rw [hn] at hnext
    rw [unitOrComplete_none hnext, unitOrComplete_none hn]
    rfl
  | some p =>
    obtain ⟨u, t⟩ := p
    rw [hn] at hnext
    rw [unitOrComplete_some hnext, unitOrComplete_some hn]
    cases mode <;> rfl

/-! ### The two runs, step by step -/

namespace UnpackTwins

/-- An engine step of one command over another word in `CMD` is the engine step of its twin. -/
theorem exec_withCmd (h : UnpackTwins l d n o m) (hb : s.status.busy = true) (w : Word) :
    exec l { s with cmd := w } = putCmd w (exec d s) := by
  have hv : validate l { s with cmd := w } = validate d s := (h.validate_eq _).trans (validate_congr d rfl)
  rw [h.lookup.exec_eq, h.direct.exec_eq]
  simp only [codecStep, hb, hv, if_true, h.lookup.units, h.direct.units]
  split
  · exact unitOrComplete_withCmd ..
  · rfl

/-- The accepts of twins differ in `CMD` only (R200). -/
theorem accept_eq (h : UnpackTwins l d n o m) (s : State) : accept l s = putCmd (encode l) (accept d s) := by
  unfold accept
  rw [h.validate_eq]
  cases validate d s with
  | error e => rfl
  | ok b =>
    dsimp only
    split
    · simp [putCmd, State.launch, State.beginAccept, h.lookup.notRequant, h.direct.notRequant]
    · rfl

end UnpackTwins

/-- No event is pending, and if a command runs, it is `d`, and the word `w` spells `l`. -/
def State.runsOnly (l d : Instr) (w : Word) (s : State) : Prop :=
  s.host.inputs = [] ∧ (s.status.busy = true → decode s.cmd = .ok d ∧ decode w = .ok l)

theorem State.runsOnly.step (h : s.runsOnly l d w) (ht : step s = .next t) : t.runsOnly l d w := by
  obtain ⟨hin, hcmd⟩ := h
  rw [step_nil hin] at ht
  rcases engineTurn_cases ht with ⟨-, rfl⟩ | ⟨hb, i, b, -, hmove⟩
  · exact ⟨hin, hcmd⟩
  · obtain ⟨hc, -, -, hhost⟩ := engineMove_frame hmove
    refine ⟨by rw [hhost, hin], fun _ => ?_⟩
    rw [hc]
    exact hcmd hb

namespace UnpackTwins

/-- An accept with no event pending launches the command, or nothing runs. -/
theorem runsOnly_accept (h : UnpackTwins l d n o m) (hin : s.host.inputs = []) (ht : accept d s = .next t) :
    t.runsOnly l d (encode l) := by
  rcases accept_cases ht with ⟨e, -, rfl⟩ | ⟨b, hv, -, -, rfl⟩
  · exact ⟨hin, fun hb => absurd hb (by simp)⟩
  · obtain ⟨c, hc⟩ := h.direct.resolves s b hv
    exact ⟨hin, fun _ => ⟨h.direct.decode_encode hc, h.lookup.decode_encode hc⟩⟩

theorem step_withCmd (h : UnpackTwins l d n o m) (hs : s.runsOnly l d w) :
    step { s with cmd := w } = putCmd w (step s) := by
  obtain ⟨hin, hcmd⟩ := hs
  rw [step_nil hin, step_nil (s := { s with cmd := w }) hin]
  cases hb : s.status.busy with
  | false =>
    rw [engineTurn_idle hb, engineTurn_idle (s := { s with cmd := w }) hb]
    rfl
  | true =>
    obtain ⟨hd, hl⟩ := hcmd hb
    rw [engineTurn_busy hb hd, engineTurn_busy (s := { s with cmd := w }) hb hl, h.exec_withCmd hb]

theorem runSteps_withCmd (h : UnpackTwins l d n o m) (hs : s.runsOnly l d w) :
    runSteps k { s with cmd := w } = putCmd w (runSteps k s) := by
  induction k generalizing s with
  | zero => rfl
  | succ k ih =>
    rw [runSteps_succ, runSteps_succ, h.step_withCmd hs]
    cases ht : step s with
    | next t => exact ih (hs.step ht)
    | fault r => rfl
    | refused r => rfl

/-- Twins have the same run but for `CMD`. -/
theorem thenSteps_eq (h : UnpackTwins l d n o m) (hb : s.status.busy = false) (hin : s.host.inputs = []) (k : Nat) :
    eraseCmd (thenSteps (exec l s) k) = eraseCmd (thenSteps (exec d s) k) := by
  rw [exec_idle l hb, exec_idle d hb, h.accept_eq]
  cases ht : accept d s with
  | next t =>
    change eraseCmd (runSteps k { t with cmd := encode l }) = eraseCmd (runSteps k t)
    rw [h.runSteps_withCmd (h.runsOnly_accept hin ht), eraseCmd_putCmd]
  | fault r => rfl
  | refused r => rfl

end UnpackTwins

/-- Settles O22: the lookup row is the unpacked byte, so both commands are one step relation, and no step of it looks at
`CMD`. -/
theorem lookupUnpackEqualsDirectUnpack : Obligations.LookupUnpackEqualsDirectUnpack :=
  fun _ _ _ _ k hb hin => ⟨unpackTwins_unpack.thenSteps_eq hb hin k, unpackTwins_unpackb.thenSteps_eq hb hin k⟩

/-! ### The two runs at their completion -/

/-- Both commands complete, under these two schedules, in states that differ in `CMD` and the free choices only. -/
def completeAlike (l d : Instr) (f g : Schedule) (s : State) : Prop :=
  ∃ k t₁ t₂, thenSteps (exec l { s with sched := f }) k = .next t₁ ∧
    thenSteps (exec d { s with sched := g }) k = .next t₂ ∧ t₁.status.done = true ∧ t₂.status.done = true ∧
    t₁ = { t₂ with cmd := t₁.cmd, mem := t₁.mem, sched := t₁.sched } ∧ ∀ a, t₁.mem.read a = t₂.mem.read a

/-- A command that fails validation completes at its accept (R254). -/
theorem exec_of_error {i : Instr} {e : CmdError} (hb : s.status.busy = false) (he : validate i s = .error e) :
    exec i s = .next ((s.beginAccept (encode i)).fail e) :=
  (exec_idle i hb).trans (accept_error he)

namespace UnpackTwins

theorem completeAlike_of_error (h : UnpackTwins l d n o m) (f g : Schedule) {e : CmdError}
    (hb : s.status.busy = false) (he : validate l s = .error e) : completeAlike l d f g s := by
  have hl : validate l { s with sched := f } = .error e := (validate_congr l rfl).trans he
  have hd : validate d { s with sched := g } = .error e :=
    (validate_congr d rfl).trans ((h.validate_eq s).symm.trans he)
  exact ⟨0, _, _, (thenSteps_zero _).trans (exec_of_error hb hl), (thenSteps_zero _).trans (exec_of_error hb hd), rfl, rfl,
    rfl, fun _ => rfl⟩

theorem completeAlike_of_launches (h : UnpackTwins l d n o m) (f g : Schedule) (hin : s.host.inputs = [])
    (hs : s.launches l b) : completeAlike l d f g s := by
  obtain ⟨hb, hv, hbacks⟩ := hs
  obtain ⟨c, hc⟩ := h.lookup.resolves s b hv
  have hl : State.launches l b { s with sched := f } := ⟨hb, (validate_congr l rfl).trans hv, hbacks⟩
  have hd : State.launches d b { s with sched := g } :=
    ⟨hb, (validate_congr d rfl).trans ((h.validate_eq s).symm.trans hv), hbacks⟩
  obtain ⟨t₁, hrun₁, ht₁, hmem₁, -⟩ := h.lookup.run_to_completion hc hl hin
  obtain ⟨t₂, hrun₂, ht₂, hmem₂, -⟩ := h.direct.run_to_completion hc hd hin
  refine ⟨_, t₁, t₂, hrun₁, hrun₂, ?_, ?_, ?_, fun a => ?_⟩
  · rw [ht₁]
    rfl
  · rw [ht₂]
    rfl
  · rw [ht₁, ht₂]
    rfl
  · have hfind : t₁.mem.find? a = t₂.mem.find? a := (hmem₁ a).trans (hmem₂ a).symm
    rw [Memory.read, hfind, Memory.read]

/-- Twins complete alike, whether they fail or launch. -/
theorem completeAlike (h : UnpackTwins l d n o m) (f g : Schedule) (hb : s.status.busy = false)
    (hin : s.host.inputs = []) (hsrc : s.backs s.source) (hdst : s.backs (s.destination l)) :
    Machine.completeAlike l d f g s := by
  cases hv : validate l s with
  | error e => exact h.completeAlike_of_error f g hb hv
  | ok b =>
    obtain ⟨rfl, -⟩ := validate_ok hv
    exact h.completeAlike_of_launches f g hin ⟨hb, hv, hsrc, hdst⟩

end UnpackTwins

/-- Settles O56: a command that fails does so at its accept, and any other run ends in the state of
`UnpackView.run_to_completion`, which no free choice enters. -/
theorem lookupUnpackCompletesAsDirectUnpack : Obligations.LookupUnpackCompletesAsDirectUnpack := by
  intro n o m s f g hb hin p hp hsrc hdst
  rcases List.mem_pair.1 hp with rfl | rfl
  · exact unpackTwins_unpack.completeAlike f g hb hin hsrc hdst
  · exact unpackTwins_unpackb.completeAlike f g hb hin hsrc hdst

end Sys2Proof.Machine
end

section
/-! PROOFS. Output lengths in numbers (`44_dispatch.md` R202, R203), the free choice of the next unit (R207) and the completion
step (R209). -/

namespace Sys2Proof.Machine

variable {s t : State} {i : Instr} {b : Buffers} {units u : Nat}

/-! ### Output lengths -/

@[simp] theorem outLength_zero (i : Instr) : outLength i 0 = 0 := by cases i <;> simp [outLength]

/-- `E * NBITS` is the 8 bits of a byte, so both forms of R202 give the same length. -/
theorem width_lengths {n : Nat} (hn : n = 1 ∨ n = 2 ∨ n = 4) (len : Nat) :
    len * (8 / n) = len * 8 / n ∧ len / (8 / n) = len * n / 8 := by
  rcases hn with rfl | rfl | rfl <;> omega

/-- A destination of all 2^32 addresses would overlap the source, so the output length of a command that passes validation is
a `u32` (R203). -/
theorem outLength_lt_of_validate (h : validate i s = .ok b) : outLength i s.opnd.srcLen.toNat < 2 ^ 32 := by
  obtain ⟨rfl, -, hdst, hov⟩ := validate_ok h
  simp only [State.buffers, State.source, State.destination, Region.legal, Region.overlaps] at hdst hov
  by_contra hge
  have hlen : 0 < s.opnd.srcLen.toNat := Nat.pos_of_ne_zero fun h0 => by simp [h0] at hge
  exact hov ⟨by omega, by omega, by omega, by omega⟩

/-- Settles O17: R202's two forms agree for each width, and `outLength_lt_of_validate` bounds a length that passes. -/
theorem outputLengthFitsItsRegister : Obligations.OutputLengthFitsItsRegister := by
  refine ⟨fun len n o m hn => ?_, fun _ => rfl, fun i b s hv => ?_⟩
  · obtain ⟨hunpack, hpack⟩ := width_lengths hn len
    simp [outLength, hunpack, ← hpack]
  · obtain ⟨rfl, -⟩ := validate_ok hv
    refine ⟨rfl, rfl, outLength_lt_of_validate hv, ?_⟩
    rintro rfl
    exact Nat.mul_div_cancel' (Nat.dvd_of_mod_eq_zero (validate_requant_length hv).1)

/-! ### The free choice of the next unit -/

/-- When at most one unit of the phase is left, no two different ones are. -/
theorem undone_unique {done : List Nat} {v : Nat} (hs : done.Pairwise (· < ·)) (hb : ∀ x ∈ done, x < units)
    (hlast : units ≤ done.length + 1) (hu : u < units) (hu' : u ∉ done) (hv : v < units) (hv' : v ∉ done) : u = v := by
  have hb' : ∀ x ∈ insertUnit v done, x < units := fun x hx => by
    rcases mem_insertUnit.1 hx with rfl | hx
    · exact hv
    · exact hb x hx
  have hlen : (insertUnit v done).length = units := by
    have hlt := (length_lt_iff_left hs hb).2 ⟨v, hv, hv'⟩
    rw [insertUnit_length hv']
    omega
  have hmem : u ∈ insertUnit v done := (length_eq_iff_all (insertUnit_sorted hs) hb').1 hlen u hu
  exact (mem_insertUnit.1 hmem).resolve_right hu'

/-- A unit that is not performed yet is the next one when the free choice picks it (R207; log 4). -/
theorem nextUnit_of_pick (hw : s.seq.within .par units) (hu : u < units) (hu' : u ∉ s.seq.done) :
    ∃ t, nextUnit .par units { s with sched := ⟨[u], 0⟩ } = some (u, t) := by
  obtain ⟨-, hs, hb⟩ := hw
  by_cases hlast : s.seq.done.length + 1 < units
  · exact ⟨{ s with sched := ⟨[], 1⟩ }, by simp [nextUnit, hlast, chooseUnit, Schedule.pick, Schedule.next, hu, hu']⟩
  · have hlt : s.seq.done.length < units := (length_lt_iff_left hs hb).2 ⟨u, hu, hu'⟩
    have hfirst : firstUndone s.seq.done s.seq.done.length 0 = u :=
      undone_unique hs hb (not_lt.1 hlast) (firstUndone_lt hlt) (firstUndone_notMem _) hu hu'
    exact ⟨{ s with sched := ⟨[u], 0⟩ }, by simp [nextUnit, hlast, hlt, hfirst]⟩

/-- Settles O25: the choice that picks the unit, by `nextUnit_of_pick`; its work leaves the record of units alone. -/
theorem anyUnitMayBeNext : Obligations.AnyUnitMayBeNext := by
  intro n o u _ b s i hi _ hin hw hu hu'
  obtain ⟨hmode, hreq⟩ : modeOfInstr i = .par ∧ i ≠ .requant := by
    simp only [List.mem_cons, List.not_mem_nil, or_false] at hi
    rcases hi with rfl | rfl | rfl | rfl | rfl | rfl <;> simp [modeOfInstr]
  obtain ⟨n', o', work, view⟩ := codecView_of i hreq
  obtain ⟨c, hc⟩ := view.resolves s b hin.2.2
  obtain ⟨w, -, hwork⟩ := view.writes c hc
  obtain ⟨t, ht⟩ := nextUnit_of_pick hw hu hu'
  have hin' : State.inPhase i .run b { s with sched := ⟨[u], 0⟩ } :=
    ⟨hin.1, hin.2.1, (validate_congr i rfl).trans hin.2.2⟩
  have hseq : (work c u t).seq = s.seq := by
    obtain ⟨bs, -, hbs⟩ := hwork u t
    obtain ⟨-, ht', -⟩ := nextUnit_some ht
    rw [hbs, ht', writeOut_seq]
  refine ⟨⟨[u], 0⟩, (work c u t).markDone .par u, ?_, (markDone_performed ht hseq).1⟩
  rw [view.exec_eq, hmode, codecStep_busy hin' hc, unitOrComplete_some ht]

/-! ### The completion step -/

/-- With no next unit in its last phase, a command completes (R209). -/
theorem exec_of_nextUnit_none (hin : s.inPhase i (if i = .requant then .quant else .run) b)
    (hn : nextUnit (modeOfInstr i) (unitCount i s.opnd.srcLen.toNat) s = none) : exec i s = .next (s.complete b.dst.len) := by
  by_cases hi : i = .requant
  · subst hi
    exact (execRequant_quant hin).trans (unitOrComplete_none hn)
  · obtain ⟨n, o, work, view⟩ := codecView_of i hi
    rw [if_neg hi] at hin
    obtain ⟨c, hc⟩ := view.resolves s b hin.2.2
    rw [view.exec_eq, codecStep_busy hin hc, unitOrComplete_none hn]

/-- In its last phase a command of the invariant has performed an initial segment or a set of that phase's units (R30). -/
theorem fits_within (hp : s.seq.phase = if i = .requant then .quant else .run) (hf : s.fits i) :
    s.seq.within (modeOfInstr i) (unitCount i s.opnd.srcLen.toNat) := by
  by_cases hi : i = .requant
  · subst hi
    exact ((fits_requant_quant hp).1 hf).1
  · exact ((fits_codec hi).1 hf).2

/-- An engine step that raises `DONE` is the completion step (R209). -/
theorem engineMove_done (h : EngineMove i b s t) (hs : s.status.done = false) (ht : t.status.done = true) :
    s.seq.phase = (if i = .requant then .quant else .run) ∧
      nextUnit (modeOfInstr i) (unitCount i s.opnd.srcLen.toNat) s = none := by
  cases h with
  | write p u w s₀ bs hp hin hn =>
    have hs₀ : s₀.status = s.status := by rw [(nextUnit_some hn).2.1]
    simp [hs₀, hs] at ht
  | complete p hp hin hn => exact ⟨hin.2.1.trans hp, hn⟩
  | stat => simp [hs] at ht
  | endStat => simp [hs] at ht

/-- Settles O26: all units performed leave no next one, so the step completes; and a step that raises `DONE` had no next unit,
which within its phase means that all were performed. -/
theorem successCompletion : Obligations.SuccessCompletion := by
  refine ⟨fun i b s hin hall => ?_, fun i s t hinv hb hd hexec hdone => ?_⟩
  · have hexec := exec_of_nextUnit_none hin (nextUnit_of_allPerformed hall)
    obtain ⟨-, -, hv⟩ := hin
    obtain ⟨rfl, -⟩ := validate_ok hv
    exact ⟨hexec, outLength_lt_of_validate hv⟩
  · rcases exec_cases hexec with ⟨hidle, -⟩ | ⟨-, b, hmove⟩
    · simp [hb] at hidle
    · obtain ⟨hstatus, -⟩ := hinv.running_registers hb
      obtain ⟨hp, hn⟩ := engineMove_done hmove (by rw [hstatus]) hdone
      have hw := fits_within hp (hinv.command hb hd hmove.validates).2
      refine ⟨hp, (unitLeft_or_allPerformed hw).resolve_left fun hleft => ?_⟩
      obtain ⟨u, s₀, hu⟩ := nextUnit_of_left hleft
      simp [hn] at hu

end Sys2Proof.Machine
end

section
/-! PROOFS. Every step keeps the canonical form of data memory, and a whole pack or unpack is one atomic transition
(`44_dispatch.md` R208). -/

namespace Sys2Proof.Machine

variable {s t : State} {i : Instr} {b : Buffers} {n o k w : Nat} {m : Mode} {c : Codec} {f : Nat → State → State}
  {out : Nat → Byte}

/-! ### The canonical form of data memory along a run -/

/-- A command's engine step keeps the canonical form of data memory. -/
theorem engineMove_wf (h : EngineMove i b s t) (hm : s.mem.wf) : t.mem.wf := by
  obtain ⟨rfl, -, hdst, -⟩ := validate_ok h.validates
  cases h with
  | write p u w s₀ bs hp hin hn hw hbs =>
    obtain ⟨hu, hs₀, -⟩ := nextUnit_some hn
    rw [markDone_mem, hs₀]
    exact writeUnit_wf hm hdst hu hw hbs
  | complete => exact hm
  | stat => rwa [markDone_mem]
  | endStat => exact hm

theorem eventMove_wf {ev : Input} (h : EventMove s ev t) (hm : s.mem.wf) : t.mem.wf := by
  cases h with
  | host => exact hm
  | operand => rwa [writeOperand_mem]
  | accept off bytes w i t hb hd ha => rwa [accept_mem ha]
  | illegal => exact hm
  | memWrite a v ha => exact write_wf v hm ha
  | engine i b t hb hd hmove => exact engineMove_wf hmove hm
  | reset => exact hm

/-- Every step keeps the canonical form of data memory, from any state (R60). -/
theorem step_wf (h : step s = .next t) (hm : s.mem.wf) : t.mem.wf := by
  obtain ⟨ev, rest, hmove, -⟩ := step_event h
  exact eventMove_wf hmove hm

/-- What every step keeps, a run of steps keeps. -/
theorem runSteps_keeps {P : State → Prop} (hP : ∀ s t, P s → step s = .next t → P t) (h : runSteps k s = .next t)
    (hs : P s) : P t := by
  induction k generalizing s with
  | zero =>
    obtain rfl : s = t := Host.Outcome.next.inj h
    exact hs
  | succ k ih =>
    rw [runSteps_succ] at h
    cases hstep : step s with
    | next r =>
      rw [hstep] at h
      exact ih h (hP s r hs hstep)
    | fault r =>
      rw [hstep] at h
      cases h
    | refused r =>
      rw [hstep] at h
      cases h

theorem runSteps_wf (h : runSteps k s = .next t) (hm : s.mem.wf) : t.mem.wf :=
  runSteps_keeps (P := fun s => s.mem.wf) (fun _ _ hm hstep => step_wf hstep hm) h hm

/-! ### A whole run as one transition -/

/-- A command whose launch starts a run that writes `out` reaches, from any memory in canonical form, exactly the state of its
atomic transition (R208). -/
theorem State.starts.whole (h : ((s.beginAccept (encode i)).launch i b).starts i b f w out) (hi : i ≠ .requant)
    (hl : s.launches i b) (hm : s.mem.wf) :
    ∃ t₀ t, exec i s = .next t₀ ∧ runSteps (unitCount i s.opnd.srcLen.toNat + 1) t₀ = .next t ∧
      t = { s.completed i b out with sched := t.sched } ∧ (modeOfInstr i = .seq → t.sched = s.sched) := by
  obtain ⟨hb, hv, hbacks⟩ := hl
  obtain ⟨t, hrun, ht, hfind, hsched⟩ := h.run_to_completion
  refine ⟨_, t, (exec_idle i hb).trans (accept_ok hv hbacks), hrun, ?_, hsched⟩
  have hdst : (s.mem.writeBytes b.dst.base ((List.range b.dst.len).map out)).wf :=
    writeBytes_wf _ hm (by simpa using (validate_ok hv).2.2.1)
  have hmem : t.mem = s.mem.writeBytes b.dst.base ((List.range b.dst.len).map out) :=
    memory_ext (runSteps_wf hrun hm) hdst hfind
  rw [ht, hmem]
  simp [State.complete, State.launch, State.completed, State.beginAccept, hi, Status.succeeded]

/-! ### The two pack commands -/

/-- The bytes read from address `a` on are those at `a, a + 1, …` (R62). -/
theorem readBytes_eq_map (m : Memory) (a k : Nat) :
    m.readBytes a k = (List.range k).map fun j => m.read (a + j) := by
  induction k generalizing a with
  | zero => rfl
  | succ k ih =>
    rw [Memory.readBytes, ih, List.range_succ_eq_map, List.map_cons, List.map_map]
    simp [Function.comp_def, Nat.add_assoc, Nat.add_comm 1]

/-- A pack unit over the source bytes of `s` writes the byte of its group (R161, R167). -/
theorem packUnit_eq {u : Nat} (hu : u < s.opnd.srcLen.toNat / c.elements) (hsrc : s.sameSource t) :
    packUnit c u t = t.writeOut (u * 1) ((List.range 1).map fun p => packedAt c s.srcByte (u * 1 + p)) := by
  have hgroup : t.mem.readBytes (t.opnd.srcAddr.toNat + u * c.elements) c.elements =
      (List.range c.elements).map fun j => s.srcByte (u * c.elements + j) := by
    rw [readBytes_eq_map]
    refine List.map_congr_left fun j hj => ?_
    rw [Nat.add_assoc]
    exact hsrc _ (group_in_source hu (List.mem_range.1 hj))
  rw [packUnit, hgroup, Nat.mul_one]
  rfl

/-- What the pack commands share: the step relation over the pack unit, and their units and lengths. -/
structure PackView (i : Instr) (n o : Nat) (m : Mode) : Prop where
  notRequant : i ≠ .requant
  mode : modeOfInstr i = m
  exec_eq : ∀ s, exec i s = codecStep i n o m packUnit s
  units : ∀ len, unitCount i len = len / (8 / n)
  outLen : ∀ len, outLength i len = len / (8 / n)
  wellFormed : nbitsFits n && ordtokFits o → i.WellFormed

theorem packView_pack : PackView (.pack n o m) n o m :=
  ⟨by simp, rfl, fun _ => rfl, fun _ => rfl, fun _ => rfl, id⟩

theorem packView_packb : PackView (.packb n o m) n o m :=
  ⟨by simp, rfl, fun _ => rfl, fun _ => rfl, fun _ => rfl, id⟩

/-- Operands that the catalog resolves fit their fields (R94, R95, R126). -/
theorem operandsFit_of_resolve (hc : resolve n o = .ok c) : nbitsFits n && ordtokFits o := by
  obtain ⟨hn, ho, -⟩ := resolve_ok hc
  simp only [nbitsFits, ordtokFits, Bool.and_eq_true, decide_eq_true_eq]
  omega

/-- The launch of a pack command starts the run that writes the bytes of its rule (R161, R167). -/
theorem PackView.starts (v : PackView i n o m) (hc : resolve n o = .ok c) (hl : s.launches i b)
    (hin : s.host.inputs = []) :
    ((s.beginAccept (encode i)).launch i b).starts i b (packUnit c) 1 (packedAt c s.srcByte) := by
  obtain ⟨hb, hv, -, -⟩ := hl
  obtain ⟨-, -, -, hel, -⟩ := resolve_ok hc
  have hseq : ((s.beginAccept (encode i)).launch i b).seq = ⟨.run, 0, []⟩ := by rw [launch_seq, if_neg v.notRequant]
  refine ⟨hin, ⟨rfl, by rw [hseq], (validate_congr i rfl).trans hv⟩, hseq,
    decode_encode_of_wellFormed (v.wellFormed (operandsFit_of_resolve hc)), fun t ht => ?_, ?_,
    fun u hu t _ hsrc => ?_⟩
  · rw [v.exec_eq, v.mode, codecStep_busy ht hc]
  · rw [v.units, v.outLen, Nat.mul_one]
  · rw [v.units, ← hel] at hu
    exact packUnit_eq hu hsrc

/-! ### The six commands -/

/-- A whole unpack, whatever the order of its units (R144, R184, R208). -/
theorem UnpackView.whole (v : UnpackView i n o m) (hc : resolve n o = .ok c) (hm : s.mem.wf) (hin : s.host.inputs = [])
    (hl : s.launches i b) :
    ∃ t₀ t, exec i s = .next t₀ ∧ runSteps (s.opnd.srcLen.toNat + 1) t₀ = .next t ∧
      t = { s.completed i b (unpackedAt c s.srcByte) with sched := t.sched } ∧ (m = .seq → t.sched = s.sched) := by
  have h := (v.starts hc hl hin).whole v.notRequant hl hm
  rwa [v.units, v.mode] at h

/-- A whole pack, whatever the order of its units (R164, R165, R208). -/
theorem PackView.whole (v : PackView i n o m) (hc : resolve n o = .ok c) (hm : s.mem.wf) (hin : s.host.inputs = [])
    (hl : s.launches i b) :
    ∃ t₀ t, exec i s = .next t₀ ∧ runSteps (s.opnd.srcLen.toNat / c.elements + 1) t₀ = .next t ∧
      t = { s.completed i b (packedAt c s.srcByte) with sched := t.sched } ∧ (m = .seq → t.sched = s.sched) := by
  obtain ⟨-, -, -, hel, -⟩ := resolve_ok hc
  have h := (v.starts hc hl hin).whole v.notRequant hl hm
  rwa [v.units, ← hel, v.mode] at h

/-- Settles O53: along a run of any order the performed units hold their bytes (`State.starts.run`), so at completion data
memory holds what the atomic transition writes, and in canonical form it is the same data. -/
theorem wholePackAndUnpack : Obligations.WholePackAndUnpack := by
  intro n o m c b s hc hm hin
  refine ⟨fun i hi => ?_, fun i hi => ?_⟩
  · have v : UnpackView i n o m := by
      simp only [List.mem_cons, List.not_mem_nil, or_false] at hi
      rcases hi with rfl | rfl | rfl | rfl
      · exact unpackView_unpackD
      · exact unpackView_unpackL
      · exact unpackView_unpackbD
      · exact unpackView_unpackbL
    exact v.whole hc hm hin
  · have v : PackView i n o m := by
      rcases List.mem_pair.1 hi with rfl | rfl
      · exact packView_pack
      · exact packView_packb
    exact v.whole hc hm hin

end Sys2Proof.Machine
end

section
/-! PROOFS. The engine steps of `REQUANT`: a unit of pass 1, the end of pass 1 and a unit of pass 2 (`45_requant.md` R223, R224,
R227). -/

namespace Sys2Proof.Machine

variable {s : State} {b : Buffers}

/-! ### Pass 1 -/

/-- Settles O27: with a unit left, the step of phase `STAT` is that unit. -/
theorem statisticsUnit : Obligations.StatisticsUnit := by
  intro b s hin hu r i
  calc exec .requant s = statUnitOrEnd (complexCount s.opnd.srcLen.toNat) s := execRequant_stat hin
    _ = .next ((statUnit s.seq.unit s).markDone .seq s.seq.unit) := statUnitOrEnd_of_lt hu

/-- Settles O28: with no unit left, the step of phase `STAT` is the end of pass 1. -/
theorem endOfPass1 : Obligations.EndOfPass1 := by
  intro b s hin hu
  calc exec .requant s = statUnitOrEnd (complexCount s.opnd.srcLen.toNat) s := execRequant_stat hin
    _ = .next (s.endStat (complexCount s.opnd.srcLen.toNat)) := statUnitOrEnd_of_le hu.ge

/-! ### The byte of a unit of pass 2 -/

/-- A level is one of 0 to 3 (R226). -/
theorem level_lt (v : Int) (x : Nat) (spr : Int) : level v x spr < 4 := by
  unfold level
  split_ifs <;> decide

/-- The four levels of a requantized byte do not reach into each other's fields (R227). -/
theorem quantByte_toNat (x : Nat) (vRe vIm : Int) (r₁ i₁ r₂ i₂ : Byte) :
    (quantByte x vRe vIm r₁ i₁ r₂ i₂).toNat = level (toS8 r₁) x vRe * 64 + level (toS8 i₁) x vIm * 16 +
      level (toS8 r₂) x vRe * 4 + level (toS8 i₂) x vIm := by
  have hr₁ := level_lt (toS8 r₁) x vRe
  have hi₁ := level_lt (toS8 i₁) x vIm
  have hr₂ := level_lt (toS8 r₂) x vRe
  have hi₂ := level_lt (toS8 i₂) x vIm
  rw [quantByte, BitVec.toNat_ofNat, Nat.mul_one, Nat.mod_eq_of_lt (by omega)]

/-! ### Pass 2 -/

/-- With a unit left, the step of phase `QUANT` is that unit (R206, R227). -/
theorem exec_requant_quantUnit (hin : s.inPhase .requant .quant b) (hu : s.seq.unit < s.opnd.srcLen.toNat / 4) :
    exec .requant s =
      .next ((quantUnit (complexCount s.opnd.srcLen.toNat) s.seq.unit s).markDone .seq s.seq.unit) :=
  (execRequant_quant hin).trans (unitOrComplete_some (if_pos hu))

/-- Settles O29: the step is the unit, which writes one byte, its four levels. -/
theorem quantizeUnit : Obligations.QuantizeUnit := by
  intro b s hin hu k x v vRe vIm
  refine ⟨_, exec_requant_quantUnit hin hu, rfl, ?_, fun a ha => ?_⟩
  · rw [markDone_mem, quantUnit, writeOut_mem]
    exact (congrArg BitVec.toNat (read_write_same ..)).trans (quantByte_toNat ..)
  · exact read_write_other _ _ (by omega)

end Sys2Proof.Machine
end

section
/-! PROOFS. A whole `REQUANT` is one atomic transition (`45_requant.md` R220): the state after each sample of pass 1 and after
each byte of pass 2, and that each step leads from one to the next. -/

namespace Sys2Proof.Machine

variable {s t : State} {b : Buffers} {j k n : Nat}

/-! ### Runs and byte writes -/

/-- A run that goes through `f 0, f 1, …`, one step each. -/
theorem runSteps_through {f : Nat → State} (hrun : runSteps j s = .next (f 0))
    (hstep : ∀ n < k, step (f n) = .next (f (n + 1))) : runSteps (j + k) s = .next (f k) := by
  induction k with
  | zero => exact hrun
  | succ k ih =>
    have hk := ih fun n hn => hstep n (Nat.lt_succ_of_lt hn)
    exact (runSteps_succ_of_next hk).trans (hstep k (Nat.lt_succ_self k))

/-- Bytes in ascending order: the first ones, then the others behind them (R62). -/
theorem writeBytes_append (m : Memory) (a : Nat) (bs cs : List Byte) :
    m.writeBytes a (bs ++ cs) = (m.writeBytes a bs).writeBytes (a + bs.length) cs := by
  induction bs generalizing m a with
  | nil => rfl
  | cons v bs ih => rw [List.cons_append, Memory.writeBytes, ih, List.length_cons, Memory.writeBytes,
      Nat.add_assoc, Nat.add_comm 1]

/-- Writing `out 0, …, out n` is writing all but the last and then the last. -/
theorem writeBytes_range_succ (m : Memory) (a n : Nat) (out : Nat → Byte) :
    m.writeBytes a ((List.range (n + 1)).map out) =
      (m.writeBytes a ((List.range n).map out)).writeBytes (a + n) [out n] := by
  rw [List.range_succ, List.map_append, writeBytes_append, List.length_map, List.length_range]
  rfl

/-! ### The states of the run -/

/-- `REQUANT`, launched in `s`, after `n` samples of pass 1 (R223). -/
def State.afterSamples (b : Buffers) (s : State) (n : Nat) : State :=
  { (s.beginAccept (encode .requant)).launch .requant b with acc := pass1 s.srcByte n, seq := ⟨.stat, n, []⟩ }

/-- `REQUANT`, launched in `s`, after pass 1 and `n` bytes of pass 2 (R224, R227). -/
def State.afterBytes (b : Buffers) (s : State) (n : Nat) : State :=
  { (s.afterSamples b (complexCount s.opnd.srcLen.toNat)).endStat (complexCount s.opnd.srcLen.toNat) with
    seq := ⟨.quant, n, []⟩
    mem := s.mem.writeBytes b.dst.base ((List.range n).map (requantizedAt s.srcByte s.opnd.srcLen.toNat)) }

theorem afterSamples_inPhase (hl : s.launches .requant b) (n : Nat) : (s.afterSamples b n).inPhase .requant .stat b := by
  obtain ⟨-, hv, -, -⟩ := hl
  exact ⟨rfl, rfl, (validate_congr .requant rfl).trans hv⟩

theorem afterBytes_inPhase (hl : s.launches .requant b) (n : Nat) : (s.afterBytes b n).inPhase .requant .quant b := by
  obtain ⟨-, hv, -, -⟩ := hl
  exact ⟨rfl, rfl, (validate_congr .requant rfl).trans hv⟩

/-- The bytes of pass 2 leave the source alone, since the destination does not overlap it (R203). -/
theorem afterBytes_sameSource (hl : s.launches .requant b) (hn : n ≤ s.opnd.srcLen.toNat / 4) :
    s.sameSource (s.afterBytes b n) := by
  obtain ⟨-, hv, -, -⟩ := hl
  obtain ⟨rfl, -, -, hov⟩ := validate_ok hv
  refine sameSource_of_mem (fun a ha => read_writeBytes_outside _ _ fun hdst => ?_) rfl rfl
  rw [List.length_map, List.length_range] at hdst
  obtain ⟨hlo, hhi⟩ := hdst
  exact hov (overlaps_of_has ha ⟨hlo, hhi.trans_le (Nat.add_le_add_left hn _)⟩)

/-- A unit of pass 2 over the source bytes of `s` writes the byte of its rule (R227). -/
theorem quantUnit_eq (hk : k < s.opnd.srcLen.toNat / 4) (hsrc : s.sameSource t)
    (hacc : t.acc = pass1 s.srcByte (complexCount s.opnd.srcLen.toNat)) :
    quantUnit (complexCount s.opnd.srcLen.toNat) k t =
      t.writeOut k [requantizedAt s.srcByte s.opnd.srcLen.toNat k] := by
  rw [quantUnit, hacc, hsrc (4 * k) (by omega), hsrc (4 * k + 1) (by omega), hsrc (4 * k + 2) (by omega),
    hsrc (4 * k + 3) (by omega)]
  rfl

/-! ### The steps of the run -/

/-- With no event pending a step is the engine step of the `REQUANT` in `CMD`. -/
theorem step_requant (t : State) (hin : t.host.inputs = []) (hb : t.status.busy = true) (hc : t.cmd = encode .requant) :
    step t = exec .requant t := by
  rw [step_nil hin, engineTurn_busy hb (hc ▸ decode_encode_of_wellFormed rfl)]

theorem step_afterSamples (hl : s.launches .requant b) (hin : s.host.inputs = [])
    (hn : n < complexCount s.opnd.srcLen.toNat) :
    step (s.afterSamples b n) = .next (s.afterSamples b (n + 1)) :=
  (step_requant (s.afterSamples b n) hin rfl rfl).trans (statisticsUnit b _ (afterSamples_inPhase hl n) hn)

theorem step_afterSamples_end (hl : s.launches .requant b) (hin : s.host.inputs = []) :
    step (s.afterSamples b (complexCount s.opnd.srcLen.toNat)) = .next (s.afterBytes b 0) :=
  (step_requant (s.afterSamples b _) hin rfl rfl).trans (endOfPass1 b _ (afterSamples_inPhase hl _) rfl)

theorem step_afterBytes (hl : s.launches .requant b) (hin : s.host.inputs = []) (hn : n < s.opnd.srcLen.toNat / 4) :
    step (s.afterBytes b n) = .next (s.afterBytes b (n + 1)) := by
  have hunit : quantUnit (complexCount s.opnd.srcLen.toNat) n (s.afterBytes b n) =
      (s.afterBytes b n).writeOut n [requantizedAt s.srcByte s.opnd.srcLen.toNat n] :=
    quantUnit_eq hn (afterBytes_sameSource hl hn.le) rfl
  have hbase : b.dst.base = s.opnd.dstAddr.toNat := by
    obtain ⟨-, hv, -, -⟩ := hl
    obtain ⟨rfl, -⟩ := validate_ok hv
    rfl
  calc step (s.afterBytes b n)
      = exec .requant (s.afterBytes b n) := step_requant _ hin rfl rfl
    _ = .next ((quantUnit (complexCount s.opnd.srcLen.toNat) n (s.afterBytes b n)).markDone .seq n) :=
        exec_requant_quantUnit (afterBytes_inPhase hl n) hn
    _ = .next (s.afterBytes b (n + 1)) := by
        rw [hunit, State.afterBytes, State.afterBytes, writeBytes_range_succ, hbase]
        rfl

theorem step_afterBytes_end (hl : s.launches .requant b) (hin : s.host.inputs = []) :
    step (s.afterBytes b (s.opnd.srcLen.toNat / 4)) = .next (s.requantized b) := by
  have hphase := afterBytes_inPhase hl (s.opnd.srcLen.toNat / 4)
  obtain ⟨-, hv, -, -⟩ := hl
  obtain ⟨rfl, -⟩ := validate_ok hv
  exact (step_requant (s.afterBytes _ _) hin rfl rfl).trans (exec_of_nextUnit_none hphase (nextUnit_none.2 le_rfl))

/-- Settles O54: the run goes through `afterSamples 0, …, afterSamples X, afterBytes 0, …, afterBytes (SRC_LEN/4)`, and the step
after the last is the completion. -/
theorem wholeRequantize : Obligations.WholeRequantize := by
  intro b s hl _ hin
  have ⟨hb, hv, hbacks⟩ := hl
  refine ⟨s.afterSamples b 0, (exec_idle .requant hb).trans (accept_ok hv hbacks), ?_⟩
  have hpass1 : runSteps (s.opnd.srcLen.toNat / 2) (s.afterSamples b 0) =
      .next (s.afterSamples b (s.opnd.srcLen.toNat / 2)) := by
    have hrun := runSteps_through (f := s.afterSamples b) (j := 0) rfl fun n => step_afterSamples hl hin
    rwa [Nat.zero_add] at hrun
  have hend := (runSteps_succ_of_next hpass1).trans (step_afterSamples_end hl hin)
  have hpass2 := runSteps_through hend fun n => step_afterBytes hl hin
  exact (runSteps_succ_of_next hpass2).trans (step_afterBytes_end hl hin)

end Sys2Proof.Machine
end

section
/-! PROOFS. The threshold rule over the reals (`45_requant.md` R226): the integer comparisons of `Q` with `K` are those of the
value's size with `a*sigma`. -/

namespace Sys2Proof.Machine

variable {v : Int} {x : Nat} {spr : Int}

/-! ### The integer rule -/

theorem level_of_neg (h : v < 0) : level v x spr = if levelQ v x > levelK spr then 0 else 1 := if_pos h

theorem level_of_nonneg (h : 0 ≤ v) : level v x spr = if levelQ v x < levelK spr then 2 else 3 := if_neg h.not_gt

theorem levelK_eq (spr : Int) : levelK spr = 98159883 ^ 2 * spr := by
  rw [levelK, thrRead, sq]

theorem levelQ_eq (v : Int) (x : Nat) : levelQ v x = ((v.natAbs : Int) * 100000000 * x) ^ 2 := (sq _).symm

theorem levelQ_neg (v : Int) (x : Nat) : levelQ (-v) x = levelQ v x := by rw [levelQ, levelQ, Int.natAbs_neg]

/-- `Q` of a sample is small (R226). -/
theorem levelQ_lt (h : v.natAbs ≤ 128) (hx : x < 2 ^ 31) : levelQ v x < 2 ^ 130 := by
  have hroot : v.natAbs * 100000000 * x < 2 ^ 65 := by
    calc v.natAbs * 100000000 * x ≤ 128 * 100000000 * 2 ^ 31 := by gcongr
      _ < 2 ^ 65 := by norm_num
  calc levelQ v x = ((v.natAbs * 100000000 * x : ℕ) : Int) ^ 2 := by rw [levelQ_eq]; push_cast; rfl
    _ < (2 ^ 65) ^ 2 := by gcongr; exact_mod_cast hroot
    _ = 2 ^ 130 := by norm_num

/-- Settles O34: negation keeps `Q`, so it changes only which of the two comparisons decides, and these agree but at `Q = K`. -/
theorem negationOfLevels : Obligations.NegationOfLevels := by
  intro v x spr hv
  rcases hv.lt_or_gt with h | h
  · rw [level_of_neg h, level_of_nonneg (by omega), levelQ_neg]
    exact ⟨fun hq => by split_ifs <;> omega, fun hq => by split_ifs <;> omega⟩
  · rw [level_of_nonneg h.le, level_of_neg (by omega), levelQ_neg]
    exact ⟨fun hq => by split_ifs <;> omega, fun hq => by split_ifs <;> omega⟩

/-! ### The real boundary -/

/-- The boundary `a*sigma` of the document's rule, with `sigma = sqrt(V)/X` (R226). -/
noncomputable def boundary (x : Nat) (spr : Int) : ℝ := 98159883 / 100000000 * (√(spr : ℝ) / x)

theorem boundary_nonneg (x : Nat) (spr : Int) : 0 ≤ boundary x spr := by unfold boundary; positivity

/-- The boundary over the denominator `A_DEN*X` is the root of `K`. -/
theorem boundary_mul (hx : 0 < x) (spr : Int) : boundary x spr * (100000000 * x) = √(levelK spr : ℝ) := by
  have hx' : (x : ℝ) ≠ 0 := by positivity
  rw [levelK_eq, Int.cast_mul, Int.cast_pow, Real.sqrt_mul (by positivity), Real.sqrt_sq (by norm_num), boundary]
  push_cast
  field_simp

theorem boundary_le_iff (hx : 0 < x) (spr : Int) (t : Nat) :
    boundary x spr ≤ t ↔ levelK spr ≤ ((t : Int) * 100000000 * x) ^ 2 := by
  have hden : (0 : ℝ) < 100000000 * x := by positivity
  calc boundary x spr ≤ t
      ↔ √(levelK spr : ℝ) ≤ t * (100000000 * x) := by rw [← boundary_mul hx, mul_le_mul_iff_left₀ hden]
    _ ↔ (levelK spr : ℝ) ≤ (t * (100000000 * x)) ^ 2 := Real.sqrt_le_left (by positivity)
    _ ↔ levelK spr ≤ ((t : Int) * 100000000 * x) ^ 2 := by rw [mul_assoc]; exact_mod_cast Iff.rfl

theorem boundary_lt_iff (hx : 0 < x) (hs : 0 ≤ spr) (t : Nat) :
    boundary x spr < t ↔ levelK spr < ((t : Int) * 100000000 * x) ^ 2 := by
  have hden : (0 : ℝ) < 100000000 * x := by positivity
  have hk : 0 ≤ levelK spr := by rw [levelK_eq]; positivity
  calc boundary x spr < t
      ↔ √(levelK spr : ℝ) < t * (100000000 * x) := by rw [← boundary_mul hx, mul_lt_mul_iff_left₀ hden]
    _ ↔ (levelK spr : ℝ) < (t * (100000000 * x)) ^ 2 := Real.sqrt_lt (by exact_mod_cast hk) (by positivity)
    _ ↔ levelK spr < ((t : Int) * 100000000 * x) ^ 2 := by rw [mul_assoc]; exact_mod_cast Iff.rfl

/-! ### The level by the real boundary -/

/-- A negative value is level 0 exactly below `-a*sigma` (R226). -/
theorem level_of_neg_real (hx : 0 < x) (hs : 0 ≤ spr) (h : v < 0) :
    level v x spr = if (v : ℝ) < -boundary x spr then 0 else 1 := by
  have hsize : (v.natAbs : ℝ) = -v := by rw [← Int.cast_natCast, Int.ofNat_natAbs_of_nonpos h.le, Int.cast_neg]
  have hcmp : levelQ v x > levelK spr ↔ (v : ℝ) < -boundary x spr := by
    rw [levelQ_eq, gt_iff_lt, ← boundary_lt_iff hx hs, hsize, lt_neg]
  exact (level_of_neg h).trans (if_congr hcmp rfl rfl)

/-- Any other value is level 2 exactly below `a*sigma` (R226). -/
theorem level_of_nonneg_real (hx : 0 < x) (h : 0 ≤ v) :
    level v x spr = if (v : ℝ) < boundary x spr then 2 else 3 := by
  have hsize : (v.natAbs : ℝ) = v := by rw [← Int.cast_natCast, Int.natAbs_of_nonneg h]
  have hcmp : levelQ v x < levelK spr ↔ (v : ℝ) < boundary x spr := by
    rw [levelQ_eq, ← not_le, ← boundary_le_iff hx, hsize, not_le]
  exact (level_of_nonneg h).trans (if_congr hcmp rfl rfl)

/-- The document's four-case rule (R226). -/
theorem level_real (hx : 0 < x) (hs : 0 ≤ spr) (v : Int) :
    level v x spr =
      if (v : ℝ) < -boundary x spr then 0 else if (v : ℝ) < 0 then 1 else if (v : ℝ) < boundary x spr then 2 else 3 := by
  rcases lt_or_ge v 0 with h | h
  · rw [level_of_neg_real hx hs h, if_pos (Int.cast_lt_zero.2 h)]
  · have h' : (0 : ℝ) ≤ v := Int.cast_nonneg h
    have hlow : ¬ (v : ℝ) < -boundary x spr := not_lt.2 ((neg_nonpos.2 (boundary_nonneg x spr)).trans h')
    rw [level_of_nonneg_real hx h, if_neg hlow, if_neg h'.not_gt]

/-- The four-case rule counts the boundaries at or below the value, for any boundaries `-r`, `0`, `r`. -/
theorem fourCases_eq_count {r : ℝ} (hr : 0 ≤ r) (y : ℝ) :
    (if y < -r then 0 else if y < 0 then 1 else if y < r then 2 else 3) =
      (if -r ≤ y then 1 else 0) + (if 0 ≤ y then 1 else 0) + (if r ≤ y then 1 else 0) := by
  by_cases hlow : y < -r
  · rw [if_pos hlow, if_neg hlow.not_ge, if_neg (show ¬ 0 ≤ y by linarith), if_neg (show ¬ r ≤ y by linarith)]
  rw [if_neg hlow, if_pos (not_lt.1 hlow)]
  by_cases hneg : y < 0
  · rw [if_pos hneg, if_neg hneg.not_ge, if_neg (show ¬ r ≤ y by linarith)]
  rw [if_neg hneg, if_pos (not_lt.1 hneg)]
  by_cases hhigh : y < r
  · rw [if_pos hhigh, if_neg hhigh.not_ge]
  · rw [if_neg hhigh, if_pos (not_lt.1 hhigh)]

/-- The boundaries of the threshold ROM are `-a*sigma`, `0` and `a*sigma` (R226). -/
theorem card_thresholds (x : Nat) (spr : Int) (y : ℝ) :
    (Finset.univ.filter fun j : Fin 3 => (thrRead j : ℝ) * (√(spr : ℝ) / x) / 100000000 ≤ y).card =
      (if -boundary x spr ≤ y then 1 else 0) + (if 0 ≤ y then 1 else 0) + (if boundary x spr ≤ y then 1 else 0) := by
  have h0 : (thrRead 0 : ℝ) * (√(spr : ℝ) / x) / 100000000 = -boundary x spr := by
    rw [boundary, thrRead]; push_cast; ring
  have h1 : (thrRead 1 : ℝ) * (√(spr : ℝ) / x) / 100000000 = 0 := by rw [thrRead]; simp
  have h2 : (thrRead 2 : ℝ) * (√(spr : ℝ) / x) / 100000000 = boundary x spr := by
    rw [boundary, thrRead]; push_cast; ring
  rw [Finset.card_filter, Fin.sum_univ_three, h0, h1, h2]

/-- Settles O30: both comparisons of the integer rule are comparisons with the boundary by `boundary_lt_iff` and
`boundary_le_iff`. -/
theorem levelIsTheRealThresholdRule : Obligations.LevelIsTheRealThresholdRule := by
  intro v x spr hx hs k q sigma a
  have hk : k = levelK spr := (levelK_eq spr).symm
  have hq : q = levelQ v x := by rw [levelQ_eq, Int.natCast_natAbs]
  refine ⟨?_, level_real hx hs v, ?_, fun hlo hhi hx' => ?_⟩
  · rw [hk, hq]
    rfl
  · rw [level_real hx hs, fourCases_eq_count (boundary_nonneg x spr) v]
    exact (card_thresholds x spr v).symm
  · rw [hq]
    exact levelQ_lt (by omega) hx'

end Sys2Proof.Machine
end

section
/-! PROOFS. The integer thresholds `tpos` and `tneg` (`45_requant.md` R233) are the two roundings of `a*sigma`. -/

namespace Sys2Proof.Machine

variable {x : Nat} {spr : Int} {tpos tneg : Nat}

/-- `tpos` is the boundary rounded up (R233). -/
theorem tpos_eq_ceil (hx : 0 < x) (h : IsLeast {t : Nat | levelK spr ≤ ((t : Int) * 100000000 * x) ^ 2} tpos) :
    tpos = ⌈boundary x spr⌉₊ := by
  have hset : {t : Nat | levelK spr ≤ ((t : Int) * 100000000 * x) ^ 2} = Set.Ici ⌈boundary x spr⌉₊ := by
    ext t
    exact (boundary_le_iff hx spr t).symm.trans Nat.ceil_le.symm
  exact h.unique (hset ▸ isLeast_Ici)

/-- `tneg` is the first integer above the boundary (R233). -/
theorem tneg_eq_floor_succ (hx : 0 < x) (hs : 0 ≤ spr)
    (h : IsLeast {t : Nat | levelK spr < ((t : Int) * 100000000 * x) ^ 2} tneg) : tneg = ⌊boundary x spr⌋₊ + 1 := by
  have hset : {t : Nat | levelK spr < ((t : Int) * 100000000 * x) ^ 2} = Set.Ici (⌊boundary x spr⌋₊ + 1) := by
    ext t
    exact (boundary_lt_iff hx hs t).symm.trans (Nat.floor_lt (boundary_nonneg x spr)).symm
  exact h.unique (hset ▸ isLeast_Ici)

/-- The level by comparison with the two roundings of the boundary (R233). -/
theorem level_eq_by_roundings (hx : 0 < x) (hs : 0 ≤ spr) (v : Int) :
    level v x spr =
      if (⌈boundary x spr⌉₊ : Int) ≤ v then 3
      else if 0 ≤ v then 2
      else if -((⌊boundary x spr⌋₊ + 1 : ℕ) : Int) < v then 1
      else 0 := by
  rcases lt_or_ge v 0 with h | h
  · have hgt : levelQ v x > levelK spr ↔ ⌊boundary x spr⌋₊ < v.natAbs := by
      rw [Nat.floor_lt (boundary_nonneg x spr), boundary_lt_iff hx hs, levelQ_eq]
    rw [level_of_neg h]
    split_ifs <;> omega
  · have hlt : levelQ v x < levelK spr ↔ ¬ ⌈boundary x spr⌉₊ ≤ v.natAbs := by
      rw [Nat.ceil_le, boundary_le_iff hx, levelQ_eq, not_le]
    rw [level_of_nonneg h]
    split_ifs <;> omega

/-- The two roundings differ only at an integer boundary. -/
theorem eq_ceil_of_ceil_ne_floor_succ {r : ℝ} (hr : 0 ≤ r) (h : ⌈r⌉₊ ≠ ⌊r⌋₊ + 1) :
    r = ⌈r⌉₊ ∧ ⌊r⌋₊ + 1 = ⌈r⌉₊ + 1 := by
  have hle : ⌈r⌉₊ ≤ ⌊r⌋₊ := by
    have := Nat.ceil_le_floor_add_one r
    omega
  have heq : ⌈r⌉₊ = ⌊r⌋₊ := le_antisymm hle (Nat.floor_le_ceil r)
  exact ⟨le_antisymm (Nat.le_ceil r) (heq ▸ Nat.floor_le hr), by rw [heq]⟩

/-- A constant channel's boundary is 0. -/
theorem boundary_zero (x : Nat) : boundary x 0 = 0 := by simp [boundary]

/-- With `sigma` at most 128 the boundary is below 126 (R233). -/
theorem boundary_lt_126 (hx : 0 < x) (h : spr ≤ (128 * x) ^ 2) : boundary x spr < 126 := by
  have hsqrt : √(spr : ℝ) ≤ 128 * x := (Real.sqrt_le_left (by positivity)).2 (by exact_mod_cast h)
  have hsigma : √(spr : ℝ) / x ≤ 128 := (div_le_iff₀ (by positivity)).2 hsqrt
  unfold boundary
  linarith

/-- Settles O32: the thresholds are the roundings of the boundary, and the rest is said of these. -/
theorem integerThresholds : Obligations.IntegerThresholds := by
  intro x spr tpos tneg hx hs hpos hneg aSigma
  obtain rfl := tpos_eq_ceil hx hpos
  obtain rfl := tneg_eq_floor_succ hx hs hneg
  refine ⟨level_eq_by_roundings hx hs, rfl, rfl, eq_ceil_of_ceil_ne_floor_succ (boundary_nonneg x spr), ?_, fun h => ?_⟩
  · rintro rfl
    simp [boundary_zero]
  · have hlt := boundary_lt_126 hx h
    exact ⟨Nat.ceil_le.2 hlt.le, (Nat.floor_lt (boundary_nonneg x spr)).2 hlt⟩

end Sys2Proof.Machine
end

section
/-! PROOFS. The spread `V` of a channel (`45_requant.md` R225, R228): it is a sum of squares over `X`, so the population variance,
and 0 exactly for a constant channel. -/

namespace Sys2Proof.Machine

variable {x : Nat}

/-- `X*V` is the sum of the squares of `X*c - S1`, the deviations from the mean without a division. -/
theorem mul_spread_eq_sum_sq (c : Nat → Int) (x : Nat) :
    x * spread x (∑ i ∈ Finset.range x, c i) (∑ i ∈ Finset.range x, c i ^ 2) =
      ∑ i ∈ Finset.range x, (x * c i - ∑ j ∈ Finset.range x, c j) ^ 2 := by
  simp only [sub_sq, mul_pow, Finset.sum_add_distrib, Finset.sum_sub_distrib, ← Finset.mul_sum, ← Finset.sum_mul,
    Finset.sum_const, Finset.card_range, nsmul_eq_mul, spread]
  ring

theorem spread_nonneg (hx : 0 < x) (c : Nat → Int) :
    0 ≤ spread x (∑ i ∈ Finset.range x, c i) (∑ i ∈ Finset.range x, c i ^ 2) := by
  have hsum := Finset.sum_nonneg fun i (_ : i ∈ Finset.range x) =>
    sq_nonneg (x * c i - ∑ j ∈ Finset.range x, c j)
  rw [← mul_spread_eq_sum_sq] at hsum
  exact nonneg_of_mul_nonneg_right hsum (by exact_mod_cast hx)

/-- The spread of a constant channel (R228). -/
theorem spread_const (c : Int) (x : Nat) :
    spread x (∑ _i ∈ Finset.range x, c) (∑ _i ∈ Finset.range x, c ^ 2) = 0 := by
  simp only [Finset.sum_const, Finset.card_range, nsmul_eq_mul, spread]
  ring

theorem spread_eq_zero_iff (hx : 0 < x) (c : Nat → Int) :
    spread x (∑ i ∈ Finset.range x, c i) (∑ i ∈ Finset.range x, c i ^ 2) = 0 ↔ ∀ i < x, c i = c 0 := by
  constructor
  · intro h
    have hsum := mul_spread_eq_sum_sq c x
    rw [h, mul_zero, eq_comm, Finset.sum_eq_zero_iff_of_nonneg fun i _ => sq_nonneg _] at hsum
    have hmean : ∀ i < x, x * c i = ∑ j ∈ Finset.range x, c j := fun i hi =>
      sub_eq_zero.1 (pow_eq_zero_iff two_ne_zero |>.1 (hsum i (Finset.mem_range.2 hi)))
    have hx' : (x : Int) ≠ 0 := by exact_mod_cast hx.ne'
    exact fun i hi => mul_left_cancel₀ hx' ((hmean i hi).trans (hmean 0 hx).symm)
  · intro h
    have hone : ∀ i ∈ Finset.range x, c i = c 0 := fun i hi => h i (Finset.mem_range.1 hi)
    rw [Finset.sum_congr rfl hone, Finset.sum_congr rfl fun i hi => congrArg (· ^ 2) (hone i hi)]
    exact spread_const (c 0) x

/-- The mean of the squared deviations is `V/X^2` (R225). -/
theorem variance_eq (hx : 0 < x) (c : Nat → Int) :
    1 / (x : ℝ) * ∑ i ∈ Finset.range x, ((c i : ℝ) - ((∑ j ∈ Finset.range x, c j : Int) : ℝ) / x) ^ 2 =
      (spread x (∑ i ∈ Finset.range x, c i) (∑ i ∈ Finset.range x, c i ^ 2) : ℝ) / (x : ℝ) ^ 2 := by
  have hx' : (x : ℝ) ≠ 0 := by positivity
  have hdev : ∀ i, ((c i : ℝ) - ((∑ j ∈ Finset.range x, c j : Int) : ℝ) / x) ^ 2 =
      ((x * c i - ∑ j ∈ Finset.range x, c j : Int) : ℝ) ^ 2 / (x : ℝ) ^ 2 := fun i => by
    push_cast
    field_simp
  have hsum := congrArg (Int.cast : Int → ℝ) (mul_spread_eq_sum_sq c x)
  rw [Int.cast_mul, Int.cast_natCast, Int.cast_sum] at hsum
  simp only [hdev, ← Finset.sum_div, ← Int.cast_pow, ← hsum]
  field_simp

/-- Settles O31: the deviations' squares sum to `X*V` by `mul_spread_eq_sum_sq`, so the claims about the variance and about `V = 0`
are claims about that sum. -/
theorem spreadIsThePopulationVariance : Obligations.SpreadIsThePopulationVariance := by
  intro c x hx s1 s2 mean var
  have hx' : (x : ℝ) ≠ 0 := by positivity
  have hvar : var = (spread x s1 s2 : ℝ) / (x : ℝ) ^ 2 := variance_eq hx c
  refine ⟨rfl, ?_, hvar, ?_, spread_nonneg hx c, spread_eq_zero_iff hx c⟩
  · change _ = (s2 : ℝ) / x - ((s1 : ℝ) / x) ^ 2
    rw [hvar, spread]
    push_cast
    field_simp
  · rw [hvar, Real.sqrt_div' _ (by positivity), Real.sqrt_sq (by positivity)]

/-- A nonzero value has a positive `Q`. -/
theorem levelQ_pos {v : Int} (hv : v ≠ 0) (hx : 0 < x) : 0 < levelQ v x := by
  rw [levelQ_eq]
  positivity

/-- Settles O33: with `V = 0`, `K` is 0, which `Q` exceeds for every nonzero value and is never below. -/
theorem constantChannelLevels : Obligations.ConstantChannelLevels := by
  intro v c x hx
  have hk : levelK 0 = 0 := mul_zero _
  refine ⟨spread_const c x, ?_⟩
  rcases lt_or_ge v 0 with h | h
  · rw [level_of_neg h, hk, if_pos (levelQ_pos h.ne hx), if_pos h]
  · have hq : ¬ levelQ v x < 0 := by
      rw [levelQ_eq]
      exact not_lt.2 (sq_nonneg _)
    rw [level_of_nonneg h, hk, if_neg hq, if_neg h.not_gt]

end Sys2Proof.Machine
end

section
/-! PROOFS. The channels of a requantize are independent (`45_requant.md` R231). -/

namespace Sys2Proof.Machine

variable {f g : Nat → Byte} {n len k : Nat}

/-- The real sums of pass 1 read real components only (R223). -/
theorem pass1_re_congr (h : ∀ i < n, f (2 * i) = g (2 * i)) :
    (pass1 f n).s1Re = (pass1 g n).s1Re ∧ (pass1 f n).s2Re = (pass1 g n).s2Re :=
  ⟨sumUpTo_congr fun i hi => by rw [h i hi], sumUpTo_congr fun i hi => by rw [h i hi]⟩

/-- The imaginary sums of pass 1 read imaginary components only (R223). -/
theorem pass1_im_congr (h : ∀ i < n, f (2 * i + 1) = g (2 * i + 1)) :
    (pass1 f n).s1Im = (pass1 g n).s1Im ∧ (pass1 f n).s2Im = (pass1 g n).s2Im :=
  ⟨sumUpTo_congr fun i hi => by rw [h i hi], sumUpTo_congr fun i hi => by rw [h i hi]⟩

/-- The four fields of a requantized byte are its levels, most significant first (R227). -/
theorem quantByte_slices (x : Nat) (vRe vIm : Int) (r₁ i₁ r₂ i₂ : Byte) :
    let v := (quantByte x vRe vIm r₁ i₁ r₂ i₂).toNat
    slice v 7 6 = level (toS8 r₁) x vRe ∧ slice v 5 4 = level (toS8 i₁) x vIm ∧
      slice v 3 2 = level (toS8 r₂) x vRe ∧ slice v 1 0 = level (toS8 i₂) x vIm := by
  have hr₁ := level_lt (toS8 r₁) x vRe
  have hi₁ := level_lt (toS8 i₁) x vIm
  have hr₂ := level_lt (toS8 r₂) x vRe
  have hi₂ := level_lt (toS8 i₂) x vIm
  simp only [quantByte_toNat, slice]
  omega

/-- Each field of a requantized byte of a source is the level of its component, with the `V` of the component's channel. -/
theorem requantizedAt_slices (src : Nat → Byte) (len k : Nat) :
    let x := complexCount len
    let a := pass1 src x
    let v := (requantizedAt src len k).toNat
    slice v 7 6 = level (toS8 (src (4 * k))) x (spread x a.s1Re a.s2Re) ∧
      slice v 5 4 = level (toS8 (src (4 * k + 1))) x (spread x a.s1Im a.s2Im) ∧
      slice v 3 2 = level (toS8 (src (4 * k + 2))) x (spread x a.s1Re a.s2Re) ∧
      slice v 1 0 = level (toS8 (src (4 * k + 3))) x (spread x a.s1Im a.s2Im) :=
  quantByte_slices ..

/-- Settles O35: a field of the byte is the level of a component of its channel, whose `V` reads that channel only. -/
theorem channelsAreIndependent : Obligations.ChannelsAreIndependent := by
  intro f g len k hk
  obtain ⟨fr₁, fi₁, fr₂, fi₂⟩ := requantizedAt_slices f len k
  obtain ⟨gr₁, gi₁, gr₂, gi₂⟩ := requantizedAt_slices g len k
  refine ⟨fun h => ?_, fun h => ?_⟩
  · obtain ⟨hs1, hs2⟩ := pass1_re_congr h
    have h₁ : f (4 * k) = g (4 * k) := by
      rw [show 4 * k = 2 * (2 * k) by omega, h _ (by omega)]
    have h₂ : f (4 * k + 2) = g (4 * k + 2) := by
      rw [show 4 * k + 2 = 2 * (2 * k + 1) by omega, h _ (by omega)]
    rw [fr₁, gr₁, fr₂, gr₂, complexCount, hs1, hs2, h₁, h₂]
    exact ⟨rfl, rfl⟩
  · obtain ⟨hs1, hs2⟩ := pass1_im_congr h
    have h₁ : f (4 * k + 1) = g (4 * k + 1) := by
      rw [show 4 * k + 1 = 2 * (2 * k) + 1 by omega, h _ (by omega)]
    have h₂ : f (4 * k + 3) = g (4 * k + 3) := by
      rw [show 4 * k + 3 = 2 * (2 * k + 1) + 1 by omega, h _ (by omega)]
    rw [fi₁, gi₁, fi₂, gi₂, complexCount, hs1, hs2, h₁, h₂]
    exact ⟨rfl, rfl⟩

end Sys2Proof.Machine
end

section
/-! PROOFS. Failure completion (`60_exceptions.md` R254) and what an accept sees of the state (R256, R257). -/

namespace Sys2Proof.Machine

variable {s t : State} {w : Word} {i : Instr} {rest : List Input}

/-- A step that takes the host's whole write of `CMD` while the engine waits is the accept of the word (R25, R200). -/
theorem step_cmdWrite (hb : s.status.busy = false) (hin : s.host.inputs = .regWrite 0x00 4 w :: rest) :
    step s = acceptWord w (s.withInputs rest) :=
  (step_cons hin).trans (hostRegWrite_cmd (s := s.withInputs rest) w hb)

/-- The accept of a word that spells no command is failure completion with code 6 (R252 step 1). -/
theorem acceptWord_illegal {d : DecodeError} (hd : decode w = .error d) (s : State) :
    acceptWord w s = .next ((s.beginAccept w).fail .illegalCommand) := by
  rw [acceptWord, hd]
  rfl

/-- The accept of a command that fails validation is failure completion with its error; `CMD` holds the written word (R254). -/
theorem acceptWord_invalid {e : CmdError} (hb : s.status.busy = false) (hd : decode w = .ok i)
    (hv : validate i s = .error e) : acceptWord w s = .next ((s.beginAccept w).fail e) := by
  rw [acceptWord, hd]
  exact encode_of_decode hd ▸ exec_of_error hb hv

/-- Settles O11: both ways to fail lead to `fail` after `beginAccept`, which name every field they set. -/
theorem failureCompletion : Obligations.FailureCompletion := by
  intro w e s rest hb hin hfails
  have hstep : step s = .next (((s.withInputs rest).beginAccept w).fail e) := by
    rw [step_cmdWrite hb hin]
    rcases hfails with ⟨⟨d, hd⟩, rfl⟩ | ⟨i, hd, hv⟩
    · exact acceptWord_illegal hd _
    · exact acceptWord_invalid hb hd ((validate_congr i rfl).trans hv)
  exact ⟨_, hstep, rfl, rfl, rfl, rfl, rfl, rfl, rfl, rfl, rfl, rfl, rfl⟩

/-- An accept sees of the state only what its first lines leave of it (R200, R256). -/
theorem accept_congr (i : Instr) (h : ∀ w, s.beginAccept w = t.beginAccept w) : accept i s = accept i t := by
  have hopnd : s.opnd = t.opnd := congrArg (·.opnd) (h 0)
  have hhost : s.host = t.host := congrArg (·.host) (h 0)
  simp only [accept, validate_congr i hopnd, h, State.backs, hhost]

/-- The first lines of an accept overwrite all that an earlier command's outcome left in the registers (R257). -/
theorem beginAccept_overwrites (hb : s.status.busy = false) (w w' e l : Word) (d r : Bool) :
    State.beginAccept w' { s with cmd := w, status := ⟨false, d, r⟩, errcode := e, outLen := l } = s.beginAccept w' := by
  simp [State.beginAccept, hb]

/-- Settles O12: while the engine waits a meaning is an accept, and `beginAccept` overwrites the five registers. -/
theorem noErrorLatches : Obligations.NoErrorLatches := by
  intro i s w e l d r hb
  rw [exec_idle i hb, exec_idle i rfl]
  exact accept_congr i fun w' => beginAccept_overwrites hb w w' e l d r

end Sys2Proof.Machine
end

section
/-! PROOFS. Validation as the chain of its checks (`60_exceptions.md` R252) and the errors of each command (R255). -/

namespace Sys2Proof.Machine

variable {s : State} {i : Instr} {n o : Nat} {m : Mode} {e : CmdError}

/-! ### The checks in their order -/

/-- The catalog's two checks before a further one: width, then order, then `r` (`40_catalog.md` R126). -/
theorem resolve_bind {α : Type} (n o : Nat) (r : Except CmdError α) :
    ((resolve n o).bind fun _ => r) =
      if ¬ (n = 1 ∨ n = 2 ∨ n = 4) then .error .invalidBitWidth
      else if ¬ (o = 0x62 ∨ o = 0x6C ∨ o = 0x00) then .error .invalidBitOrder
      else r := by
  obtain ⟨hwidth, horder, hok⟩ := catalogResolution n o
  by_cases hn : n = 1 ∨ n = 2 ∨ n = 4
  · rw [if_neg (not_not_intro hn)]
    by_cases ho : o = 0x62 ∨ o = 0x6C ∨ o = 0x00
    · obtain ⟨c, hc, -⟩ := hok hn ho
      rw [if_neg (not_not_intro ho), hc]
      rfl
    · rw [if_pos ho, horder hn (by omega)]
      rfl
  · rw [if_pos hn, hwidth (by omega)]
    rfl

/-- The range check fails on an illegal range or on an overlap (`44_dispatch.md` R203). -/
theorem checkRanges_eq (b : Buffers) :
    checkRanges b =
      if ¬ b.src.legal ∨ ¬ b.dst.legal ∨ b.src.overlaps b.dst then .error .addrFault else .ok b := by
  rw [checkRanges, ← ite_not]
  exact if_congr (by tauto) rfl rfl

/-- An allocating command is checked by the catalog, then for its ranges. -/
theorem checkAllocating_eq_bind (i : Instr) (n o : Nat) (s : State) :
    checkAllocating i n o s = (resolve n o).bind fun _ => checkRanges (s.buffers i) := by
  unfold checkAllocating
  cases resolve n o <;> rfl

/-- A buffered command is checked by the catalog, then for its `DST_LEN`, then for its ranges (`44_dispatch.md` R205). -/
theorem checkBuffered_eq_bind (i : Instr) (n o : Nat) (s : State) :
    checkBuffered i n o s = (resolve n o).bind fun _ =>
      if s.opnd.dstLen.toNat ≠ outLength i s.opnd.srcLen.toNat then .error .sizeMismatch
      else checkRanges (s.buffers i) := by
  unfold checkBuffered
  cases resolve n o <;> rfl

/-- The three allocating commands share their validation. -/
theorem validate_allocating (s : State) (h : i ∈ [Instr.unpackD n o m, .unpackL n o m, .pack n o m]) :
    validate i s = checkAllocating i n o s := by
  simp only [List.mem_cons, List.not_mem_nil, or_false] at h
  rcases h with rfl | rfl | rfl <;> rfl

/-- The three buffered commands share their validation. -/
theorem validate_buffered (s : State) (h : i ∈ [Instr.unpackbD n o m, .unpackbL n o m, .packb n o m]) :
    validate i s = checkBuffered i n o s := by
  simp only [List.mem_cons, List.not_mem_nil, or_false] at h
  rcases h with rfl | rfl | rfl <;> rfl

/-- Settles O15: each group's validation is the catalog's two checks, its own check and the range check, in this order. -/
theorem validationOrder : Obligations.ValidationOrder := by
  intro s n o m
  refine ⟨fun w e hd _ => ⟨_, acceptWord_illegal hd s, rfl⟩, fun i hi => ?_, fun i hi => ?_, ?_⟩
  · rw [validate_allocating s hi, checkAllocating_eq_bind, resolve_bind, checkRanges_eq]
    rfl
  · rw [validate_buffered s hi, checkBuffered_eq_bind, resolve_bind, checkRanges_eq]
    rfl
  · rw [validate, checkRequant, checkRanges_eq]
    rfl

/-! ### Operands that fail each check -/

/-- Eight source bytes from the last address of data memory on, more than there are. -/
def pastTheTop (dstLen : Word) : State := { State.reset with opnd := ⟨0xFFFFFFFF, 8, 0, dstLen⟩ }

/-- The range check rejects a source past the top of data memory (`20_memory.md` R61). -/
theorem checkRanges_pastTheTop (i : Instr) (dstLen : Word) :
    checkRanges ((pastTheTop dstLen).buffers i) = .error .addrFault := by
  have hsrc : ¬ (pastTheTop dstLen).source.legal := (by decide : ¬ 0xFFFFFFFF + 8 ≤ 2 ^ 32)
  rw [checkRanges_eq, if_pos (.inl hsrc)]

/-- A byte has at most eight samples (R202). -/
theorem outLength_le (i : Instr) (len : Nat) : outLength i len ≤ len * 8 := by
  cases i with
  | requant => exact (Nat.div_le_self len 4).trans (Nat.le_mul_of_pos_right len (by decide))
  | pack | packb => exact (Nat.div_le_self len _).trans (Nat.le_mul_of_pos_right len (by decide))
  | _ => exact Nat.mul_le_mul_left len (Nat.div_le_self 8 _)

/-- Each check of an allocating command fails for some operands: the widths and orders 0 and 1, a source past the top. -/
theorem checkAllocating_reports (f : Nat → Nat → Instr) (he : e ∈ [CmdError.invalidBitWidth, .invalidBitOrder, .addrFault]) :
    ∃ n o s, checkAllocating (f n o) n o s = .error e := by
  simp only [List.mem_cons, List.not_mem_nil, or_false] at he
  rcases he with rfl | rfl | rfl
  · exact ⟨0, 0, State.reset, rfl⟩
  · exact ⟨1, 1, State.reset, rfl⟩
  · exact ⟨1, 0, pastTheTop 0, checkRanges_pastTheTop (f 1 0) 0⟩

/-- Each check of a buffered command fails for some operands; to reach the range check `DST_LEN` is the output length. -/
theorem checkBuffered_reports (f : Nat → Nat → Instr)
    (he : e ∈ [CmdError.invalidBitWidth, .invalidBitOrder, .sizeMismatch, .addrFault]) :
    ∃ n o s, checkBuffered (f n o) n o s = .error e := by
  simp only [List.mem_cons, List.not_mem_nil, or_false] at he
  rcases he with rfl | rfl | rfl | rfl
  · exact ⟨0, 0, State.reset, rfl⟩
  · exact ⟨1, 1, State.reset, rfl⟩
  · have hne : (1 : Nat) ≠ outLength (f 1 0) 0 := by simp
    exact ⟨1, 0, { State.reset with opnd := ⟨0, 0, 0, 1⟩ }, if_pos hne⟩
  · have hfits : (BitVec.ofNat 32 (outLength (f 1 0) 8)).toNat = outLength (f 1 0) 8 := by
      have := outLength_le (f 1 0) 8
      rw [BitVec.toNat_ofNat, Nat.mod_eq_of_lt (by omega)]
    exact ⟨1, 0, pastTheTop (BitVec.ofNat 32 (outLength (f 1 0) 8)),
      (if_neg (not_not_intro hfits)).trans (checkRanges_pastTheTop (f 1 0) _)⟩

/-- Both checks of `REQUANT` fail for some operands (`45_requant.md` R221). -/
theorem checkRequant_reports (he : e ∈ [CmdError.invalidLength, .addrFault]) : ∃ s, checkRequant s = .error e := by
  rcases List.mem_pair.1 he with rfl | rfl
  · exact ⟨State.reset, rfl⟩
  · exact ⟨pastTheTop 0, checkRanges_pastTheTop .requant 0⟩

/-! ### Which commands report which errors -/

/-- Settles O16: the errors in each group's chain of checks are the listed ones, and each check fails for some operands. -/
theorem errorsOfEachCommand : Obligations.ErrorsOfEachCommand := by
  refine ⟨fun n o m s e i hi h => ?_, fun n o m s e i hi h => ?_, fun s e h => ?_, fun m f hf e he => ?_,
    fun m f hf e he => ?_, fun e => checkRequant_reports, fun w d s hd _ => ⟨_, acceptWord_illegal hd s, rfl⟩,
    ⟨0, .badOperation, by decide⟩⟩
  · obtain ⟨-, hchain, -, -⟩ := validationOrder s n o m
    rw [hchain i hi] at h
    split_ifs at h <;> cases h <;> decide
  · obtain ⟨-, -, hchain, -⟩ := validationOrder s n o m
    rw [hchain i hi] at h
    split_ifs at h <;> cases h <;> decide
  · obtain ⟨-, -, -, hchain⟩ := validationOrder s 0 0 .seq
    rw [hchain] at h
    split_ifs at h <;> cases h <;> decide
  · obtain ⟨n, o, s, h⟩ := checkAllocating_reports (fun n o => f n o m) he
    exact ⟨n, o, s, (validate_allocating s (List.mem_map_of_mem (f := fun g => g n o m) hf)).trans h⟩
  · obtain ⟨n, o, s, h⟩ := checkBuffered_reports (fun n o => f n o m) he
    exact ⟨n, o, s, (validate_buffered s (List.mem_map_of_mem (f := fun g => g n o m) hf)).trans h⟩

end Sys2Proof.Machine
end

section
/-! PROOFS. Every way a step stops, with its event and ground (`93_implementation_defined.md` U4, U6, U8; `20_memory.md` R60). -/

namespace Sys2Proof.Machine

variable {s t : State} {ev : Input} {r : Out} {i : Instr} {b : Buffers}

/-! ### The engine goes on -/

/-- A step of a last phase always answers (R204, R209). -/
theorem unitOrComplete_answers (mode : Mode) (units outlen : Nat) (f : Nat → State → State) (s : State) :
    ∃ t, unitOrComplete mode units outlen f s = .next t := by
  cases hn : nextUnit mode units s with
  | none => exact ⟨_, unitOrComplete_none hn⟩
  | some p => exact ⟨_, unitOrComplete_some hn⟩

/-- A step of phase `STAT` always answers (R223, R224). -/
theorem statUnitOrEnd_answers (x : Nat) (s : State) : ∃ t, statUnitOrEnd x s = .next t := by
  rcases lt_or_ge s.seq.unit x with hu | hu
  · exact ⟨_, statUnitOrEnd_of_lt hu⟩
  · exact ⟨_, statUnitOrEnd_of_le hu⟩

/-- A running command whose hidden state fits it always has a next engine step (R29, R30). -/
theorem exec_answers_of_fits (hb : s.status.busy = true) (hv : validate i s = .ok b) (hf : s.fits i) :
    ∃ t, exec i s = .next t := by
  by_cases hi : i = .requant
  · subst hi
    unfold State.fits at hf
    rw [if_pos rfl] at hf
    rcases hf with ⟨hp, -⟩ | ⟨hp, -⟩
    · rw [exec, execRequant_stat ⟨hb, hp, hv⟩]
      exact statUnitOrEnd_answers _ s
    · rw [exec, execRequant_quant ⟨hb, hp, hv⟩]
      exact unitOrComplete_answers _ _ _ _ s
  · obtain ⟨n, o, work, view⟩ := codecView_of i hi
    obtain ⟨c, hc⟩ := view.resolves s b hv
    obtain ⟨hp, -⟩ := (fits_codec hi).1 hf
    rw [view.exec_eq, codecStep_busy ⟨hb, hp, hv⟩ hc]
    exact unitOrComplete_answers _ _ _ _ s

/-- From the invariant a turn of the engine always answers: it waits, or the running command goes on (R288). -/
theorem State.Inv.engineTurn_answers (h : s.Inv) : ∃ t, engineTurn s = .next t := by
  cases hb : s.status.busy with
  | false => exact ⟨s, engineTurn_idle hb⟩
  | true =>
    obtain ⟨i, b, hd, hv, -, hf⟩ := h.running hb
    rw [engineTurn_busy hb hd]
    exact exec_answers_of_fits hb hv hf

/-! ### The stops of an event -/

/-- The event is a host access to address `a` of data memory. -/
def Input.touches (a : Nat) (ev : Input) : Prop := ev = .memRead a ∨ ∃ v, ev = .memWrite a v

/-- The event is a host access to `bytes` bytes of register space at offset `off`. -/
def Input.accesses (off bytes : Nat) (ev : Input) : Prop := ev = .regRead off bytes ∨ ∃ v, ev = .regWrite off bytes v

/-- The ways an event stops the machine, each with its ground in the state `s`. -/
inductive EventStop (s : State) (ev : Input) : Out → Prop where
  /-- A host access to an address that does not exist (R60, log 12). -/
  | outside (a : Nat) (ha : 2 ^ 32 ≤ a) (hev : ev.touches a) : EventStop s ev (.fault .addressOutside)
  /-- A register access that is not whole and aligned (U6, log 8). -/
  | accessForm (off bytes : Nat) (hw : ¬ wholeAccess off bytes) (hev : ev.accesses off bytes) :
      EventStop s ev (.refused .registerAccessForm)
  /-- A host read of a handed-over destination (U4, log 7). -/
  | readRace (a : Nat) (ha : a < 2 ^ 32) (hu : ¬ s.isUnbacked a) (hr : s.readRaces a) (hev : ev = .memRead a) :
      EventStop s ev (.refused .bufferRace)
  /-- A host write of a handed-over source or destination (U4, log 7). -/
  | writeRace (a : Nat) (v : Byte) (ha : a < 2 ^ 32) (hu : ¬ s.isUnbacked a) (hr : s.writeRaces a)
      (hev : ev = .memWrite a v) : EventStop s ev (.refused .bufferRace)
  /-- A host access to an unbacked address (U8, log 9). -/
  | unbackedAccess (a : Nat) (ha : a < 2 ^ 32) (hu : s.isUnbacked a) (hev : ev.touches a) :
      EventStop s ev (.refused .unbackedAddress)
  /-- The launch of a command over an unbacked range (U8, log 9). -/
  | unbackedLaunch (w : Word) (i : Instr) (b : Buffers) (hb : s.status.busy = false) (hd : decode w = .ok i)
      (hv : validate i s = .ok b) (hback : ¬ (s.backs b.src ∧ s.backs b.dst)) (hev : ev = .regWrite 0x00 4 w) :
      EventStop s ev (.refused .unbackedAddress)

/-- An event with a ground to stop stops so. -/
theorem EventStop.event_eq (h : EventStop s ev r) : event ev s = r := by
  cases h with
  | outside a ha hev => rcases hev with rfl | ⟨v, rfl⟩ <;> exact if_pos ha
  | accessForm off bytes hw hev => rcases hev with rfl | ⟨v, rfl⟩ <;> exact if_neg hw
  | readRace a ha hu hr hev =>
    subst hev
    exact (if_neg ha.not_ge).trans ((if_neg hu).trans (if_pos hr))
  | writeRace a v ha hu hr hev =>
    subst hev
    exact (if_neg ha.not_ge).trans ((if_neg hu).trans (if_pos hr))
  | unbackedAccess a ha hu hev =>
    rcases hev with rfl | ⟨v, rfl⟩ <;> exact (if_neg ha.not_ge).trans (if_pos hu)
  | unbackedLaunch w i b hb hd hv hback hev =>
    subst hev
    calc hostRegWrite 0x00 4 w s = acceptWord w s := hostRegWrite_cmd w hb
      _ = exec i s := by rw [acceptWord, hd]
      _ = accept i s := exec_idle i hb
      _ = .refused .unbackedAddress := accept_unbacked hv hback

/-- The grounds do not look at the events to come. -/
theorem EventStop.withInputs (l : List Input) (h : EventStop s ev r) : EventStop (s.withInputs l) ev r := by
  cases h with
  | outside a ha hev => exact .outside a ha hev
  | accessForm off bytes hw hev => exact .accessForm off bytes hw hev
  | readRace a ha hu hr hev => exact .readRace a ha hu hr hev
  | writeRace a v ha hu hr hev => exact .writeRace a v ha hu hr hev
  | unbackedAccess a ha hu hev => exact .unbackedAccess a ha hu hev
  | unbackedLaunch w i b hb hd hv hback hev =>
    exact .unbackedLaunch w i b hb hd ((validate_congr i rfl).trans hv) hback hev

/-- A host write of `CMD` while the engine waits answers, unless it launches over an unbacked range (R200, U8). -/
theorem cmdWrite_answers_or_stops (w : Word) (hb : s.status.busy = false) :
    (∃ t, acceptWord w s = .next t) ∨ ∃ r, EventStop s (.regWrite 0x00 4 w) r := by
  cases hd : decode w with
  | error d => exact .inl ⟨_, acceptWord_illegal hd s⟩
  | ok i =>
    cases hv : validate i s with
    | error e => exact .inl ⟨_, acceptWord_invalid hb hd hv⟩
    | ok b =>
      by_cases hback : s.backs b.src ∧ s.backs b.dst
      · rw [acceptWord, hd]
        exact .inl ⟨_, (exec_idle i hb).trans (accept_ok hv hback)⟩
      · exact .inr ⟨_, .unbackedLaunch w i b hb hd hv hback rfl⟩

/-- A register write answers, unless it is not whole and aligned or it launches over an unbacked range (R29). -/
theorem regWrite_answers_or_stops (off bytes : Nat) (v : Word) (s : State) :
    (∃ t, hostRegWrite off bytes v s = .next t) ∨ ∃ r, EventStop s (.regWrite off bytes v) r := by
  by_cases hw : wholeAccess off bytes
  · obtain ⟨rfl, ho⟩ := hw
    cases hb : s.status.busy with
    | true => exact .inl ⟨s, hostRegWrite_busy v ho hb⟩
    | false =>
      by_cases hcmd : off = 0x00
      · subst hcmd
        exact hostRegWrite_cmd v hb ▸ cmdWrite_answers_or_stops v hb
      · exact .inl ⟨s.writeOperand off v, by simp [hostRegWrite, ho, hb, hcmd]⟩
  · exact .inr ⟨_, .accessForm off bytes hw (.inr ⟨v, rfl⟩)⟩

/-- A memory read answers at a backed address of no handed-over destination, and stops at every other (R60). -/
theorem memRead_answers_or_stops (a : Nat) (s : State) :
    (∃ t, hostMemRead a s = .next t) ∨ ∃ r, EventStop s (.memRead a) r := by
  rcases Nat.lt_or_ge a (2 ^ 32) with ha | ha
  · by_cases hu : s.isUnbacked a
    · exact .inr ⟨_, .unbackedAccess a ha hu (.inl rfl)⟩
    · by_cases hr : s.readRaces a
      · exact .inr ⟨_, .readRace a ha hu hr rfl⟩
      · exact .inl ⟨_, (if_neg ha.not_ge).trans ((if_neg hu).trans (if_neg hr))⟩
  · exact .inr ⟨_, .outside a ha (.inl rfl)⟩

/-- A memory write answers at a backed address of no handed-over buffer, and stops at every other (R60). -/
theorem memWrite_answers_or_stops (a : Nat) (v : Byte) (s : State) :
    (∃ t, hostMemWrite a v s = .next t) ∨ ∃ r, EventStop s (.memWrite a v) r := by
  rcases Nat.lt_or_ge a (2 ^ 32) with ha | ha
  · by_cases hu : s.isUnbacked a
    · exact .inr ⟨_, .unbackedAccess a ha hu (.inr ⟨v, rfl⟩)⟩
    · by_cases hr : s.writeRaces a
      · exact .inr ⟨_, .writeRace a v ha hu hr rfl⟩
      · exact .inl ⟨_, (if_neg ha.not_ge).trans ((if_neg hu).trans (if_neg hr))⟩
  · exact .inr ⟨_, .outside a ha (.inr ⟨v, rfl⟩)⟩

/-- From the invariant an event answers a next state, or it has one of the grounds to stop. -/
theorem State.Inv.event_answers_or_stops (h : s.Inv) (ev : Input) :
    (∃ t, event ev s = .next t) ∨ ∃ r, EventStop s ev r := by
  cases ev with
  | regRead off bytes =>
    by_cases hw : wholeAccess off bytes
    · exact .inl ⟨_, if_pos hw⟩
    · exact .inr ⟨_, .accessForm off bytes hw (.inl rfl)⟩
  | regWrite off bytes v => exact regWrite_answers_or_stops off bytes v s
  | poll => exact .inl ⟨_, hostPoll_eq s⟩
  | memRead a => exact memRead_answers_or_stops a s
  | memWrite a v => exact memWrite_answers_or_stops a v s
  | engine => exact .inl h.engineTurn_answers
  | reset => exact .inl ⟨_, rfl⟩

/-! ### The stops of a step -/

/-- From the invariant a step answers a next state, or its event has one of the grounds to stop. -/
theorem State.Inv.step_answers_or_stops (h : s.Inv) :
    (∃ t, step s = .next t) ∨ ∃ ev, s.host.inputs.head? = some ev ∧ EventStop s ev (step s) := by
  cases hin : s.host.inputs with
  | nil => exact .inl (step_nil hin ▸ h.engineTurn_answers)
  | cons ev rest =>
    rw [step_cons hin]
    refine ((h.withInputs rest).event_answers_or_stops ev).imp_right fun ⟨r, hstop⟩ => ⟨ev, rfl, ?_⟩
    rw [hstop.event_eq]
    exact hstop.withInputs s.host.inputs

/-- From the invariant a step stops exactly when its event has the ground to stop so. -/
theorem State.Inv.step_stop_iff (h : s.Inv) (hr : ∀ t, r ≠ .next t) :
    step s = r ↔ ∃ ev, s.host.inputs.head? = some ev ∧ EventStop s ev r := by
  constructor
  · rintro rfl
    exact h.step_answers_or_stops.resolve_left fun ⟨t, ht⟩ => hr t ht
  · rintro ⟨ev, hev, hstop⟩
    obtain ⟨rest, hin⟩ := List.head?_eq_some_iff.1 hev
    exact (step_cons hin).trans (hstop.withInputs rest).event_eq

/-- A turn of the engine, a poll and reset have no ground to stop. -/
theorem EventStop.event_ne (h : EventStop s ev r) : ev ≠ .engine ∧ ev ≠ .poll ∧ ev ≠ .reset := by
  cases h with
  | outside a ha hev => rcases hev with rfl | ⟨v, rfl⟩ <;> simp
  | accessForm off bytes hw hev => rcases hev with rfl | ⟨v, rfl⟩ <;> simp
  | unbackedAccess a ha hu hev => rcases hev with rfl | ⟨v, rfl⟩ <;> simp
  | readRace a ha hu hr hev => simp [hev]
  | writeRace a v ha hu hr hev => simp [hev]
  | unbackedLaunch w i b hb hd hv hback hev => simp [hev]

/-- That the pending event is `x` or one of the `f v` (a read, or a write of any value) says so of the head of the list. -/
theorem exists_pending_iff {α : Type} {o : Option Input} {x : Input} {f : α → Input} :
    (∃ ev, o = some ev ∧ (ev = x ∨ ∃ v, ev = f v)) ↔ o = some x ∨ ∃ v, o = some (f v) := by
  constructor
  · rintro ⟨ev, hev, rfl | ⟨v, rfl⟩⟩
    · exact .inl hev
    · exact .inr ⟨v, hev⟩
  · rintro (hev | ⟨v, hev⟩)
    · exact ⟨_, hev, .inl rfl⟩
    · exact ⟨_, hev, .inr ⟨v, rfl⟩⟩

/-- From the invariant the one fault is a host access to an address that does not exist (log 12). -/
theorem State.Inv.step_fault_iff (h : s.Inv) (f : Fault) :
    step s = .fault f ↔
      f = .addressOutside ∧ ∃ a, 2 ^ 32 ≤ a ∧ ∃ ev, s.host.inputs.head? = some ev ∧ ev.touches a := by
  rw [h.step_stop_iff (by simp)]
  constructor
  · rintro ⟨ev, hev, hstop⟩
    cases hstop with
    | outside a ha ht => exact ⟨rfl, a, ha, ev, hev, ht⟩
  · rintro ⟨rfl, a, ha, ev, hev, ht⟩
    exact ⟨ev, hev, .outside a ha ht⟩

/-- From the invariant a step is refused for its form exactly at a register access that is not whole and aligned (U6, log 8). -/
theorem State.Inv.step_accessForm_iff (h : s.Inv) :
    step s = .refused .registerAccessForm ↔
      ∃ off bytes, ¬ wholeAccess off bytes ∧ ∃ ev, s.host.inputs.head? = some ev ∧ ev.accesses off bytes := by
  rw [h.step_stop_iff (by simp)]
  constructor
  · rintro ⟨ev, hev, hstop⟩
    cases hstop with
    | accessForm off bytes hw ht => exact ⟨off, bytes, hw, ev, hev, ht⟩
  · rintro ⟨off, bytes, hw, ev, hev, ht⟩
    exact ⟨ev, hev, .accessForm off bytes hw ht⟩

/-- From the invariant a step is refused as a race exactly at a host access that breaks the buffer hazard (U4, log 7). -/
theorem State.Inv.step_bufferRace_iff (h : s.Inv) :
    step s = .refused .bufferRace ↔
      ∃ a < 2 ^ 32, ¬ s.isUnbacked a ∧
        ((s.host.inputs.head? = some (.memRead a) ∧ s.readRaces a) ∨
          ∃ v, s.host.inputs.head? = some (.memWrite a v) ∧ s.writeRaces a) := by
  rw [h.step_stop_iff (by simp)]
  constructor
  · rintro ⟨ev, hev, hstop⟩
    cases hstop with
    | readRace a ha hu hr he => exact ⟨a, ha, hu, .inl ⟨he ▸ hev, hr⟩⟩
    | writeRace a v ha hu hr he => exact ⟨a, ha, hu, .inr ⟨v, he ▸ hev, hr⟩⟩
  · rintro ⟨a, ha, hu, ⟨hev, hr⟩ | ⟨v, hev, hr⟩⟩
    · exact ⟨_, hev, .readRace a ha hu hr rfl⟩
    · exact ⟨_, hev, .writeRace a v ha hu hr rfl⟩

/-- From the invariant a step is refused as unbacked exactly at a host access to an unbacked address and at a launch over an
unbacked range (U8, log 9). -/
theorem State.Inv.step_unbacked_iff (h : s.Inv) :
    step s = .refused .unbackedAddress ↔
      (∃ a < 2 ^ 32, s.isUnbacked a ∧ ∃ ev, s.host.inputs.head? = some ev ∧ ev.touches a) ∨
        (s.status.busy = false ∧ ∃ w i b, s.host.inputs.head? = some (.regWrite 0x00 4 w) ∧ decode w = .ok i ∧
          validate i s = .ok b ∧ ¬ (s.backs b.src ∧ s.backs b.dst)) := by
  rw [h.step_stop_iff (by simp)]
  constructor
  · rintro ⟨ev, hev, hstop⟩
    cases hstop with
    | unbackedAccess a ha hu ht => exact .inl ⟨a, ha, hu, ev, hev, ht⟩
    | unbackedLaunch w i b hb hd hv hback he => exact .inr ⟨hb, w, i, b, he ▸ hev, hd, hv, hback⟩
  · rintro (⟨a, ha, hu, ev, hev, ht⟩ | ⟨hb, w, i, b, hev, hd, hv, hback⟩)
    · exact ⟨ev, hev, .unbackedAccess a ha hu ht⟩
    · exact ⟨_, hev, .unbackedLaunch w i b hb hd hv hback rfl⟩

/-- Settles O52: a step stops exactly on a ground of `EventStop`; no ground is the engine's, and none is a missing meaning. -/
theorem stepsStopOnlyForTheHost : Obligations.StepsStopOnlyForTheHost := by
  intro s h
  refine ⟨fun f => ?_, ?_, h.step_bufferRace_iff, ?_, fun name he => ?_, fun hev => ?_⟩
  · simpa only [Input.touches, exists_pending_iff] using h.step_fault_iff f
  · simpa only [Input.accesses, exists_pending_iff] using h.step_accessForm_iff
  · simpa only [Input.touches, exists_pending_iff, not_backs_iff] using h.step_unbacked_iff
  · obtain ⟨ev, -, hstop⟩ := (h.step_stop_iff (by simp)).1 he
    cases hstop
  · refine h.step_answers_or_stops.resolve_right fun ⟨ev, hhead, hstop⟩ => ?_
    obtain ⟨hengine, hpoll, hreset⟩ := hstop.event_ne
    simp [hhead, hengine, hpoll, hreset] at hev

end Sys2Proof.Machine
end

section
/-! PROOFS. How long a launched command runs (`70_reset_and_hazards.md` R288): where it stands after each number of its engine
steps, and that only the step after the last of them completes it. -/

namespace Sys2Proof.Machine

variable {s : State} {i : Instr} {b : Buffers} {f : Nat → State → State} {w k n : Nat} {out : Nat → Byte}

/-- The launch of a pack or unpack command starts the run that writes the bytes of its rule. -/
theorem State.launches.starts (hl : s.launches i b) (hi : i ≠ .requant) (hin : s.host.inputs = []) :
    ∃ f w out, ((s.beginAccept (encode i)).launch i b).starts i b f w out := by
  have hv : validate i s = .ok b := hl.2.1
  cases i with
  | unpackD n o m =>
    obtain ⟨c, hc⟩ := checkAllocating_resolves hv
    exact ⟨_, _, _, unpackView_unpackD.starts hc hl hin⟩
  | unpackL n o m =>
    obtain ⟨c, hc⟩ := checkAllocating_resolves hv
    exact ⟨_, _, _, unpackView_unpackL.starts hc hl hin⟩
  | unpackbD n o m =>
    obtain ⟨c, hc⟩ := checkBuffered_resolves hv
    exact ⟨_, _, _, unpackView_unpackbD.starts hc hl hin⟩
  | unpackbL n o m =>
    obtain ⟨c, hc⟩ := checkBuffered_resolves hv
    exact ⟨_, _, _, unpackView_unpackbL.starts hc hl hin⟩
  | pack n o m =>
    obtain ⟨c, hc⟩ := checkAllocating_resolves hv
    exact ⟨_, _, _, packView_pack.starts hc hl hin⟩
  | packb n o m =>
    obtain ⟨c, hc⟩ := checkBuffered_resolves hv
    exact ⟨_, _, _, packView_packb.starts hc hl hin⟩
  | requant => exact absurd rfl hi

/-- A started run has the status of its start until all its units are performed, and success one step later (R206 to R209). -/
theorem State.starts.status_after (h : s.starts i b f w out) (hk : k ≤ unitCount i s.opnd.srcLen.toNat + 1) :
    ∃ t, runSteps k s = .next t ∧
      t.status = if k = unitCount i s.opnd.srcLen.toNat + 1 then ⟨false, true, false⟩ else s.status := by
  rcases Nat.lt_or_eq_of_le hk with hlt | rfl
  · obtain ⟨t, hrun, ht, -⟩ := h.run (Nat.le_of_lt_succ hlt)
    exact ⟨t, hrun, by rw [if_neg hlt.ne, ht.frame]⟩
  · obtain ⟨t, hrun, ht, -⟩ := h.run_to_completion
    exact ⟨t, hrun, by rw [if_pos rfl, ht, complete_status]⟩

/-! ### The run of a `REQUANT` -/

/-- After as many steps as samples, or fewer, a `REQUANT` has added up so many samples (R223). -/
theorem runSteps_afterSamples (hl : s.launches .requant b) (hin : s.host.inputs = [])
    (hn : n ≤ complexCount s.opnd.srcLen.toNat) : runSteps n (s.afterSamples b 0) = .next (s.afterSamples b n) := by
  have hrun := runSteps_through (f := s.afterSamples b) (j := 0) (k := n) rfl fun m hm =>
    step_afterSamples hl hin (hm.trans_le hn)
  rwa [Nat.zero_add] at hrun

/-- One step ends pass 1, and each step after it writes one byte of pass 2 (R224, R227). -/
theorem runSteps_afterBytes (hl : s.launches .requant b) (hin : s.host.inputs = [])
    (hn : n ≤ unitCount .requant s.opnd.srcLen.toNat) :
    runSteps (complexCount s.opnd.srcLen.toNat + 1 + n) (s.afterSamples b 0) = .next (s.afterBytes b n) :=
  runSteps_through (f := s.afterBytes b)
    ((runSteps_succ_of_next (runSteps_afterSamples hl hin le_rfl)).trans (step_afterSamples_end hl hin))
    fun _ hm => step_afterBytes hl hin (hm.trans_le hn)

/-- A launched `REQUANT` is running through both passes, and succeeds one step after the last byte of pass 2. -/
theorem requant_status_after (hl : s.launches .requant b) (hin : s.host.inputs = [])
    (hk : k ≤ engineSteps .requant s.opnd.srcLen.toNat) :
    ∃ t, runSteps k (s.afterSamples b 0) = .next t ∧ t.status =
      if k = engineSteps .requant s.opnd.srcLen.toNat then ⟨false, true, false⟩ else ⟨true, false, false⟩ := by
  have hrunning : (s.beginAccept (encode .requant)).status.running = ⟨true, false, false⟩ := rfl
  rw [engineSteps, if_pos rfl] at hk ⊢
  rcases Nat.lt_or_eq_of_le hk with hlt | rfl
  · rw [if_neg hlt.ne]
    rcases le_or_gt k (complexCount s.opnd.srcLen.toNat) with hpass1 | hpass2
    · exact ⟨_, runSteps_afterSamples hl hin hpass1, hrunning⟩
    · obtain ⟨n, rfl⟩ := Nat.exists_eq_add_of_le (Nat.succ_le_of_lt hpass2)
      exact ⟨_, runSteps_afterBytes hl hin (by omega), hrunning⟩
  · refine ⟨_, (runSteps_succ_of_next (runSteps_afterBytes hl hin le_rfl)).trans (step_afterBytes_end hl hin), ?_⟩
    rw [if_pos rfl]
    rfl

/-- Settles O55: a pack or unpack is partway through its run (`State.starts.run`) until every unit is performed, a `REQUANT` is in
one of its two passes, and the step after these is the completion. -/
theorem commandsCompleteInTheirStepCount : Obligations.CommandsCompleteInTheirStepCount := by
  intro i b s hl hin
  have ⟨hb, hv, hbacks⟩ := hl
  refine ⟨_, (exec_idle i hb).trans (accept_ok hv hbacks), fun k hk => ?_⟩
  by_cases hi : i = .requant
  · subst hi
    exact requant_status_after hl hin hk
  · obtain ⟨f, w, out, hstart⟩ := hl.starts hi hin
    rw [engineSteps, if_neg hi] at hk ⊢
    exact hstart.status_after hk

end Sys2Proof.Machine
end

section
/-! PROOFS. The hazard of a handed-over buffer (`70_reset_and_hazards.md` R285): which host accesses it refuses and what the
others do, and the events that hand a buffer back. -/

namespace Sys2Proof.Machine

variable {s t : State} {ev : Input} {i : Instr} {b : Buffers} {a : Nat}

/-! ### Host accesses to data memory -/

/-- At a backed address a host write is refused when it races, and else writes the byte (R60, R285). -/
theorem hostMemWrite_of_backed (v : Byte) (ha : a < 2 ^ 32) (hu : ¬ s.isUnbacked a) :
    hostMemWrite a v s =
      if s.writeRaces a then .refused .bufferRace else .next { s with mem := s.mem.write a v } :=
  (if_neg ha.not_ge).trans (if_neg hu)

/-- At a backed address a host read is refused when it races, and else answers the byte (R60, R285). -/
theorem hostMemRead_of_backed (ha : a < 2 ^ 32) (hu : ¬ s.isUnbacked a) :
    hostMemRead a s =
      if s.readRaces a then .refused .bufferRace else .next (s.reply (.mem (s.mem.read a))) :=
  (if_neg ha.not_ge).trans (if_neg hu)

/-- An outcome that is a refusal under a condition, and else a next state, is that refusal exactly under the condition. -/
theorem ite_refused_eq_iff {p : Prop} [Decidable p] {r : Refusal} :
    (if p then .refused r else .next t : Out) = .refused r ↔ p := by
  by_cases hp : p <;> simp [hp]

/-- A byte write changes no other byte (R62). -/
theorem sameOutside_write (m : Memory) (a : Nat) (v : Byte) : sameOutside a 1 m (m.write a v) :=
  fun x hx => read_write_other m v (by omega)

/-- Settles O42: an access to an existing and backed address is refused exactly for the race, since nothing else is left to
refuse it. -/
theorem bufferHazard : Obligations.BufferHazard := by
  intro s a v rest ha hu
  constructor
  · intro hin
    have hstep := (step_cons hin).trans (hostMemWrite_of_backed (s := s.withInputs rest) v ha hu)
    exact ⟨hstep ▸ ite_refused_eq_iff, fun hr =>
      ⟨_, hstep.trans (if_neg hr), rfl, read_write_same s.mem a v, sameOutside_write s.mem a v⟩⟩
  · intro hin
    have hstep := (step_cons hin).trans (hostMemRead_of_backed (s := s.withInputs rest) ha hu)
    exact ⟨hstep ▸ ite_refused_eq_iff, fun hr => hstep.trans (if_neg hr)⟩

/-! ### The record of handed-over buffers -/

/-- An accept hands nothing back: a failure leaves the record alone and a launch adds to it (R200, R254). -/
theorem accept_keeps_handed (h : accept i s = .next t) : s.host.handed ⊆ t.host.handed := by
  rcases accept_cases h with ⟨e, -, rfl⟩ | ⟨b, -, -, -, rfl⟩
  · exact List.Subset.refl _
  · exact List.subset_cons_self _ _

/-- A register write hands nothing back (R29). -/
theorem hostRegWrite_keeps_handed {off bytes : Nat} {v : Word} (h : hostRegWrite off bytes v s = .next t) :
    s.host.handed ⊆ t.host.handed := by
  rcases hostRegWrite_cases h with ⟨-, rfl⟩ | ⟨hb, -, h⟩ | ⟨-, -, rfl⟩
  · exact List.Subset.refl _
  · rcases acceptWord_cases hb h with ⟨i, -, h⟩ | ⟨e, -, rfl⟩
    · exact accept_keeps_handed h
    · exact List.Subset.refl _
  · rw [writeOperand_host]
    exact List.Subset.refl _

/-- A turn of the engine hands nothing back. -/
theorem engineTurn_keeps_handed (h : engineTurn s = .next t) : s.host.handed ⊆ t.host.handed := by
  rcases engineTurn_cases h with ⟨-, rfl⟩ | ⟨-, i, b, -, hmove⟩
  · exact List.Subset.refl _
  · obtain ⟨-, -, -, hhost⟩ := engineMove_frame hmove
    rw [hhost]
    exact List.Subset.refl _

/-- An event is one that hands buffers back, or it leaves every buffer in the record (R285). -/
theorem event_hands_back_or_keeps (h : event ev s = .next t) :
    (ev = .reset ∨ s.status.done = true ∧ (ev = .regRead 0x04 4 ∨ ev = .poll)) ∨ s.host.handed ⊆ t.host.handed := by
  cases ev with
  | regRead off bytes =>
    obtain ⟨⟨rfl, -⟩, rfl⟩ := hostRegRead_cases h
    by_cases hback : off = 0x04 ∧ s.status.done = true
    · obtain ⟨rfl, hd⟩ := hback
      exact .inl (.inr ⟨hd, .inl rfl⟩)
    · rw [State.handBack, reply_status, if_neg hback]
      exact .inr (List.Subset.refl _)
  | regWrite off bytes v => exact .inr (hostRegWrite_keeps_handed h)
  | poll =>
    cases hd : s.status.done with
    | true => exact .inl (.inr ⟨rfl, .inr rfl⟩)
    | false =>
      cases (hostPoll_eq s).symm.trans h
      simp [hd]
  | memRead a =>
    obtain ⟨-, -, -, rfl⟩ := hostMemRead_cases h
    exact .inr (List.Subset.refl _)
  | memWrite a v =>
    obtain ⟨-, -, -, rfl⟩ := hostMemWrite_cases h
    exact .inr (List.Subset.refl _)
  | engine => exact .inr (engineTurn_keeps_handed h)
  | reset => exact .inl (.inl rfl)

/-- Settles O43: the engine's turn hands nothing back, so the step took an event, and it is one that hands buffers back. -/
theorem buffersAreHandedBackByAReadOfDone : Obligations.BuffersAreHandedBackByAReadOfDone := by
  intro s t b h hb hn
  cases hin : s.host.inputs with
  | nil =>
    rw [step_nil hin] at h
    exact absurd (engineTurn_keeps_handed h hb) hn
  | cons ev rest =>
    rw [step_cons hin] at h
    simpa using (event_hands_back_or_keeps h).resolve_right fun hkeeps => hn (hkeeps hb)

end Sys2Proof.Machine
end

section
/-! PROOFS. The two commands of R282 straight after reset, over operand registers that are all 0. -/

namespace Sys2Proof.Machine

/-- Both ranges of a pack or unpack straight after reset are empty, so it launches (R282). -/
theorem reset_launches_unpackD : State.reset.launches (.unpackD 1 0x62 .seq) ⟨⟨0, 0⟩, ⟨0, 0⟩⟩ :=
  ⟨rfl, rfl, by decide, by decide⟩

/-- The length of a `REQUANT` straight after reset is 0, which R221 excludes (R282). -/
theorem reset_requant_invalidLength : validate .requant State.reset = .error .invalidLength := rfl

/-- Settles O47: the unpack launches over empty ranges and its whole run (`UnpackView.whole`) is the completion step; the
`REQUANT` fails at its accept. -/
theorem commandsStraightAfterReset : Obligations.CommandsStraightAfterReset := by
  constructor
  · obtain ⟨t₀, t, haccept, hrun, ht, -⟩ :=
      unpackView_unpackD.whole (c := ⟨.w1, .big⟩) rfl (by decide) rfl reset_launches_unpackD
    have hstep : step (State.reset.withInputs [.regWrite 0x00 4 0x00620101]) = .next t₀ :=
      (stepAcceptsTheWrittenCommand _ _ _ [] rfl rfl rfl).trans haccept
    refine ⟨t, ?_, ?_⟩
    · rw [runSteps_succ, hstep]
      exact hrun
    · rw [ht]
      exact ⟨rfl, rfl, rfl, rfl⟩
  · obtain ⟨t, hstep, hcode, hstatus, -⟩ := failureCompletion 0x00000005 .invalidLength
      (State.reset.withInputs [.regWrite 0x00 4 0x00000005]) [] rfl rfl (.inr ⟨.requant, rfl, reset_requant_invalidLength⟩)
    exact ⟨t, (runSteps_succ_of_next (k := 0) rfl).trans hstep, hstatus, hcode⟩

end Sys2Proof.Machine
end

section
/-! PROOFS. Decode and encode undo each other (`30_encoding.md` R90 to R99), and the spec's command words. -/

namespace Sys2Proof

/-- Settles O2: each field of the word of a well-formed command holds the operand it was built from. -/
theorem decodeOfEncode : Obligations.DecodeOfEncode := fun _ h => decode_encode_of_wellFormed h

/-- Settles O3: a word that decodes has no reserved bit set, so it is the sum of the fields that its command holds. -/
theorem encodeOfDecode : Obligations.EncodeOfDecode := fun _ _ h => ⟨encode_of_decode h, wellFormed_of_decode h⟩

/-- Settles O1: each word of Part B is the word of the well-formed command it stands for, which decode reads back. -/
theorem specCommandWordsDecode : Obligations.SpecCommandWordsDecode :=
  ⟨decode_encode_of_wellFormed (i := .unpackD 2 0x62 .seq) rfl, decode_encode_of_wellFormed (i := .unpackD 2 0 .seq) rfl,
    decode_encode_of_wellFormed (i := .unpackL 2 0x62 .par) rfl,
    decode_encode_of_wellFormed (i := .unpackL 1 0x6C .par) rfl,
    decode_encode_of_wellFormed (i := .unpackbD 4 0x6C .seq) rfl,
    decode_encode_of_wellFormed (i := .unpackbL 2 0x62 .seq) rfl,
    decode_encode_of_wellFormed (i := .pack 2 0x62 .par) rfl, decode_encode_of_wellFormed (i := .packb 4 0 .seq) rfl,
    decode_encode_of_wellFormed (i := .requant) rfl⟩

end Sys2Proof
end

section
/-! PROOFS. The accept step of R200 (`44_dispatch.md`), field by field. -/

namespace Sys2Proof.Machine

variable {s : State} {i : Instr} {b : Buffers}

/-- The accept of a command that can launch is its launch (R200). -/
theorem exec_of_launches (h : s.launches i b) : exec i s = .next ((s.beginAccept (encode i)).launch i b) := by
  obtain ⟨hb, hv, hbacks⟩ := h
  exact (exec_idle i hb).trans (accept_ok hv hbacks)

/-- The launch of a pack or unpack after the first lines of its accept: phase `RUN`, the accumulators as before (R200). -/
theorem launch_beginAccept_codec (hi : i ≠ .requant) (w : Word) :
    (s.beginAccept w).launch i b = { s with
      cmd := w, status := ⟨true, false, false⟩, errcode := 0, outLen := 0
      seq := ⟨.run, 0, []⟩, host := { s.host with handed := b :: s.host.handed } } := by
  rw [State.launch, if_neg hi, if_neg hi]
  rfl

/-- Settles O9: the accept of a waiting engine is `fail` or `launch` after `beginAccept`, which name every field they set. -/
theorem acceptStep : Obligations.AcceptStep := by
  refine ⟨fun i e s hb hv => exec_of_error hb hv, fun i b s hi h => ?_, fun b s h => exec_of_launches h,
    fun s w rest hb hin => ?_⟩
  · rw [exec_of_launches h, launch_beginAccept_codec hi]
  · exact (step_cons hin).trans (hostRegWrite_busy (s := s.withInputs rest) w rfl hb)

end Sys2Proof.Machine
end

section
/-! PROOFS. One work unit of a pack or unpack (`41_unpack.md` R146, `43_lookup.md` R183, `42_pack.md` R167): which unit the
engine step performs and the bytes it writes. -/

namespace Sys2Proof.Machine

variable {s : State} {i : Instr} {b : Buffers} {n o units outlen : Nat} {m : Mode} {c : Codec}
  {f : Nat → State → State}

/-! ### The engine step while a unit is left -/

/-- While a unit is left, the engine step performs one and records it; work that changes data memory only changes nothing
else (R206, R207). -/
theorem unitOrComplete_of_left (hf : ∀ u t, f u t = { t with mem := (f u t).mem }) (h : s.unitLeft m units) :
    ∃ u g, unitOrComplete m units outlen f s = .next ((f u { s with sched := g }).markDone m u) ∧
      s.recordsUnit m units u ((f u { s with sched := g }).markDone m u) := by
  obtain ⟨u, t, hn⟩ := nextUnit_of_left h
  obtain ⟨hu, ht, hnext⟩ := nextUnit_some hn
  refine ⟨u, t.sched, ht ▸ unitOrComplete_some hn, hu, ?_⟩
  rw [hf]
  cases m with
  | seq =>
    obtain ⟨rfl, rfl⟩ := hnext
    exact ⟨rfl, rfl⟩
  | par => exact ⟨hnext, fun v => mem_insertUnit, rfl⟩

/-- A unit of an unpack writes the samples of its source byte (R146, R183). -/
theorem UnpackView.exec_of_left (v : UnpackView i n o m) (hc : resolve n o = .ok c) (hin : s.inPhase i .run b)
    (h : s.unitLeft m s.opnd.srcLen.toNat) :
    ∃ u t, exec i s = .next t ∧ s.recordsUnit m s.opnd.srcLen.toNat u t ∧
      t.mem = s.mem.writeBytes (s.opnd.dstAddr.toNat + u * c.elements) (unpackByte c (s.srcByte u)) := by
  obtain ⟨u, g, hstep, hrec⟩ := unitOrComplete_of_left (f := unpackUnit c) (outlen := b.dst.len) (fun _ _ => rfl) h
  refine ⟨u, _, ?_, hrec, markDone_mem ..⟩
  rw [v.exec_eq, codecStep_busy hin hc, v.units, hstep]

/-- A unit of a pack writes the byte of its group (R161, R167). -/
theorem PackView.exec_of_left (v : PackView i n o m) (hc : resolve n o = .ok c) (hin : s.inPhase i .run b)
    (h : s.unitLeft m (s.opnd.srcLen.toNat / c.elements)) :
    ∃ u t, exec i s = .next t ∧ s.recordsUnit m (s.opnd.srcLen.toNat / c.elements) u t ∧
      t.mem = s.mem.write (s.opnd.dstAddr.toNat + u)
        (packGroup c (s.mem.readBytes (s.opnd.srcAddr.toNat + u * c.elements) c.elements)) := by
  obtain ⟨-, -, -, hel, -⟩ := resolve_ok hc
  obtain ⟨u, g, hstep, hrec⟩ := unitOrComplete_of_left (f := packUnit c) (outlen := b.dst.len) (fun _ _ => rfl) h
  refine ⟨u, _, ?_, hrec, markDone_mem ..⟩
  rw [v.exec_eq, codecStep_busy hin hc, v.units, ← hel, hstep]

/-! ### The four unpack commands -/

/-- Bytes written change no other byte (R62). -/
theorem sameOutside_writeBytes (m : Memory) (a : Nat) {bs : List Byte} {w : Nat} (hw : bs.length = w) :
    sameOutside a w m (m.writeBytes a bs) :=
  fun _ hx => read_writeBytes_outside m bs (by rwa [hw])

/-- After the samples of a byte are written, the byte at position `p` is the field that position shows (R141). -/
theorem read_writeBytes_unpackByte (m : Memory) (a : Nat) (x : Byte) {p : Nat} (hp : p < c.elements) :
    (m.writeBytes a (unpackByte c x)).read (a + p) = BitVec.ofNat 8 (Codec.field c x (c.fieldAt p)) := by
  have hlen : p < (unpackByte c x).length := by rwa [unpackByte_length]
  rw [read_writeBytes_inside m _ hlen, unpackByte_getElem]

/-- Settles O19: the unit writes the samples of its source byte, and each of these is a slice of it. -/
theorem directUnpackUnit : Obligations.DirectUnpackUnit := by
  intro n o m c b s i hi hc hin h
  have v : UnpackView i n o m := by
    rcases List.mem_pair.1 hi with rfl | rfl
    · exact unpackView_unpackD
    · exact unpackView_unpackbD
  obtain ⟨u, t, hstep, hrec, hmem⟩ := v.exec_of_left hc hin h
  refine ⟨u, t, hstep, hrec, fun p hp => ?_, ?_⟩
  · have hfit := (field_lt c (s.srcByte u) (c.fieldAt p)).trans_le (two_pow_bw_le c)
    rw [hmem, read_writeBytes_unpackByte _ _ _ hp, BitVec.toNat_ofNat, Nat.mod_eq_of_lt hfit, field_eq_slice,
      fieldAt_eq]
    rfl
  · rw [hmem]
    exact sameOutside_writeBytes _ _ (unpackByte_length c _)

/-- Settles O20: the unit writes the samples of its source byte, and these are the entries of the byte's ROM row. -/
theorem lookupUnpackUnit : Obligations.LookupUnpackUnit := by
  intro n o m c b s i hi hc hin h
  have v : UnpackView i n o m := by
    rcases List.mem_pair.1 hi with rfl | rfl
    · exact unpackView_unpackL
    · exact unpackView_unpackbL
  obtain ⟨u, t, hstep, hrec, hmem⟩ := v.exec_of_left hc hin h
  refine ⟨u, t, hstep, hrec, fun p a hp ha => ?_, ?_⟩
  · rw [hmem, read_writeBytes_unpackByte _ _ _ hp, ← tableEntry_eq]
    exact (lutRead_row c _ p a (s.srcByte u).isLt hp (ha.trans (Nat.add_assoc ..))).symm
  · rw [hmem]
    exact sameOutside_writeBytes _ _ (unpackByte_length c _)

/-! ### The two pack commands -/

/-- The bit position of a sample, in the words of R160. -/
theorem shift_eq (c : Codec) (j : Nat) :
    c.shift j = if c.order = .little then j * c.bw else (c.elements - 1 - j) * c.bw := by
  rw [Codec.shift, fieldAt_eq, ite_mul]

/-- The OR of shifted samples, gathered one sample after the other from the left (R161). -/
theorem foldl_or_eq_packFrom (c : Codec) (sample : Nat → Byte) (k j acc : Nat) :
    (List.range' j k).foldl (fun acc p => acc ||| (sample p).toNat <<< c.shift p) acc =
      acc ||| packFrom c j ((List.range' j k).map sample) := by
  induction k generalizing j acc with
  | zero => simp [packFrom]
  | succ k ih => rw [List.range'_succ, List.foldl_cons, ih, List.map_cons, packFrom, Nat.or_assoc]

/-- The byte of a group is the OR of its samples, unmasked and each shifted to its place, mod 256 (R161, R162). -/
theorem packGroup_toNat (c : Codec) (m : Memory) (a k : Nat) :
    (packGroup c (m.readBytes a k)).toNat =
      (List.range k).foldl (fun acc j => acc ||| (m.read (a + j)).toNat <<< c.shift j) 0 % 256 := by
  rw [List.range_eq_range', foldl_or_eq_packFrom c (fun j => m.read (a + j)), Nat.zero_or, packGroup,
    readBytes_eq_map, List.range_eq_range', BitVec.toNat_ofNat]

end Sys2Proof.Machine

namespace Sys2Proof

/-- Settles O23: the unit writes one byte, that of its group. -/
theorem packUnit : Obligations.PackUnit := by
  intro n o m c b s i hi hc hin h
  have v : Machine.PackView i n o m := by
    rcases List.mem_pair.1 hi with rfl | rfl
    · exact Machine.packView_pack
    · exact Machine.packView_packb
  obtain ⟨u, t, hstep, hrec, hmem⟩ := v.exec_of_left hc hin h
  refine ⟨u, t, hstep, hrec, ?_, ?_⟩
  · rw [hmem, Machine.read_write_same, Machine.packGroup_toNat]
    simp only [Machine.shift_eq]
  · rw [hmem]
    exact Machine.sameOutside_write _ _ _

end Sys2Proof
end

section
/-! PROOFS. The waiting engine, the registers (`10_state.md` R20, R29) and reset (R40, `70_reset_and_hazards.md` R280). -/

namespace Sys2Proof.Machine

variable {s : State}

/-- Settles O8: with no event pending the step is the engine's turn, which waits. -/
theorem idleEngineWaits : Obligations.IdleEngineWaits := fun _ hb hin => (step_nil hin).trans (engineTurn_idle hb)

/-! ### The register file -/

/-- Past the last register every offset reads 0 (R20). -/
theorem readReg_past_last {off : Nat} (h : 0x48 ≤ off) : s.readReg off = 0 := by
  obtain ⟨k, rfl⟩ := Nat.exists_eq_add_of_le' h
  rfl

/-- `BUSY`, `DONE` and `ERR` are bits 0, 1 and 2 of `STATUS` (R26). -/
theorem status_word_toNat : ∀ f : Status,
    f.word.toNat = (if f.busy then 1 else 0) + (if f.done then 2 else 0) + (if f.err then 4 else 0) := by
  rintro ⟨_ | _, _ | _, _ | _⟩ <;> rfl

/-- A sum is its two halves (R33). -/
theorem sum_eq_halves (v : Sum) : v.toNat = (sumLo v).toNat + 2 ^ 32 * (sumHi v).toNat := by
  have hhi : v.toNat / 2 ^ 32 < 2 ^ 32 := Nat.div_lt_of_lt_mul v.isLt
  rw [sumLo, sumHi, BitVec.toNat_ofNat, BitVec.toNat_ofNat, Nat.mod_eq_of_lt hhi, Nat.mod_add_div]

/-- Settles O37: the offsets of the table read their registers by definition; the rest is said of `STATUS` and the sums. -/
theorem registerMap : Obligations.RegisterMap :=
  ⟨fun _ => rfl, fun _ _ => readReg_past_last, status_word_toNat, sum_eq_halves⟩

/-- A step that takes a whole write of another register than `CMD` while the engine waits is that register's write (R29). -/
theorem step_operandWrite {off : Nat} {v : Word} {rest : List Input} (ho : off % 4 = 0) (h0 : off ≠ 0x00)
    (hb : s.status.busy = false) (hin : s.host.inputs = .regWrite off 4 v :: rest) :
    step s = .next ((s.withInputs rest).writeOperand off v) := by
  rw [step_cons hin]
  simp [event, hostRegWrite, ho, h0, hb]

/-- Settles O39: each of the four offsets names one operand register. -/
theorem operandRegisterWrites : Obligations.OperandRegisterWrites := fun _ _ _ hb =>
  ⟨step_operandWrite rfl (by decide) hb, step_operandWrite rfl (by decide) hb, step_operandWrite rfl (by decide) hb,
    step_operandWrite rfl (by decide) hb⟩

/-! ### Reset -/

/-- After a reset event every offset reads 0 (R280). -/
theorem readReg_afterReset (s : State) (off : Nat) : s.afterReset.readReg off = 0 := by
  unfold State.readReg
  split <;> simp [Status.word, sumLo, sumHi]

/-- Settles O45: the state after reset is what a reset event makes of itself, and its memory is the empty list. -/
theorem resetValues : Obligations.ResetValues :=
  ⟨readReg_afterReset State.reset, rfl, rfl, fun _ => rfl⟩

/-- Settles O46: the step is the reset event, which keeps data memory, the free choices and the host's side. -/
theorem resetEvent : Obligations.ResetEvent := fun _ _ hin =>
  ⟨_, step_cons hin, readReg_afterReset _, rfl, rfl, rfl, rfl⟩

/-- Settles O50: the state after reset waits, with the idle status, code 0 and `OUT_LEN` 0. -/
theorem invHoldsAtReset : Obligations.InvHoldsAtReset :=
  inv_of_waiting (by decide) (.inl rfl) rfl rfl (by decide) (by decide) (by decide)

end Sys2Proof.Machine
end
